-- ==== Sys2Proof/Syntax.lean ====
section
/-! DEFINITION. The six commands of BCFT, one constructor per row of spec/opcode_table.json (30_encoding.md R111). -/

namespace Sys2Proof

/-- A decoded command. A command carries no operand but its flag F: every other operand is read from registers and RAM (30_encoding.md R115). -/
inductive Instr where
  /-- NOP (42_control.md R264). -/
  | nop
  /-- FFT_CONFIG with its equalize flag E (40_fft.md R150). -/
  | fftConfig (e : Bool)
  /-- FFT_TRANSFORM (40_fft.md R160). -/
  | fftTransform
  /-- LT_CONFIG (41_level.md R200). -/
  | ltConfig
  /-- LT_UPDATE with its spectrum-absent flag A (41_level.md R220). -/
  | ltUpdate (a : Bool)
  /-- LT_RESTART (41_level.md R240). -/
  | ltRestart
deriving DecidableEq, Repr

end Sys2Proof
end

