-- ==== Sys2Proof/Word.lean ====
section
/-! DEFINITION. The two bit-vector types of BCFT: the 32-bit word of every register, RAM entry, command and bus transfer (20_memory.md R85), and the byte of a RAM cell. -/

namespace Sys2Proof

/-- A 32-bit word; bit 0 is the least significant (00_scope.md R7). -/
abbrev Word := BitVec 32

/-- One byte, the unit of the window's addresses (20_memory.md R80). -/
abbrev Byte := BitVec 8

end Sys2Proof
end

