-- ==== Sys2Proof/WellFormed.lean ====
section
/-! DEFINITION. Which command words are well formed (30_encoding.md R110 to R114), as three named checks, and which decoded commands are. -/

namespace Sys2Proof

/-- The reserved field RSV, bits 31:9, is zero (30_encoding.md R110). -/
def rsvIsZero (w : Word) : Bool := w.extractLsb' 9 23 == 0#23

/-- OPC, bits 7:0, is one of the six assigned values (30_encoding.md R111). -/
def opcIsAssigned (w : Word) : Bool :=
  [0x00#8, 0x01#8, 0x02#8, 0x10#8, 0x11#8, 0x12#8].contains (w.extractLsb' 0 8)

/-- F, bit 8, is 0 unless the command has a flag, which FFT_CONFIG and LT_UPDATE have (30_encoding.md R112). -/
def flagIsAllowed (w : Word) : Bool :=
  !w.getLsbD 8 || w.extractLsb' 0 8 == 0x01#8 || w.extractLsb' 0 8 == 0x11#8

/-- A command word is well formed when it passes the three checks; every other word is Illegal (30_encoding.md R114). -/
def wordWellFormed (w : Word) : Bool := rsvIsZero w && opcIsAssigned w && flagIsAllowed w

/-- A decoded command is well formed: its only field is one bit, and Bool holds exactly the two values of that bit, so no command is ill formed (30_encoding.md R113: eight words, eight commands). -/
def Instr.wellFormed : Instr → Bool
  | .nop => true
  | .fftConfig _ => true
  | .fftTransform => true
  | .ltConfig => true
  | .ltUpdate _ => true
  | .ltRestart => true

end Sys2Proof
end

