-- ==== Sys2Proof/Decode.lean ====
section
/-! DEFINITION. Decoding of command words (30_encoding.md R113), total on all words and rejecting by name, the encoder, and the decoder seen through the bits of spec/opcode_table.json. -/

namespace Sys2Proof

/-- Why a word is Illegal (30_encoding.md R114). The block itself does not tell these apart: each gives CODE 0x01. -/
inductive DecodeError where
  /-- RSV is not zero. -/
  | reservedBits
  /-- OPC is not in the opcode map. -/
  | unassignedOpcode
  /-- F is 1 on a command whose F is reserved. -/
  | reservedFlag
  /-- Fewer than four bytes: no command word (30_encoding.md R116). -/
  | truncated
deriving DecidableEq, Repr

/-- OPC, bits 7:0 (30_encoding.md R110). -/
def opcOf (w : Word) : BitVec 8 := w.extractLsb' 0 8

/-- F, bit 8 (30_encoding.md R110). -/
def flagOf (w : Word) : Bool := w.getLsbD 8

/-- RSV, bits 31:9 (30_encoding.md R110). -/
def rsvOf (w : Word) : BitVec 23 := w.extractLsb' 9 23

/-- A command whose F must be 0 (30_encoding.md R112). -/
def withoutFlag (f : Bool) (i : Instr) : Except DecodeError Instr :=
  if f then .error .reservedFlag else .ok i

/-- `decode(word)` of 30_encoding.md R113. -/
def decode (w : Word) : Except DecodeError Instr :=
  if rsvOf w ≠ 0 then .error .reservedBits
  else if opcOf w = 0x00 then withoutFlag (flagOf w) .nop
  else if opcOf w = 0x01 then .ok (.fftConfig (flagOf w))
  else if opcOf w = 0x02 then withoutFlag (flagOf w) .fftTransform
  else if opcOf w = 0x10 then withoutFlag (flagOf w) .ltConfig
  else if opcOf w = 0x11 then .ok (.ltUpdate (flagOf w))
  else if opcOf w = 0x12 then withoutFlag (flagOf w) .ltRestart
  else .error .unassignedOpcode

/-- The command word of OPC and F, with RSV zero (30_encoding.md R110). -/
def formatC (opc : BitVec 8) (f : Bool) : Word := 0#23 ++ BitVec.ofBool f ++ opc

/-- The word of a command (30_encoding.md R111). -/
def encode : Instr → Word
  | .nop => formatC 0x00 false
  | .fftConfig e => formatC 0x01 e
  | .fftTransform => formatC 0x02 false
  | .ltConfig => formatC 0x10 false
  | .ltUpdate a => formatC 0x11 a
  | .ltRestart => formatC 0x12 false

/-- Four bytes as the word they carry, byte lane 0 at the lowest address (20_memory.md R85). -/
def wordOfBytes (b0 b1 b2 b3 : Byte) : Word := b3 ++ b2 ++ b1 ++ b0

/-- Byte lane k of a word: bits 8k+7 down to 8k (20_memory.md R85). -/
def byteLane (w : Word) (k : Nat) : Byte := w.extractLsb' (8 * k) 8

/-- The four bytes of a word, lowest address first (20_memory.md R85). -/
def bytesOfWord (w : Word) : List Byte := [byteLane w 0, byteLane w 1, byteLane w 2, byteLane w 3]

/-- Decode the command at the head of a list of bytes, and give the bytes after it. Every command is four bytes (30_encoding.md R116). -/
def decodeBytes : List Byte → Except DecodeError (Instr × List Byte)
  | b0 :: b1 :: b2 :: b3 :: rest => (decode (wordOfBytes b0 b1 b2 b3)).map (·, rest)
  | _ => .error .truncated

/-- The command word whose low `nbits` bits are those of `w` and whose other bits are 0, the bits numbered as spec/opcode_table.json numbers them. -/
def wordOfTableBits (nbits w : Nat) : Word := BitVec.ofNat 32 (w % 2 ^ nbits)

/-- What the decoder reads from a row of spec/opcode_table.json: its word laid out as bytes, lane 0 first, and decoded. -/
def decodeTableWord (nbits w : Nat) : Option Instr :=
  (decodeBytes (bytesOfWord (wordOfTableBits nbits w))).toOption.map (·.1)

end Sys2Proof
end

