-- ==== Sys2Proof/Config.lean ====
section
/-! DEFINITION. What an implementation fixes (00_scope.md R6) and the values the spec leaves open (92_eei_decisions.md, 93_implementation_defined.md). An `opaque` constant has no body: nothing in Lean can evaluate it or prove a value of it, so a theorem that mentions one holds for every value. -/

namespace Sys2Proof.Config

/-- WMAX: the largest working size; the depth of TIME RAM and BITREV RAM (00_scope.md R6). -/
abbrev wMax : Nat := 4096

/-- OMAX: the largest output size; the depth of SPEC RAM and EQ RAM (00_scope.md R6). -/
abbrev oMax : Nat := 2048

/-- NSTAGE: the depth of the twiddle ROM (00_scope.md R6). -/
abbrev nStage : Nat := 12

/-- WARMUP_FRAMES: the frames that use the warm-up slow rate (00_scope.md R6). -/
abbrev warmupFrames : Nat := 50

/-- BASE_FPS: the frame rate every base rate is calibrated at (00_scope.md R6). -/
abbrev baseFps : Nat := 30

/-- BASE_ADDR is a multiple of 0x10000 that the platform chooses (20_memory.md R82): which multiple. OPEN, log entry 7. -/
opaque baseIndex : Nat

/-- BASE_ADDR, where the platform places the window (20_memory.md R82). -/
def baseAddr : Nat := baseIndex * 0x10000

/-- FREE VALUE (T_CMD, 92_eei_decisions.md D41, 42_control.md R270): for the n-th draw, how many host transactions come between the acceptance of a command and its completion. Log entry 3. -/
opaque tCmd : Nat → Nat

/-- FREE VALUE (92_eei_decisions.md D30): the byte that the window offset holds since power-on, stable until written. Log entry 1. -/
opaque powerOnByte : Nat → Byte

/-- FREE VALUE (70_reset_and_hazards.md R322): for the n-th draw, the byte that an aborted command leaves at a window offset. Log entry 2. -/
opaque abortByte : Nat → Nat → Byte

end Sys2Proof.Config
end

