-- ==== Sys2Proof/Machine/Bus.lean ====
section
/-! DEFINITION. The host side of the port: transactions and their responses (20_memory.md R81) and the statements of a host program (30_encoding.md R117), as data. -/

namespace Sys2Proof.Machine

/-- The response of a transaction (20_memory.md R81). -/
inductive Resp where
  | okay
  | error
deriving DecidableEq, Repr

/-- What the host gets back from its last transaction: a read gives data and a response, a write a response only (20_memory.md R81). -/
inductive BusResponse where
  | readDone (data : Word) (resp : Resp)
  | writeDone (resp : Resp)
deriving DecidableEq, Repr

/-- A host transaction at an offset from BASE_ADDR, `width` bytes wide (20_memory.md R81). Only width 4 and an aligned offset succeed (R86). -/
inductive Transaction where
  | read (width : Nat) (off : Word)
  | write (width : Nat) (off : Word) (data : Word)
deriving DecidableEq, Repr

/-- A statement of a host program (30_encoding.md R117), with two forms beside the four of that rule: a transaction of any width, and the reset input. -/
inductive HostStmt where
  /-- `WR off, v`. -/
  | wr (off v : Word)
  /-- `RD off`: the data goes to the host's scratch variable d. -/
  | rd (off : Word)
  /-- `POLL off, mask, val`: repeat `RD off` until `(d & mask) == val`. -/
  | poll (off mask val : Word)
  /-- `EXPECT off, v`: `RD off`, and a claim that `d == v`. -/
  | expect (off v : Word)
  /-- Any transaction, of any width (20_memory.md R81, R86). -/
  | bus (t : Transaction)
  /-- The reset input rst is asserted (70_reset_and_hazards.md R320). -/
  | rst
deriving DecidableEq, Repr

end Sys2Proof.Machine
end

