-- ==== Sys2Proof/Machine/State.lean ====
section
/-! DEFINITION. The state of BCFT as plain data (10_state.md), the reasons a step can stop, and the state after reset (10_state.md R53). -/

namespace Sys2Proof.Machine

/-- The three bands: 0 bass, 1 mid, 2 treble (00_scope.md R6, 41_level.md R242). -/
inductive Band where
  | bass
  | mid
  | treble
deriving DecidableEq, Repr

/-- One value per band: the lanes of 41_level.md R242. -/
structure Lanes (α : Type) where
  bass : α
  mid : α
  treble : α
deriving DecidableEq, Repr

/-- Lane b. -/
def Lanes.get {α : Type} (l : Lanes α) : Band → α
  | .bass => l.bass
  | .mid => l.mid
  | .treble => l.treble

/-- The lanes of a function of the band. -/
def Lanes.ofBand {α : Type} (f : Band → α) : Lanes α := ⟨f .bass, f .mid, f .treble⟩

/-- The same value in every lane. -/
def Lanes.all {α : Type} (x : α) : Lanes α := ⟨x, x, x⟩

/-- The result codes of a command (60_exceptions.md R281). No other code is ever written. -/
inductive CmdCode where
  /-- 0x00: success. -/
  | ok
  /-- 0x01: the word decodes to Illegal. -/
  | illegalCmd
  /-- 0x02: FFT_NOUT is 0, not a power of two, or above OMAX. -/
  | fftBadSize
  /-- 0x03: FFT_NIN is above 2 times FFT_NOUT. -/
  | fftBadInput
  /-- 0x04: FFT_TRANSFORM with FFT_VALID = 0. -/
  | fftNotConfigured
  /-- 0x05: LT_SRATE or LT_FFTSIZE is 0, or LT_NBINS is below 2 or above OMAX. -/
  | ltBadParam
  /-- 0x06: the derived bounds break the band invariant. -/
  | ltBadBands
  /-- 0x07: LT_UPDATE with LT_VALID = 0. -/
  | ltNotConfigured
deriving DecidableEq, Repr

/-- STATUS by its named fields (10_state.md R34); bits 31:16 are reserved and hold nothing. -/
structure Status where
  busy : Bool
  done : Bool
  err : Bool
  busErr : Bool
  fftValid : Bool
  ltValid : Bool
  valValid : Bool
  /-- FFT_EQ, which is the active flag EQ_A (10_state.md R38). -/
  fftEq : Bool
  code : CmdCode
deriving DecidableEq, Repr

/-- The FFT operand registers and the active configuration (10_state.md R36 to R38). -/
structure FftRegs where
  nin : BitVec 13
  nout : BitVec 13
  eqK : Word
  ninA : BitVec 13
  noutA : BitVec 13
deriving DecidableEq, Repr

/-- The Level Tracker operand registers, the effective fps and the band registers (10_state.md R39 to R42). -/
structure LtRegs where
  srate : Word
  fftSize : Word
  nbins : BitVec 13
  fps : Word
  frame : Word
  fpsEff : Word
  bandStart : Lanes (BitVec 13)
  bandStop : Lanes (BitVec 13)
deriving DecidableEq, Repr

/-- The level state and the observation registers IMM, five vectors of three binary32 lanes (10_state.md R43, R44; 41_level.md R242). -/
structure LevelRegs where
  val : Lanes Word
  att : Lanes Word
  avg : Lanes Word
  lavg : Lanes Word
  imm : Lanes Word
deriving DecidableEq, Repr

/-- Bytes by address, in one canonical form: addresses strictly rising. An unlisted address has no recorded value, so no entry can equal what an unlisted address reads as. -/
abbrev Memory := List Host.Cell

/-- The whole state: that of 10_state.md, and the model's own fields for the host and for the free values. -/
structure State where
  /-- CMD: the last accepted command word (10_state.md R33). -/
  cmd : Word
  status : Status
  /-- IRQ_EN bits 2:0: DONE_IE is bit 0, ERR_IE bit 1, BUSERR_IE bit 2 (10_state.md R35). -/
  irqEn : BitVec 3
  fft : FftRegs
  lt : LtRegs
  level : LevelRegs
  /-- TIME, SPEC, EQ and BITREV RAM by window offset (10_state.md R46 to R49). -/
  ram : Memory
  /-- The hidden buffers (10_state.md R50): RE[i] at 4·i, IM[i] at 0x10000 + 4·i, a numbering of the model's own. -/
  scratch : Memory
  /-- The pending command word (10_state.md R51). -/
  pending : Option Word
  /-- The model's own: how many host transactions come before the pending command completes (42_control.md R270). -/
  wait : Nat
  /-- The model's own: how many free values have been drawn. -/
  draws : Nat
  /-- The model's own: the host's statements still to run (30_encoding.md R117). -/
  host : List HostStmt
  /-- The host's scratch variable d (30_encoding.md R117). -/
  d : Word
  /-- The response of the last host transaction (20_memory.md R81). -/
  bus : Option BusResponse
deriving DecidableEq, Repr

/-- The machine raises no fault: the block has no trap (60_exceptions.md R300), every transaction and every command word has a defined effect (70_reset_and_hazards.md R350), and a value the spec leaves unspecified is a free value. -/
inductive Fault where
deriving DecidableEq, Repr

/-- Why exec gives an instruction no meaning. -/
inductive Refusal where
  /-- Raised by an arm of exec for an instruction that has no meaning yet; safe. No arm of this model raises it. -/
  | notModelled (mnemonic : String)
deriving DecidableEq, Repr

/-- LevelInit's values (41_level.md R241). -/
def LevelRegs.initial : LevelRegs :=
  { val := Lanes.all 0x00000000
    att := Lanes.all 0x3F800000
    avg := Lanes.all 0x3F800000
    lavg := Lanes.all 0x3F800000
    imm := Lanes.all 0x00000000 }

/-- STATUS = 0x00000000 (10_state.md R53). -/
def Status.reset : Status :=
  { busy := false, done := false, err := false, busErr := false, fftValid := false
    ltValid := false, valValid := false, fftEq := false, code := .ok }

/-- The FFT registers after reset (10_state.md R53). -/
def FftRegs.reset : FftRegs :=
  { nin := 0, nout := 0, eqK := 0x3CA3D70A, ninA := 0, noutA := 0 }

/-- The Level Tracker registers after reset (10_state.md R53). -/
def LtRegs.reset : LtRegs :=
  { srate := 0, fftSize := 0, nbins := 0, fps := 0, frame := 0, fpsEff := 0
    bandStart := Lanes.all 0, bandStop := Lanes.all 0 }

/-- The machine right after the power-on reset (10_state.md R53, 70_reset_and_hazards.md R320): every register at its reset value, no RAM word written yet, nothing pending. The model's own fields start empty (log entry 6). -/
def State.reset : State :=
  { cmd := 0
    status := Status.reset
    irqEn := 0
    fft := FftRegs.reset
    lt := LtRegs.reset
    level := LevelRegs.initial
    ram := []
    scratch := []
    pending := none
    wait := 0
    draws := 0
    host := []
    d := 0
    bus := none }

end Sys2Proof.Machine
end

