-- ==== Sys2Proof/Machine/Flags.lean ====
section
/-! DEFINITION. Every computation on the flags of BCFT, which are the STATUS bits and nothing else (10_state.md R34, R52): the code byte, the STATUS word, write-one-to-clear, what a completion and a bus error set, and the interrupt output (60_exceptions.md R295). -/

namespace Sys2Proof.Machine

/-- The byte of a result code (60_exceptions.md R281). -/
def codeByte : CmdCode → Byte
  | .ok => 0x00
  | .illegalCmd => 0x01
  | .fftBadSize => 0x02
  | .fftBadInput => 0x03
  | .fftNotConfigured => 0x04
  | .ltBadParam => 0x05
  | .ltBadBands => 0x06
  | .ltNotConfigured => 0x07

/-- STATUS as the host reads it (10_state.md R34). -/
def statusWord (st : Status) : Word :=
  0#16 ++ codeByte st.code ++ BitVec.ofBool st.fftEq ++ BitVec.ofBool st.valValid
    ++ BitVec.ofBool st.ltValid ++ BitVec.ofBool st.fftValid ++ BitVec.ofBool st.busErr
    ++ BitVec.ofBool st.err ++ BitVec.ofBool st.done ++ BitVec.ofBool st.busy

/-- A host write to STATUS: a 1 in bit 1, 2 or 3 clears DONE, ERR or BUSERR; nothing else changes (10_state.md R34, 42_control.md R262). -/
def clearWrittenOnes (data : Word) (st : Status) : Status :=
  { st with
    done := st.done && !data.getLsbD 1
    err := st.err && !data.getLsbD 2
    busErr := st.busErr && !data.getLsbD 3 }

/-- What a completion does to STATUS: CODE, DONE, ERR when the code is not 0x00, and BUSY (42_control.md R263). -/
def completedStatus (c : CmdCode) (st : Status) : Status :=
  { st with code := c, done := true, err := st.err || c != .ok, busy := false }

/-- What an accepted CMD write does to STATUS (42_control.md R262). -/
def acceptedStatus (st : Status) : Status := { st with busy := true }

/-- What a bus error does to STATUS (60_exceptions.md R290). -/
def busErrorStatus (st : Status) : Status := { st with busErr := true }

/-- The interrupt output, a pure function of the state (60_exceptions.md R295). -/
def irq (s : State) : Bool :=
  (s.status.done && s.irqEn.getLsbD 0) || (s.status.err && s.irqEn.getLsbD 1)
    || (s.status.busErr && s.irqEn.getLsbD 2)

end Sys2Proof.Machine
end

