-- ==== Sys2Proof/Machine/Ops.lean ====
section
/-! DEFINITION. The named operations over memory and state that the meanings share: bytes and words of a memory, the level initialisation, the completion of a command, the bus error, the acceptance of a command and the reset. BCFT takes no trap (60_exceptions.md R300): the completion with a code is its only exception. -/

namespace Sys2Proof.Machine

/-- The recorded byte at an address, if one was ever written. -/
def recordedByte : Memory → Nat → Option Byte
  | [], _ => none
  | (k, b) :: rest, a => if k = a then some b else recordedByte rest a

/-- The cells of consecutive bytes from an address on. -/
def cellsFrom : Nat → List Byte → Memory
  | _, [] => []
  | a, b :: bs => (a, b) :: cellsFrom (a + 1) bs

/-- Store consecutive bytes from an address on: the cells below, the new cells, the cells above. -/
def storeBytes (m : Memory) (a : Nat) (bs : List Byte) : Memory :=
  m.filter (fun c => c.1 < a) ++ cellsFrom a bs ++ m.filter (fun c => a + bs.length ≤ c.1)

/-- The canonical form of a memory: addresses strictly rising. -/
def memoryWf : Memory → Bool
  | [] => true
  | [_] => true
  | (a, _) :: (b, y) :: rest => decide (a < b) && memoryWf ((b, y) :: rest)

/-- Read one byte. A byte never written holds an unspecified value, stable until it is written (10_state.md R53, 92_eei_decisions.md D30). -/
def readByte (m : Memory) (a : Nat) : Byte := (recordedByte m a).getD (Config.powerOnByte a)

/-- Read the word at an address, lane 0 lowest (20_memory.md R85). -/
def readWord (m : Memory) (a : Nat) : Word :=
  wordOfBytes (readByte m a) (readByte m (a + 1)) (readByte m (a + 2)) (readByte m (a + 3))

/-- Store consecutive words from an address on, each with lane 0 lowest (20_memory.md R85). -/
def storeWords (m : Memory) (a : Nat) (ws : List Word) : Memory :=
  storeBytes m a (ws.flatMap bytesOfWord)

/-- The window offsets of the four RAMs (20_memory.md R84). -/
abbrev timeBase : Nat := 0x4000
abbrev specBase : Nat := 0x8000
abbrev eqBase : Nat := 0xA000
abbrev bitrevBase : Nat := 0xC000

/-- Entry i of a RAM whose base is given (20_memory.md R84). -/
def ramEntry (s : State) (base i : Nat) : Word := readWord s.ram (base + 4 * i)

/-- Write entries 0, 1, ... of a RAM whose base is given. -/
def writeRam (base : Nat) (ws : List Word) (s : State) : State :=
  { s with ram := storeWords s.ram base ws }

/-- Write one entry of a RAM whose base is given (20_memory.md R84). -/
def writeRamEntry (base i : Nat) (w : Word) (s : State) : State := writeRam (base + 4 * i) [w] s

/-- Where RE and IM stand in the hidden memory, a numbering of the model's own. -/
abbrev reBase : Nat := 0
abbrev imBase : Nat := 0x10000

/-- Leave RE and IM in the hidden buffers (10_state.md R50). -/
def writeScratch (re im : List Word) (s : State) : State :=
  { s with scratch := storeWords (storeWords s.scratch reBase re) imBase im }

/-- LevelInit of 41_level.md R241; LT_FPS_EFF is not part of the level state. -/
def levelInit (s : State) : State :=
  { s with level := LevelRegs.initial, status := { s.status with valValid := false } }

/-- The end of every command, the part of `Complete()` after Execute (42_control.md R263): `r` is the state that Execute leaves and the code it ended with. -/
def complete (r : State × CmdCode) : State :=
  { r.1 with pending := none, wait := 0, status := completedStatus r.2 r.1.status }

/-- `raise CmdError(code)`: the command ends with the effects made so far (00_scope.md R8, 60_exceptions.md R283). -/
def raiseCode (c : CmdCode) (s : State) : State × CmdCode := (s, c)

/-- A command that ends without an error. -/
def succeed (s : State) : State × CmdCode := (s, .ok)

/-- `Execute(Illegal)` (42_control.md R263, 30_encoding.md R114). -/
def illegalCommand (s : State) : State := complete (raiseCode .illegalCmd s)

/-- The acceptance of a CMD write (42_control.md R262): it decodes nothing. The free value T_CMD is drawn here (log entry 3). -/
def acceptCommand (w : Word) (s : State) : State :=
  { s with
    cmd := w
    pending := some w
    status := acceptedStatus s.status
    wait := Config.tCmd s.draws
    draws := s.draws + 1 }

/-- The bytes that an abort leaves in n words from a window offset on: free values of this draw (70_reset_and_hazards.md R322). -/
def abortBytes (draw a n : Nat) : List Byte :=
  (List.range (4 * n)).map (fun i => Config.abortByte draw (a + i))

/-- Make n words of RAM from a window offset on unspecified (70_reset_and_hazards.md R322). -/
def scramble (draw a n : Nat) (m : Memory) : Memory := storeBytes m a (abortBytes draw a n)

/-- What `Reset()` does to the RAMs (70_reset_and_hazards.md R322): nothing, but for the words that an aborted FFT_TRANSFORM or FFT_CONFIG was to write. -/
def abortedRam (s : State) : Memory :=
  match s.pending.map decode with
  | some (.ok .fftTransform) => scramble s.draws specBase s.fft.noutA.toNat s.ram
  | some (.ok (.fftConfig false)) => scramble s.draws bitrevBase Config.wMax s.ram
  | some (.ok (.fftConfig true)) =>
    scramble s.draws eqBase Config.oMax (scramble s.draws bitrevBase Config.wMax s.ram)
  | _ => s.ram

/-- `Reset()` of 70_reset_and_hazards.md R322: every register at its value of 10_state.md R53, nothing pending, the RAMs kept but for an abort, RE and IM unspecified. The host's own fields and the count of draws are no part of the block. -/
def resetBlock (s : State) : State :=
  { State.reset with
    ram := abortedRam s
    draws := s.draws + 1
    host := s.host
    d := s.d
    bus := s.bus }

end Sys2Proof.Machine
end

