-- ==== Sys2Proof/Machine/Control.lean ====
section
/-! DEFINITION. The meaning of NOP (42_control.md R264). -/

namespace Sys2Proof.Machine

/-- NOP: no effect but its completion (42_control.md R264). -/
def execNop (s : State) : Host.Outcome State Fault Refusal := .next (complete (succeed s))

end Sys2Proof.Machine
end

