-- ==== Sys2Proof/Machine/Operands.lean ====
section
/-! DEFINITION. The operand forms: the address map of the window (20_memory.md R83), what each word reads as (42_control.md R261) and what a write to it does (42_control.md R262), the twiddle ROM (40_fft.md R143), and the operands that commands read (30_encoding.md R115). -/

namespace Sys2Proof.Machine

/-- What an aligned window offset names (20_memory.md R83). -/
inductive Region where
  | ident
  | version
  | params
  | ctrl
  | cmd
  | status
  | irqEn
  | fftNin
  | fftNout
  | eqK
  | fftAct
  | ltSrate
  | ltFftSize
  | ltNbins
  | ltFps
  | ltFrame
  | ltFpsEff
  | bandStart (b : Band)
  | bandStop (b : Band)
  | val (b : Band)
  | att (b : Band)
  | avg (b : Band)
  | lavg (b : Band)
  | imm (b : Band)
  | twCos (i : Nat)
  | twSin (i : Nat)
  | timeRam (i : Nat)
  | specRam (i : Nat)
  | eqRam (i : Nat)
  | bitrevRam (i : Nat)
  | reserved
deriving DecidableEq, Repr

/-- The registers below 0x0100 by offset (20_memory.md R83). -/
def registerMap : List (Nat × Region) :=
  [(0x0000, .ident), (0x0004, .version), (0x0008, .params),
   (0x0010, .ctrl), (0x0014, .cmd), (0x0018, .status), (0x001C, .irqEn),
   (0x0020, .fftNin), (0x0024, .fftNout), (0x0028, .eqK), (0x002C, .fftAct),
   (0x0040, .ltSrate), (0x0044, .ltFftSize), (0x0048, .ltNbins),
   (0x004C, .ltFps), (0x0050, .ltFrame), (0x0054, .ltFpsEff),
   (0x0060, .bandStart .bass), (0x0064, .bandStop .bass),
   (0x0068, .bandStart .mid), (0x006C, .bandStop .mid),
   (0x0070, .bandStart .treble), (0x0074, .bandStop .treble),
   (0x0080, .val .bass), (0x0084, .val .mid), (0x0088, .val .treble),
   (0x0090, .att .bass), (0x0094, .att .mid), (0x0098, .att .treble),
   (0x00A0, .avg .bass), (0x00A4, .avg .mid), (0x00A8, .avg .treble),
   (0x00B0, .lavg .bass), (0x00B4, .lavg .mid), (0x00B8, .lavg .treble),
   (0x00C0, .imm .bass), (0x00C4, .imm .mid), (0x00C8, .imm .treble)]

/-- The region of an aligned window offset below 0x10000; every offset not listed is reserved (20_memory.md R83, R84). -/
def regionOf (off : Nat) : Region :=
  if off < 0x0100 then (registerMap.lookup off).getD .reserved
  else if off < 0x0130 then .twCos ((off - 0x0100) / 4)
  else if off < 0x0140 then .reserved
  else if off < 0x0170 then .twSin ((off - 0x0140) / 4)
  else if off < timeBase then .reserved
  else if off < specBase then .timeRam ((off - timeBase) / 4)
  else if off < eqBase then .specRam ((off - specBase) / 4)
  else if off < bitrevBase then .eqRam ((off - eqBase) / 4)
  else .bitrevRam ((off - bitrevBase) / 4)

/-- The always-accessible set (20_memory.md R88). -/
def alwaysAccessible : Region → Bool
  | .ident | .version | .params | .ctrl | .status | .irqEn => true
  | _ => false

/-- The words the host may not write (20_memory.md R83, R87; 10_state.md R54). -/
def readOnly : Region → Bool
  | .ctrl | .cmd | .status | .irqEn | .fftNin | .fftNout | .eqK => false
  | .ltSrate | .ltFftSize | .ltNbins | .ltFps | .ltFrame => false
  | .timeRam _ | .specRam _ => false
  | _ => true

/-- TW_COS[0..11] (40_fft.md R143). -/
def twCosTable : List Word :=
  [0xBF800000, 0x00000000, 0x3F3504F3, 0x3F6C835E, 0x3F7B14BE, 0x3F7EC46D,
   0x3F7FB10F, 0x3F7FEC43, 0x3F7FFB11, 0x3F7FFEC4, 0x3F7FFFB1, 0x3F7FFFEC]

/-- TW_SIN[0..11] (40_fft.md R143). -/
def twSinTable : List Word :=
  [0x00000000, 0xBF800000, 0xBF3504F3, 0xBEC3EF15, 0xBE47C5C2, 0xBDC8BD36,
   0xBD48FB30, 0xBCC90AB0, 0xBC490E90, 0xBBC90F88, 0xBB490FC6, 0xBAC90FD5]

/-- TW_COS[i]; the ROM has no entry above 11 (10_state.md R45). -/
def twCos (i : Nat) : Word := twCosTable.getD i 0

/-- TW_SIN[i]; the ROM has no entry above 11 (10_state.md R45). -/
def twSin (i : Nat) : Word := twSinTable.getD i 0

/-- FFT_ACT (10_state.md R38). -/
def fftActWord (r : FftRegs) : Word := 0#3 ++ r.noutA ++ 0#3 ++ r.ninA

/-- `ReadValue` of 42_control.md R261: the addressed word; reserved bits read 0, and CTRL reads 0. -/
def readValue (s : State) : Region → Word
  | .ident => 0x42434654
  | .version => 0x00000007
  | .params => 0x1E0F900C
  | .ctrl => 0
  | .cmd => s.cmd
  | .status => statusWord s.status
  | .irqEn => s.irqEn.zeroExtend 32
  | .fftNin => s.fft.nin.zeroExtend 32
  | .fftNout => s.fft.nout.zeroExtend 32
  | .eqK => s.fft.eqK
  | .fftAct => fftActWord s.fft
  | .ltSrate => s.lt.srate
  | .ltFftSize => s.lt.fftSize
  | .ltNbins => s.lt.nbins.zeroExtend 32
  | .ltFps => s.lt.fps
  | .ltFrame => s.lt.frame
  | .ltFpsEff => s.lt.fpsEff
  | .bandStart b => (s.lt.bandStart.get b).zeroExtend 32
  | .bandStop b => (s.lt.bandStop.get b).zeroExtend 32
  | .val b => s.level.val.get b
  | .att b => s.level.att.get b
  | .avg b => s.level.avg.get b
  | .lavg b => s.level.lavg.get b
  | .imm b => s.level.imm.get b
  | .twCos i => twCos i
  | .twSin i => twSin i
  | .timeRam i => ramEntry s timeBase i
  | .specRam i => ramEntry s specBase i
  | .eqRam i => ramEntry s eqBase i
  | .bitrevRam i => ramEntry s bitrevBase i
  | .reserved => 0

/-- The effect of a write to a writable word (42_control.md R262); reserved bits are ignored (10_state.md R32 to R40). -/
def writeValue (data : Word) (s : State) : Region → State
  | .ctrl => if data.getLsbD 0 then resetBlock s else s
  | .cmd => acceptCommand data s
  | .status => { s with status := clearWrittenOnes data s.status }
  | .irqEn => { s with irqEn := data.extractLsb' 0 3 }
  | .fftNin => { s with fft := { s.fft with nin := data.extractLsb' 0 13 } }
  | .fftNout => { s with fft := { s.fft with nout := data.extractLsb' 0 13 } }
  | .eqK => { s with fft := { s.fft with eqK := data } }
  | .ltSrate => { s with lt := { s.lt with srate := data } }
  | .ltFftSize => { s with lt := { s.lt with fftSize := data } }
  | .ltNbins => { s with lt := { s.lt with nbins := data.extractLsb' 0 13 } }
  | .ltFps => { s with lt := { s.lt with fps := data } }
  | .ltFrame => { s with lt := { s.lt with frame := data } }
  | .timeRam i => writeRamEntry timeBase i data s
  | .specRam i => writeRamEntry specBase i data s
  | _ => s

/-- NIN_A, NOUT_A and the working size W_A = 2·NOUT_A (10_state.md R38, 40_fft.md R140). -/
def ninA (s : State) : Nat := s.fft.ninA.toNat
def noutA (s : State) : Nat := s.fft.noutA.toNat
def workingSize (s : State) : Nat := 2 * noutA s

/-- TIME[i], SPEC[i], EQ[i] and BITREV[i] as commands read them (20_memory.md R96). -/
def timeWord (s : State) (i : Nat) : Word := ramEntry s timeBase i
def specWord (s : State) (i : Nat) : Word := ramEntry s specBase i
def eqWord (s : State) (i : Nat) : Word := ramEntry s eqBase i
def bitrevEntry (s : State) (i : Nat) : Nat := (ramEntry s bitrevBase i).toNat

end Sys2Proof.Machine
end

