-- ==== Sys2Proof/Machine/Float.lean ====
section
/-! DEFINITION. binary32 (00_scope.md R9 to R13): fields, the one rounding to nearest even, the five primitives and the comparisons. A finite magnitude is a whole number of units of 2^-149, so every operation is exact in Nat or Int and narrows once at the end. -/

namespace Sys2Proof.Machine

/-- The sign bit 31 (00_scope.md R9). -/
def signBit (a : Word) : Bool := a.getLsbD 31

/-- The biased exponent, bits 30:23 (00_scope.md R9). -/
def expField (a : Word) : Nat := a.toNat / 2 ^ 23 % 2 ^ 8

/-- The fraction, bits 22:0 (00_scope.md R9). -/
def fracField (a : Word) : Nat := a.toNat % 2 ^ 23

/-- Any NaN encoding (00_scope.md R12). -/
def isNaN (a : Word) : Bool := expField a == 255 && fracField a != 0

/-- 0x7F800000 or 0xFF800000 (00_scope.md R12). -/
def isInf (a : Word) : Bool := expField a == 255 && fracField a == 0

/-- Neither NaN nor infinite (00_scope.md R12). -/
def isFinite (a : Word) : Bool := !isNaN a && !isInf a

/-- The canonical NaN (00_scope.md R11). -/
def canonicalNaN : Word := 0x7FC00000

/-- The word 1.0. -/
def one32 : Word := 0x3F800000

/-- The magnitude of a finite value, in units of 2^-149: subnormals as they are, normals with the hidden bit (00_scope.md R9). -/
def magnitude (a : Word) : Nat :=
  if expField a = 0 then fracField a else (2 ^ 23 + fracField a) * 2 ^ (expField a - 1)

/-- A finite value, in units of 2^-149. -/
def units (a : Word) : Int := if signBit a then -(magnitude a : Int) else (magnitude a : Int)

/-- num/den rounded to an integer, to nearest with ties to even (00_scope.md R10). -/
def roundHalfEven (num den : Nat) : Nat :=
  let q := num / den
  let r := num % den
  if 2 * r < den then q else if den < 2 * r then q + 1 else if q % 2 = 0 then q else q + 1

/-- How many low bits a magnitude of integer part q loses to keep 24 significant bits; none below 2^24, where a step is one unit. -/
def dropBits (q : Nat) : Nat := Nat.log2 q - 23

/-- The 31-bit pattern of the binary32 magnitude nearest to num/den units of 2^-149, ties to even: RN32 of 00_scope.md R13 without its sign. A pattern at or above that of infinity is infinity: overflow (R10). Results below the normal range are subnormal (R10). -/
def roundMagnitude (num den : Nat) : Nat :=
  let sh := dropBits (num / den)
  min (sh * 2 ^ 23 + roundHalfEven num (den * 2 ^ sh)) 0x7F800000

/-- A sign and a 31-bit pattern as a word (00_scope.md R9). -/
def packSign (sign : Bool) (pattern : Nat) : Word :=
  BitVec.ofNat 32 ((if sign then 2 ^ 31 else 0) + pattern)

/-- RN32 of the rational with this sign and magnitude num/den units of 2^-149 (00_scope.md R13). -/
def round32 (sign : Bool) (num den : Nat) : Word := packSign sign (roundMagnitude num den)

/-- The other sign. -/
def negate (a : Word) : Word := a ^^^ 0x80000000

/-- `add32` (00_scope.md R10, R11): an exact zero sum is +0 unless both operands are −0. -/
def add32 (a b : Word) : Word :=
  if isNaN a || isNaN b then canonicalNaN
  else if isInf a then (if isInf b && signBit a != signBit b then canonicalNaN else a)
  else if isInf b then b
  else if units a + units b = 0 then packSign (signBit a && signBit b) 0
  else round32 (decide (units a + units b < 0)) (units a + units b).natAbs 1

/-- `sub32` (00_scope.md R10, R11): a + (−b). -/
def sub32 (a b : Word) : Word := add32 a (negate b)

/-- `mul32` (00_scope.md R10, R11): 0 × ∞ is NaN. -/
def mul32 (a b : Word) : Word :=
  let s := signBit a != signBit b
  if isNaN a || isNaN b then canonicalNaN
  else if isInf a || isInf b then
    (if magnitude a = 0 || magnitude b = 0 then canonicalNaN else packSign s 0x7F800000)
  else round32 s (magnitude a * magnitude b) (2 ^ 149)

/-- `div32` (00_scope.md R10, R11): 0/0 and ∞/∞ are NaN, x/±0 is an infinity of the right sign. -/
def div32 (a b : Word) : Word :=
  let s := signBit a != signBit b
  if isNaN a || isNaN b then canonicalNaN
  else if isInf a then (if isInf b then canonicalNaN else packSign s 0x7F800000)
  else if isInf b then packSign s 0
  else if magnitude b = 0 then
    (if magnitude a = 0 then canonicalNaN else packSign s 0x7F800000)
  else round32 s (magnitude a * 2 ^ 149) (magnitude b)

/-- The integer square root of n, rounded down, for n below 4^fuel: two bits of n give one bit of the root. -/
def isqrt : Nat → Nat → Nat
  | 0, _ => 0
  | fuel + 1, n =>
    if n = 0 then 0
    else
      let r := 2 * isqrt fuel (n / 4)
      if (r + 1) * (r + 1) ≤ n then r + 1 else r

/-- `sqrt32` (00_scope.md R10, R11): the root of −0 is −0, of a negative non-zero value NaN. The exact root of m units is the root of m·2^149 units; where it is no integer, half a unit stands for its fraction, which is below every rounding point. -/
def sqrt32 (a : Word) : Word :=
  if isNaN a then canonicalNaN
  else if magnitude a = 0 then a
  else if signBit a then canonicalNaN
  else if isInf a then a
  else
    let n := magnitude a * 2 ^ 149
    let q := isqrt 220 n
    round32 false (2 * q + (if q * q = n then 0 else 1)) 2

/-- The place of a non-NaN value on the number line: its pattern with its sign, so that −0 and +0 fall together and the infinities are outermost. -/
def orderKey (a : Word) : Int :=
  if signBit a then -((a.toNat % 2 ^ 31 : Nat) : Int) else ((a.toNat % 2 ^ 31 : Nat) : Int)

/-- `lt32`: the ordered comparison, false when an operand is NaN (00_scope.md R12). -/
def lt32 (a b : Word) : Bool := !isNaN a && !isNaN b && decide (orderKey a < orderKey b)

/-- `gt32` (00_scope.md R12). -/
def gt32 (a b : Word) : Bool := lt32 b a

end Sys2Proof.Machine
end

