-- ==== Sys2Proof/Machine/Transcend.lean ====
section
/-! DEFINITION. Correctly rounded logarithm and power (00_scope.md R13, 40_fft.md R146, 41_level.md R222). Each exact real value is enclosed between two rationals of denominator 2^p; where both ends round to one word, that word is RN32 of the real value. The weights always are so decided; a root that is not is decided by exact comparisons, so every value is RN32 of its formula (log entry 9). -/

namespace Sys2Proof.Machine

/-- A real number x ≥ 0 enclosed: lo/2^p ≤ x ≤ hi/2^p, for a precision p kept beside it. -/
structure Enclosure where
  lo : Nat
  hi : Nat
deriving DecidableEq, Repr

/-- The sum of `fuel` terms of the series of 2^p·artanh(a/b) from the term of index k on, `t` standing for 2^p·(a/b)^(2k+1); every quotient is rounded down. -/
def artanhTerms (a b : Nat) : Nat → Nat → Nat → Nat
  | 0, _, _ => 0
  | fuel + 1, k, t => t / (2 * k + 1) + artanhTerms a b fuel (k + 1) (t * (a * a) / (b * b))

/-- How many terms of the artanh series are summed: each gains over three bits for an argument of at most 1/3. -/
def artanhCount (p : Nat) : Nat := p / 3 + 1

/-- artanh(a/b) enclosed, for 0 ≤ a/b ≤ 1/3: rounding down loses less than three units a term, and the terms left out less than one unit together. -/
def artanhEnclosure (p a b : Nat) : Enclosure :=
  let s := artanhTerms a b (artanhCount p) 0 (2 ^ p * a / b)
  { lo := s, hi := s + 3 * artanhCount p + 2 }

/-- ln 2 = 2·artanh(1/3), enclosed. -/
def ln2Enclosure (p : Nat) : Enclosure :=
  let e := artanhEnclosure p 1 3
  { lo := 2 * e.lo, hi := 2 * e.hi }

/-- ln(m/2^e) for the e with 2^e ≤ m < 2^(e+1), enclosed: 2·artanh((m − 2^e)/(m + 2^e)). -/
def lnMantissa (p m : Nat) : Enclosure :=
  let e := artanhEnclosure p (m - 2 ^ Nat.log2 m) (m + 2 ^ Nat.log2 m)
  { lo := 2 * e.lo, hi := 2 * e.hi }

/-- −ln(m/2^j) for 0 < m < 2^j, enclosed: (j − e)·ln 2 − ln(m/2^e) with e = log2 m. -/
def negLnEnclosure (p m j : Nat) : Enclosure :=
  let l := ln2Enclosure p
  let f := lnMantissa p m
  { lo := (j - Nat.log2 m) * l.lo - f.hi
    hi := (j - Nat.log2 m) * l.hi - f.lo }

/-- The sum of `fuel` terms of the series of 2^p·exp(u/2^p) from the term of index k on, `t` standing for 2^p·(u/2^p)^k/k!; `up` is what each quotient gains: 0 rounds down, 1 bounds from above. -/
def expTerms (p u up : Nat) : Nat → Nat → Nat → Nat
  | 0, _, t => 2 * up * t
  | fuel + 1, k, t => t + expTerms p u up fuel (k + 1) (t * u / (2 ^ p * (k + 1)) + up)

/-- How many terms of the exponential series are summed. -/
def expCount (p : Nat) : Nat := p / 2 + 32

/-- exp of a number between 0 and 16 that is itself enclosed: from above, twice the first term left out bounds all terms left out. -/
def expEnclosure (p : Nat) (u : Enclosure) : Enclosure :=
  { lo := expTerms p u.lo 0 (expCount p) 0 (2 ^ p)
    hi := expTerms p u.hi 1 (expCount p) 0 (2 ^ p) }

/-- The precision of every enclosure, in bits (log entry 9). -/
abbrev precision : Nat := 96

/-- RN32 of 1/x for the x of an enclosure, if both ends round to one word. -/
def roundReciprocal (p : Nat) (x : Enclosure) : Option Word :=
  if round32 false (2 ^ (149 + p)) x.lo = round32 false (2 ^ (149 + p)) x.hi then
    some (round32 false (2 ^ (149 + p)) x.lo)
  else none

/-- `eqw(k, N, i)` of 40_fft.md R146, for N = 2^j and i < N. Both ends of the enclosure round to one word for every k (Laws.weight_ends_agree), so the lower end does for the exact value. A weight that underflows keeps the sign of the real value (log entry 10). -/
def eqWeight (k : Word) (n i : Nat) : Word :=
  if i = 0 then 0x00000000
  else if isNaN k then canonicalNaN
  else if isInf k then k
  else if magnitude k = 0 then 0x00000000
  else
    round32 (signBit k) (magnitude k * (negLnEnclosure precision (n - i) (Nat.log2 n)).lo) (2 ^ precision)

/-- RN32(r^n) for a positive finite r: the exact power of a rational, one rounding (41_level.md R222). -/
def powInt32 (r : Word) (n : Nat) : Word :=
  round32 false (magnitude r ^ n * 2 ^ 149) (2 ^ (149 * n))

/-- RN32(q^(1/fe)) for a q in (0, 1) and a positive fe: 1/exp(−ln(q)/fe), one rounding (41_level.md R222). -/
def rootEnclosure (p : Nat) (q fe : Word) : Enclosure :=
  let l := negLnEnclosure p (magnitude q) 149
  expEnclosure p { lo := l.lo * 2 ^ 149 / magnitude fe, hi := l.hi * 2 ^ 149 / magnitude fe + 1 }

/-- num/den ≤ (m/2^149)^(s/p), decided exactly: (num/den)^p ≤ (m/2^149)^s. -/
def powerAtMost (m p s num den : Nat) : Bool := decide (num ^ p * (2 ^ 149) ^ s ≤ m ^ s * den ^ p)

/-- The same with the strict order. -/
def powerBelow (m p s num den : Nat) : Bool := decide (num ^ p * (2 ^ 149) ^ s < m ^ s * den ^ p)

/-- The greatest number from c on that a downward closed condition admits, found bit by bit, the highest of the given bits first. -/
def greatestFrom (f : Nat → Bool) : Nat → Nat → Nat
  | 0, c => c
  | bits + 1, c => greatestFrom f bits (if f (c + 2 ^ bits) then c + 2 ^ bits else c)

/-- The magnitude of a 31-bit pattern, in units of 2^-149. -/
def patternUnits (c : Nat) : Nat := magnitude (BitVec.ofNat 32 c)

/-- RN32(q^(1/fe)) for a q in (0, 1), decided by exact comparisons of whole numbers: with 1/fe = s/p in lowest terms, the greatest pattern at or below the value, then the side of its upper midpoint on which the value lies, ties to even (41_level.md R222, 00_scope.md R13). The numbers grow with p, so it serves only where an enclosure does not decide. -/
def exactRoot (q fe : Word) : Word :=
  let g := Nat.gcd (magnitude fe) (2 ^ 149)
  let p := magnitude fe / g
  let s := 2 ^ 149 / g
  let c := greatestFrom (fun c => powerAtMost (magnitude q) p s (patternUnits c) (2 ^ 149)) 31 0
  let mid := patternUnits c + patternUnits (c + 1)
  if powerBelow (magnitude q) p s mid (2 ^ 150) then BitVec.ofNat 32 (c + 1)
  else if powerAtMost (magnitude q) p s mid (2 ^ 150) then BitVec.ofNat 32 (c + c % 2)
  else BitVec.ofNat 32 c

/-- RN32(q^(1/fe)) for a q in (0, 1) and a positive fe: by the enclosure where it decides, else exactly (41_level.md R222). -/
def rootWord (q fe : Word) : Word :=
  (roundReciprocal precision (rootEnclosure precision q fe)).getD (exactRoot q fe)

/-- `PerFrame(r, fe)` of 41_level.md R222: perSecond = RN32(r^30), then RN32(perSecond^(1/fe)). -/
def perFrame (r fe : Word) : Word := rootWord (powInt32 r Config.baseFps) fe

end Sys2Proof.Machine
end

