-- ==== Sys2Proof/Machine/Fft.lean ====
section
/-! DEFINITION. The FFT engine: its tables and FFT_CONFIG (40_fft.md R140 to R153), and FFT_TRANSFORM (R160 to R166). -/

namespace Sys2Proof.Machine

/-- `bitrev_L(i)`: the L low bits of i in reversed order (00_scope.md R14, 40_fft.md R142). -/
def bitrev : Nat → Nat → Nat
  | 0, _ => 0
  | l + 1, i => i % 2 * 2 ^ l + bitrev l (i / 2)

/-- `is_pow2(n)` (00_scope.md R14). -/
def isPow2 (n : Nat) : Bool := n == 2 ^ Nat.log2 n

/-- Every entry of BITREV RAM for the working size w (40_fft.md R144). -/
def bitrevTable (w : Nat) : List Word :=
  (List.range Config.wMax).map (fun i => BitVec.ofNat 32 (if i < w then bitrev (Nat.log2 w) i else 0))

/-- Every entry of EQ RAM for k and the output size n (40_fft.md R145). -/
def eqTable (k : Word) (n : Nat) : List Word :=
  (List.range Config.oMax).map (fun i => if i < n then eqWeight k n i else 0x00000000)

/-- The check of FFT_NOUT (40_fft.md R150, R151). -/
def fftSizeLegal (nout : Nat) : Bool := isPow2 nout && decide (1 ≤ nout ∧ nout ≤ Config.oMax)

/-- A failed FFT_CONFIG clears FFT_VALID and nothing else (40_fft.md R153 (d)). -/
def clearFftValid (s : State) : State := { s with status := { s.status with fftValid := false } }

/-- A successful FFT_CONFIG latches its operands (40_fft.md R150, R152). -/
def latchFft (e : Bool) (s : State) : State :=
  { s with
    fft := { s.fft with ninA := s.fft.nin, noutA := s.fft.nout }
    status := { s.status with fftEq := e, fftValid := true } }

/-- The tables that a successful FFT_CONFIG writes (40_fft.md R144, R145). -/
def fillTables (e : Bool) (s : State) : State :=
  let s1 := writeRam bitrevBase (bitrevTable (2 * s.fft.nout.toNat)) s
  if e then writeRam eqBase (eqTable s.fft.eqK s.fft.nout.toNat) s1 else s1

/-- The body of FFT_CONFIG (40_fft.md R150). -/
def fftConfig (e : Bool) (s : State) : State × CmdCode :=
  if !fftSizeLegal s.fft.nout.toNat then raiseCode .fftBadSize (clearFftValid s)
  else if 2 * s.fft.nout.toNat < s.fft.nin.toNat then raiseCode .fftBadInput (clearFftValid s)
  else succeed (latchFft e (fillTables e s))

/-- FFT_CONFIG. -/
def execFftConfig (e : Bool) (s : State) : Host.Outcome State Fault Refusal :=
  .next (complete (fftConfig e s))

/-- The scratch buffers while a transform runs (10_state.md R50). -/
structure Buffers where
  re : Array Word
  im : Array Word
deriving DecidableEq, Repr

/-- Entry i of a buffer. -/
def bufferAt (b : Array Word) (i : Nat) : Word := b.getD i 0

/-- Steps 1 and 2: both buffers cleared, then RE scattered with zero padding (40_fft.md R160, R161). -/
def scattered (s : State) : Buffers :=
  { re := ((List.range (workingSize s)).map (fun i =>
      let b := bitrevEntry s i
      if b < ninA s then timeWord s b else 0x00000000)).toArray
    im := (List.replicate (workingSize s) (0x00000000 : Word)).toArray }

/-- `tr` of a butterfly (40_fft.md R160). -/
def butterflyRe (wr wi xr xi : Word) : Word := sub32 (mul32 wr xr) (mul32 wi xi)

/-- `ti` of a butterfly (40_fft.md R160). -/
def butterflyIm (wr wi xr xi : Word) : Word := add32 (mul32 wr xi) (mul32 wi xr)

/-- One butterfly on the pair (i, j): the six lines of 40_fft.md R160. -/
def butterfly (wr wi : Word) (i j : Nat) (b : Buffers) : Buffers :=
  let ri := bufferAt b.re i
  let ii := bufferAt b.im i
  let rj := bufferAt b.re j
  let ij := bufferAt b.im j
  let tr := butterflyRe wr wi rj ij
  let ti := butterflyIm wr wi rj ij
  { re := (b.re.setIfInBounds j (sub32 ri tr)).setIfInBounds i (add32 ri tr)
    im := (b.im.setIfInBounds j (sub32 ii ti)).setIfInBounds i (add32 ii ti) }

/-- A rotating factor (wr, wi). -/
structure Twiddle where
  wr : Word
  wi : Word
deriving DecidableEq, Repr

/-- The start of every stage: (1.0, +0.0) (40_fft.md R163). -/
def Twiddle.start : Twiddle := { wr := 0x3F800000, wi := 0x00000000 }

/-- The rotation by the seed of stage s, both parts from the old factor (40_fft.md R163). -/
def rotate (s : Nat) (t : Twiddle) : Twiddle :=
  { wr := sub32 (mul32 t.wr (twCos s)) (mul32 t.wi (twSin s))
    wi := add32 (mul32 t.wr (twSin s)) (mul32 t.wi (twCos s)) }

/-- How many times the loop `i <- m; while i < W: ... i <- i + size` runs. -/
def pairCount (w size m : Nat) : Nat := (w - m + size - 1) / size

/-- The butterflies of half-stage position m: i = m, m + size, ... below w (40_fft.md R162). -/
def positionPass (w size : Nat) (t : Twiddle) (m : Nat) (b : Buffers) : Buffers :=
  (List.range (pairCount w size m)).foldl
    (fun b q => butterfly t.wr t.wi (m + q * size) (m + q * size + size / 2) b) b

/-- Stage s, of size 2^(s+1): the half-stage positions in increasing order, the factor rotated after each (40_fft.md R162, R163). -/
def stagePass (w s : Nat) (b : Buffers) : Buffers :=
  ((List.range (2 ^ s)).foldl
    (fun (p : Twiddle × Buffers) m => (rotate s p.1, positionPass w (2 ^ (s + 1)) p.1 m p.2))
    (Twiddle.start, b)).2

/-- Step 3: the stages of sizes 2, 4, ... up to w (40_fft.md R162). -/
def allStages (w : Nat) (b : Buffers) : Buffers :=
  (List.range (Nat.log2 w)).foldl (fun b s => stagePass w s b) b

/-- The buffers after step 3. -/
def transformed (s : State) : Buffers := allStages (workingSize s) (scattered s)

/-- The magnitude of bin i (40_fft.md R164). -/
def magnitudeOf (b : Buffers) (i : Nat) : Word :=
  sqrt32 (add32 (mul32 (bufferAt b.re i) (bufferAt b.re i)) (mul32 (bufferAt b.im i) (bufferAt b.im i)))

/-- The word of bin i: the magnitude, times the weight when EQ_A = 1 (40_fft.md R164). -/
def spectrumWord (s : State) (b : Buffers) (i : Nat) : Word :=
  if s.status.fftEq then mul32 (magnitudeOf b i) (eqWord s i) else magnitudeOf b i

/-- Step 4: the words of SPEC[0 .. NOUT_A − 1] (40_fft.md R164). -/
def spectrumWords (s : State) (b : Buffers) : List Word :=
  (List.range (noutA s)).map (spectrumWord s b)

/-- What a transform writes: the scratch buffers and SPEC[0 .. NOUT_A − 1] (30_encoding.md R115). -/
def storeTransform (b : Buffers) (s : State) : State :=
  writeRam specBase (spectrumWords s b) (writeScratch b.re.toList b.im.toList s)

/-- The body of FFT_TRANSFORM (40_fft.md R160). -/
def fftTransform (s : State) : State × CmdCode :=
  if !s.status.fftValid then raiseCode .fftNotConfigured s
  else succeed (storeTransform (transformed s) s)

/-- FFT_TRANSFORM. -/
def execFftTransform (s : State) : Host.Outcome State Fault Refusal :=
  .next (complete (fftTransform s))

end Sys2Proof.Machine
end

