-- ==== Sys2Proof/Machine/Level.lean ====
section
/-! DEFINITION. The Level Tracker: LT_CONFIG (41_level.md R200 to R207), LT_UPDATE (R220 to R228), LT_RESTART (R240, R241). -/

namespace Sys2Proof.Machine

/-- `ceil_div(a, b)`: the least q with q·b ≥ a, for b > 0 (00_scope.md R14). -/
def ceilDiv (a b : Nat) : Nat := (a + b - 1) / b

/-- `clamp(x, lo, hi)` (00_scope.md R14). -/
def clampNat (x lo hi : Nat) : Nat := min (max x lo) hi

/-- The parameter check (41_level.md R201). -/
def ltParamsBad (sr f nb : Nat) : Bool :=
  decide (sr = 0 ∨ f = 0 ∨ nb < 2 ∨ Config.oMax < nb)

/-- The bound of the breakpoint `hz` (41_level.md R202). -/
def bandBound (sr f nb hz : Nat) : Nat := clampNat (ceilDiv (hz * f) sr) 1 (nb - 1)

/-- The four bounds of 41_level.md R202. -/
structure Bounds where
  b0 : Nat
  b1 : Nat
  b2 : Nat
  b3 : Nat
deriving DecidableEq, Repr

/-- The bounds of the breakpoints 20, 320, 2800 and 11025 Hz (41_level.md R202). -/
def bandBounds (sr f nb : Nat) : Bounds :=
  { b0 := bandBound sr f nb 20
    b1 := bandBound sr f nb 320
    b2 := bandBound sr f nb 2800
    b3 := bandBound sr f nb 11025 }

/-- The band invariant (41_level.md R203). -/
def boundsGood (nb : Nat) (b : Bounds) : Bool :=
  decide (1 ≤ b.b0 ∧ b.b0 < b.b1 ∧ b.b1 < b.b2 ∧ b.b2 < b.b3 ∧ b.b3 ≤ nb - 1)

/-- A failed LT_CONFIG clears LT_VALID and nothing else (41_level.md R206 (a)). -/
def clearLtValid (s : State) : State := { s with status := { s.status with ltValid := false } }

/-- A successful LT_CONFIG writes the band registers (41_level.md R204). -/
def writeBands (b : Bounds) (s : State) : State :=
  { s with lt := { s.lt with
      bandStart := ⟨BitVec.ofNat 13 b.b0, BitVec.ofNat 13 b.b1, BitVec.ofNat 13 b.b2⟩
      bandStop := ⟨BitVec.ofNat 13 b.b1, BitVec.ofNat 13 b.b2, BitVec.ofNat 13 b.b3⟩ } }

/-- A successful LT_CONFIG sets LT_VALID (41_level.md R205). -/
def setLtValid (s : State) : State := { s with status := { s.status with ltValid := true } }

/-- The bounds that the construction operands give. -/
def configuredBounds (s : State) : Bounds :=
  bandBounds s.lt.srate.toNat s.lt.fftSize.toNat s.lt.nbins.toNat

/-- The body of LT_CONFIG (41_level.md R200). -/
def ltConfig (s : State) : State × CmdCode :=
  if ltParamsBad s.lt.srate.toNat s.lt.fftSize.toNat s.lt.nbins.toNat then
    raiseCode .ltBadParam (clearLtValid s)
  else if !boundsGood s.lt.nbins.toNat (configuredBounds s) then
    raiseCode .ltBadBands (clearLtValid s)
  else succeed (setLtValid (levelInit (writeBands (configuredBounds s) s)))

/-- LT_CONFIG. -/
def execLtConfig (s : State) : Host.Outcome State Fault Refusal := .next (complete (ltConfig s))

/-- `EffFps(fps)` (41_level.md R221). -/
def effFps (fps : Word) : Word :=
  if !isFinite fps || lt32 fps 0x41700000 then 0x41700000
  else if gt32 fps 0x43100000 then 0x43100000
  else fps

/-- The rates of one update (41_level.md R220, R225). -/
structure Rates where
  attack : Word
  decay : Word
  slow : Word
deriving DecidableEq, Repr

/-- The slow base rate: 0.9 for the first 50 frames, else 0.992 (41_level.md R225). -/
def slowBase (frame : Word) : Word :=
  if frame.toNat < Config.warmupFrames then 0x3F666666 else 0x3F7DF3B6

/-- The rates at an effective fps and a frame count (41_level.md R222, R224, R225). -/
def ratesOf (fe frame : Word) : Rates :=
  { attack := perFrame 0x3E4CCCCD fe
    decay := perFrame 0x3F000000 fe
    slow := perFrame (slowBase frame) fe }

/-- The band sum: add32 from +0.0 in increasing j over [start, stop) (41_level.md R223). -/
def bandSum (s : State) (start stop : Nat) : Word :=
  (List.range' start (stop - start)).foldl (fun acc j => add32 acc (specWord s j)) 0x00000000

/-- One step of an EMA: avg·rate + imm·(1 − rate), one rounding an operation (41_level.md R224, R225). -/
def emaStep (avg imm rate : Word) : Word :=
  add32 (mul32 avg rate) (mul32 imm (sub32 one32 rate))

/-- The fast rate: attack when the sum is above the old AVG, else decay (41_level.md R224). -/
def fastRate (r : Rates) (imm avg : Word) : Word := if gt32 imm avg then r.attack else r.decay

/-- SILENCE_THR, binary32 of 1e-3 (00_scope.md R6). -/
def silenceThreshold : Word := 0x3A83126F

/-- An output against the new LAVG, with the silence guard (41_level.md R226). -/
def guarded (x lavg : Word) : Word := if lt32 lavg silenceThreshold then one32 else div32 x lavg

/-- One lane of the level state after an update. -/
structure Lane where
  val : Word
  att : Word
  avg : Word
  lavg : Word
  imm : Word
deriving DecidableEq, Repr

/-- One lane of an update, from its sum and its old averages (41_level.md R220, R242). -/
def updateLane (r : Rates) (imm avg lavg : Word) : Lane :=
  let avg' := emaStep avg imm (fastRate r imm avg)
  let lavg' := emaStep lavg imm r.slow
  { val := guarded imm lavg', att := guarded avg' lavg', avg := avg', lavg := lavg', imm := imm }

/-- The sum of band b (41_level.md R223). -/
def bandImm (s : State) (b : Band) : Word :=
  bandSum s (s.lt.bandStart.get b).toNat (s.lt.bandStop.get b).toNat

/-- Lane b of an update with the rates r. -/
def laneAfter (s : State) (r : Rates) (b : Band) : Lane :=
  updateLane r (bandImm s b) (s.level.avg.get b) (s.level.lavg.get b)

/-- Three lanes as the level registers. -/
def levelOfLanes (l : Lanes Lane) : LevelRegs :=
  { val := Lanes.ofBand (fun b => (l.get b).val)
    att := Lanes.ofBand (fun b => (l.get b).att)
    avg := Lanes.ofBand (fun b => (l.get b).avg)
    lavg := Lanes.ofBand (fun b => (l.get b).lavg)
    imm := Lanes.ofBand (fun b => (l.get b).imm) }

/-- The update of all three lanes, of LT_FPS_EFF and of VAL_VALID (41_level.md R220). -/
def advanceLevel (s : State) : State :=
  let fe := effFps s.lt.fps
  { s with
    level := levelOfLanes (Lanes.ofBand (laneAfter s (ratesOf fe s.lt.frame)))
    lt := { s.lt with fpsEff := fe }
    status := { s.status with valValid := true } }

/-- The body of LT_UPDATE: LT_VALID is checked before the absent flag A (41_level.md R220, R227). -/
def ltUpdate (a : Bool) (s : State) : State × CmdCode :=
  if !s.status.ltValid then raiseCode .ltNotConfigured s
  else if a then succeed s
  else succeed (advanceLevel s)

/-- LT_UPDATE. -/
def execLtUpdate (a : Bool) (s : State) : Host.Outcome State Fault Refusal :=
  .next (complete (ltUpdate a s))

/-- LT_RESTART: LevelInit, whether the tracker is configured or not (41_level.md R240). -/
def execLtRestart (s : State) : Host.Outcome State Fault Refusal :=
  .next (complete (succeed (levelInit s)))

end Sys2Proof.Machine
end

