-- ==== Sys2Proof/Machine/Dispatch.lean ====
section
/-! DEFINITION. The completion step of each decoded command (42_control.md R263, R265), one arm per constructor. -/

namespace Sys2Proof.Machine

def exec (i : Instr) (s : State) : Host.Outcome State Fault Refusal :=
  match i with
  | .nop => Sys2Proof.Machine.execNop s
  | .fftConfig e => Sys2Proof.Machine.execFftConfig e s
  | .fftTransform => Sys2Proof.Machine.execFftTransform s
  | .ltConfig => Sys2Proof.Machine.execLtConfig s
  | .ltUpdate a => Sys2Proof.Machine.execLtUpdate a s
  | .ltRestart => Sys2Proof.Machine.execLtRestart s

end Sys2Proof.Machine
end

