-- ==== Sys2Proof/Machine/HostPort.lean ====
section
/-! DEFINITION. Host transactions (42_control.md R261, R262; 20_memory.md R86 to R88; 60_exceptions.md R290) and the host's turn: one statement of its program (30_encoding.md R117), or one poll of a POLL. -/

namespace Sys2Proof.Machine

/-- The block decodes only the low 16 bits of a platform address (20_memory.md R82). -/
def windowOffset (addr : Nat) : Nat := addr % 0x10000

/-- The platform address of an offset (20_memory.md R81). -/
def busAddress (off : Word) : Nat := Config.baseAddr + off.toNat

/-- The offset a transaction reaches. It is the window offset of its bus address, whatever BASE_ADDR is (log entry 7). -/
def decodedOffset (off : Word) : Nat := windowOffset off.toNat

/-- The conditions of a bus error that reads and writes share, the width and alignment check first (20_memory.md R86 to R88). -/
def accessRefused (s : State) (width : Nat) (off : Word) : Bool :=
  width != 4 || decodedOffset off % 4 != 0
    || regionOf (decodedOffset off) == .reserved
    || (s.status.busy && !alwaysAccessible (regionOf (decodedOffset off)))

/-- `BusError()` of a read: data 0, response ERROR, BUSERR set, nothing else (60_exceptions.md R290). -/
def readBusError (s : State) : State :=
  { s with status := busErrorStatus s.status, bus := some (.readDone 0 .error) }

/-- `BusError()` of a write: response ERROR, BUSERR set, nothing else (60_exceptions.md R290). -/
def writeBusError (s : State) : State :=
  { s with status := busErrorStatus s.status, bus := some (.writeDone .error) }

/-- `MemRead` of 42_control.md R261. -/
def memRead (width : Nat) (off : Word) (s : State) : State :=
  if accessRefused s width off then readBusError s
  else { s with bus := some (.readDone (readValue s (regionOf (decodedOffset off))) .okay) }

/-- `MemWrite` of 42_control.md R262. -/
def memWrite (width : Nat) (off data : Word) (s : State) : State :=
  if accessRefused s width off then writeBusError s
  else if readOnly (regionOf (decodedOffset off)) then writeBusError s
  else { writeValue data s (regionOf (decodedOffset off)) with bus := some (.writeDone .okay) }

/-- One transaction. -/
def transact (t : Transaction) (s : State) : State :=
  match t with
  | .read width off => memRead width off s
  | .write width off data => memWrite width off data s

/-- The data of the last read response; a refused read gives 0 (20_memory.md R81). -/
def busData : Option BusResponse → Word
  | some (.readDone data _) => data
  | _ => 0

/-- `RD off`: a 4-byte read whose data goes to d (30_encoding.md R117). -/
def readToD (off : Word) (s : State) : State :=
  { memRead 4 off s with d := busData (memRead 4 off s).bus }

/-- A host transaction has passed: the pending command has one fewer to wait for (42_control.md R270). -/
def countTransaction (s : State) : State := { s with wait := s.wait - 1 }

/-- One turn of a statement, with `rest` the statements after it (30_encoding.md R117). A POLL whose condition does not hold stays at the head. DESIGN CHOICE, unsafe: that holds of a POLL whose read gets resp = ERROR too, which is tested with d = 0; R117 leaves that case open (log entry 19). -/
def runStmt (st : HostStmt) (rest : List HostStmt) (s : State) : State :=
  match st with
  | .wr off v => { memWrite 4 off v s with host := rest }
  | .rd off => { readToD off s with host := rest }
  | .poll off mask val =>
    if (readToD off s).d &&& mask = val then { readToD off s with host := rest } else readToD off s
  | .expect off _ => { readToD off s with host := rest }
  | .bus t => { transact t s with host := rest }
  | .rst => { resetBlock s with host := rest }

/-- The transactions still to wait for after the host's turn: one fewer, but where the turn itself accepted a command, all that were drawn for it. -/
def countTurn (before after : State) : State :=
  if before.pending.isSome then countTransaction after else after

/-- The host's turn: its next statement, or nothing when it has none left (60_exceptions.md R308). -/
def hostTurn (s : State) : State :=
  match s.host with
  | [] => s
  | st :: rest => countTurn s (runStmt st rest s)

/-- The pseudo-instructions of 30_encoding.md R118, as the statements they expand to. -/
def cmdRaw (w : Word) : List HostStmt := [.wr 0x0014 w]
def cmdOf (i : Instr) : List HostStmt := cmdRaw (encode i)
def waitIdle : List HostStmt := [.poll 0x0018 0x00000001 0x00000000]
def runCmd (i : Instr) : List HostStmt := cmdOf i ++ waitIdle
/-- `WRF off, x` for the decimal literal x of this sign and magnitude num/den: the word of f32(x), which for a zero of either sign is RN32(0) = +0 (00_scope.md R13). -/
def wrf (off : Word) (sign : Bool) (num den : Nat) : List HostStmt :=
  [.wr off (round32 (sign && num != 0) (num * 2 ^ 149) den)]
def clrst : List HostStmt := [.wr 0x0018 0x0000000E]
def srst : List HostStmt := [.wr 0x0010 0x00000001]
def wrBlk (off : Word) : List Word → List HostStmt
  | [] => []
  | v :: vs => .wr off v :: wrBlk (off + 4) vs

end Sys2Proof.Machine
end

