-- ==== Sys2Proof/Machine/Engine.lean ====
section
/-! DEFINITION. The engine's turn (42_control.md R263): decode the pending word and execute it; and which agent moves next (42_control.md R260, R270). -/

namespace Sys2Proof.Machine

/-- `Complete()` for the word w (42_control.md R263): an Illegal word completes with CODE 0x01. -/
def completePending (w : Word) (s : State) : Host.Outcome State Fault Refusal :=
  match decode w with
  | .ok i => exec i s
  | .error _ => .next (illegalCommand s)

/-- The pending command completes now: no host transaction is left to wait for, or the host has none to make (42_control.md R270, log entry 3). -/
def engineReady (s : State) : Bool := s.wait == 0 || s.host.isEmpty

/-- One step of the block and its host: a completion or a host turn (42_control.md R260). -/
def blockStep (s : State) : Host.Outcome State Fault Refusal :=
  match s.pending with
  | some w => if engineReady s then completePending w s else .next (hostTurn s)
  | none => .next (hostTurn s)

/-- The state in which the word w has just been accepted and completes in the very next step (42_control.md R262). -/
def placeCommand (w : Word) (s : State) : State :=
  { s with cmd := w, pending := some w, status := acceptedStatus s.status, wait := 0 }

end Sys2Proof.Machine
end

