-- ==== Sys2Proof/Machine/Step.lean ====
section
/-! DEFINITION. The step of the machine, and how the host places a command for it. -/

namespace Sys2Proof.Machine

/-- One step: the completion of the pending command, or one turn of the host (42_control.md R260). -/
def step (s : State) : Host.Outcome State Fault Refusal := blockStep s

/-- `s` with the command word of spec/opcode_table.json's bits accepted, so that the next step completes it. BCFT fetches nothing (10_state.md R30): a command arrives by the host's write to CMD, and this stands for that write (log entry 5). -/
def State.withFetchWord (s : State) (nbits w : Nat) : State :=
  placeCommand (wordOfTableBits nbits w) s

end Sys2Proof.Machine
end

