-- ==== Sys2Proof/Safety.lean ====
section
/-! DEFINITION. What the claims call a well-kept state and a safe command: the invariants that the rules promise of every state, and which commands read only words that were written (70_reset_and_hazards.md R325 step 5, 93_implementation_defined.md I2). -/

namespace Sys2Proof.Safety

open Sys2Proof.Machine

/-- BUSY is 1 exactly while a command is pending (10_state.md R51), CMD then holds its word (R33), and nothing is waited for when none is. -/
def BusyIffPending (s : State) : Prop :=
  s.status.busy = s.pending.isSome ∧ (∀ w, s.pending = some w → s.cmd = w) ∧
    (s.pending = none → s.wait = 0)

/-- Every address listed in the RAM lies in one of the four RAM regions (20_memory.md R83). -/
def ramInWindow (m : Memory) : Bool := m.all (fun c => decide (0x4000 ≤ c.1 ∧ c.1 < 0x10000))

/-- Both memories are in their canonical form, and the RAM lists only RAM offsets. -/
def MemoryKept (s : State) : Prop :=
  memoryWf s.ram = true ∧ memoryWf s.scratch = true ∧ ramInWindow s.ram = true

/-- While FFT_VALID = 1 the active sizes are legal (40_fft.md R140, R151) and every word of BITREV RAM is that of the working size (R144). -/
def FftConfigKept (s : State) : Prop :=
  s.status.fftValid = true →
    fftSizeLegal (noutA s) = true ∧ ninA s ≤ workingSize s ∧
      ∀ i, i < Config.wMax →
        ramEntry s bitrevBase i =
          BitVec.ofNat 32 (if i < workingSize s then bitrev (Nat.log2 (workingSize s)) i else 0)

/-- While LT_VALID = 1 the bands are adjacent, non-empty and within bins 1 to OMAX − 1 (41_level.md R203, 20_memory.md R96). -/
def BandsKept (s : State) : Prop :=
  s.status.ltValid = true →
    1 ≤ s.lt.bandStart.bass.toNat ∧
    s.lt.bandStart.bass.toNat < s.lt.bandStop.bass.toNat ∧
    s.lt.bandStop.bass = s.lt.bandStart.mid ∧
    s.lt.bandStart.mid.toNat < s.lt.bandStop.mid.toNat ∧
    s.lt.bandStop.mid = s.lt.bandStart.treble ∧
    s.lt.bandStart.treble.toNat < s.lt.bandStop.treble.toNat ∧
    s.lt.bandStop.treble.toNat ≤ Config.oMax - 1

/-- The reserved offsets, as 20_memory.md R83 lists them, for an aligned offset of the window. -/
def reservedOffset (o : Nat) : Prop :=
  o = 0x000C ∨ (0x0030 ≤ o ∧ o ≤ 0x003C) ∨ (0x0058 ≤ o ∧ o ≤ 0x005C) ∨
  (0x0078 ≤ o ∧ o ≤ 0x007C) ∨ o = 0x008C ∨ o = 0x009C ∨ o = 0x00AC ∨ o = 0x00BC ∨
  (0x00CC ≤ o ∧ o ≤ 0x00FC) ∨ (0x0130 ≤ o ∧ o ≤ 0x013C) ∨ (0x0170 ≤ o ∧ o < 0x4000)

/-- The always-accessible offsets: ID, VERSION, PARAMS, CTRL, STATUS, IRQ_EN (20_memory.md R88). -/
def alwaysOffset (o : Nat) : Prop :=
  o = 0x0000 ∨ o = 0x0004 ∨ o = 0x0008 ∨ o = 0x0010 ∨ o = 0x0018 ∨ o = 0x001C

/-- The offsets of the words the host may write (10_state.md R54, 20_memory.md R83): CTRL, CMD, STATUS, IRQ_EN, FFT_NIN, FFT_NOUT, EQ_K, LT_SRATE to LT_FRAME, TIME RAM and SPEC RAM. -/
def writableOffset (o : Nat) : Prop :=
  (0x0010 ≤ o ∧ o ≤ 0x0028) ∨ (0x0040 ≤ o ∧ o ≤ 0x0050) ∨ (0x4000 ≤ o ∧ o < 0xA000)

/-- Causes (a), (b) and (c) of 60_exceptions.md R290, which reads and writes share. -/
def accessError (s : State) (width o : Nat) : Prop :=
  width ≠ 4 ∨ o % 4 ≠ 0 ∨ reservedOffset o ∨ (s.status.busy = true ∧ ¬ alwaysOffset o)

/-- The four causes of a bus error (60_exceptions.md R290); the block decodes the low 16 bits of the offset (20_memory.md R82). -/
def causesBusError (s : State) : Transaction → Prop
  | .read width off => accessError s width (off.toNat % 0x10000)
  | .write width off _ =>
    accessError s width (off.toNat % 0x10000) ∨ ¬ writableOffset (off.toNat % 0x10000)

/-- The response of a bus error: data 0 for a read (60_exceptions.md R290). -/
def errorResponse : Transaction → BusResponse
  | .read _ _ => .readDone 0 .error
  | .write _ _ _ => .writeDone .error

/-- A response OKAY. -/
def isOkay : Option BusResponse → Bool
  | some (.readDone _ .okay) => true
  | some (.writeDone .okay) => true
  | _ => false

/-- The transaction is a legal write to CTRL with bit 0 = 1: a soft reset (70_reset_and_hazards.md R321). -/
def softReset : Transaction → Bool
  | .write width off data => width == 4 && off.toNat % 0x10000 == 0x0010 && data.getLsbD 0
  | .read _ _ => false

/-- The statement resets the block: rst, or a soft reset (70_reset_and_hazards.md R320, R321). -/
def resetsBlock : HostStmt → Bool
  | .rst => true
  | .wr off data => softReset (.write 4 off data)
  | .bus t => softReset t
  | .rd _ => false
  | .poll _ _ _ => false
  | .expect _ _ => false

/-- The bits that a register or RAM word keeps of a written word, by offset, for the words that store what is written (10_state.md R35 to R40, R46, R47). -/
def storedBits (o : Nat) : Option Word :=
  if o = 0x001C then some 0x00000007
  else if o = 0x0020 ∨ o = 0x0024 ∨ o = 0x0048 then some 0x00001FFF
  else if o = 0x0028 ∨ o = 0x0040 ∨ o = 0x0044 ∨ o = 0x004C ∨ o = 0x0050 then some 0xFFFFFFFF
  else if 0x4000 ≤ o ∧ o < 0xA000 then some 0xFFFFFFFF
  else none

/-- The exact value of a finite word: its units of 2^-149 (00_scope.md R9). -/
def value (a : Word) : ℚ := (units a : ℚ) / 2 ^ 149

/-- The least magnitude that rounds to infinity: halfway between the largest finite value and 2^128. -/
def overflowBound : ℚ := (2 ^ 25 - 1) * 2 ^ 103

/-- `w` is RN32(x) up to the sign of a zero: no finite word is nearer to x, and of two equally near the even one is taken; at or beyond the overflow bound it is the infinity of x's sign (00_scope.md R10, R13). -/
def RoundsTo (x : ℝ) (w : Word) : Prop :=
  if isInf w = true then ((overflowBound : ℚ) : ℝ) ≤ |x| ∧ (signBit w = true ↔ x < 0)
  else
    isFinite w = true ∧ |x| < ((overflowBound : ℚ) : ℝ) ∧
      ∀ c, isFinite c = true →
        |x - (value w : ℝ)| ≤ |x - (value c : ℝ)| ∧
        (|x - (value c : ℝ)| = |x - (value w : ℝ)| → value c ≠ value w → w.toNat % 2 = 0)

/-- The four bytes of a word were all written. -/
def wordWritten (m : Memory) (a : Nat) : Bool :=
  (List.range 4).all (fun k => (recordedByte m (a + k)).isSome)

/-- Every word of entries lo .. hi − 1 of the RAM at a base was written. -/
def entriesWritten (s : State) (base lo hi : Nat) : Bool :=
  (List.range' lo (hi - lo)).all (fun i => wordWritten s.ram (base + 4 * i))

/-- The command reads no RAM word that nothing has written (70_reset_and_hazards.md R325, R351). A claim about a program's results takes this as a premise, as 93_implementation_defined.md I2 asks. -/
def readsWritten (s : State) : Instr → Bool
  | .nop => true
  | .fftConfig _ => true
  | .fftTransform =>
    !s.status.fftValid ||
      (entriesWritten s bitrevBase 0 (workingSize s) && entriesWritten s timeBase 0 (ninA s) &&
        (!s.status.fftEq || entriesWritten s eqBase 0 (noutA s)))
  | .ltConfig => true
  | .ltUpdate a =>
    !s.status.ltValid || a ||
      entriesWritten s specBase s.lt.bandStart.bass.toNat s.lt.bandStop.treble.toNat
  | .ltRestart => true

/-- What an EXPECT statement at the head of the host's program claims: the word its read gives (30_encoding.md R117). -/
def expectHolds (s : State) : Prop :=
  match s.host with
  | .expect off v :: _ => (readToD off s).d = v
  | _ => True

end Sys2Proof.Safety
end

