-- ==== Sys2Proof/Certificates/Slice0/Obligations.lean ====
section
/-! DEFINITION. The statements for the provers. Each follows the rules of spec/ that its docstring names; a frame is stated by giving the whole next state, or, where a command writes RAM, by giving every register and every byte outside the written words. -/

open Sys2Proof Sys2Proof.Machine Sys2Proof.Safety

/-! ## Decoding and the step -/

/-- R113: decode is total, and exactly these eight words decode, each to its command; every other word is Illegal. -/
def Obligations.DecodeExactlyEightWords : Prop :=
  ∀ (w : Word) (i : Instr), decode w = .ok i ↔
    (w, i) ∈ [((0x00000000 : Word), Instr.nop), (0x00000001, .fftConfig false),
      (0x00000101, .fftConfig true), (0x00000002, .fftTransform), (0x00000010, .ltConfig),
      (0x00000011, .ltUpdate false), (0x00000111, .ltUpdate true), (0x00000012, .ltRestart)]

/-- R85, R110, R113, R116: the bytes that decode to a command with a rest are exactly the command's four bytes, lane 0 first, before that rest. -/
def Obligations.DecodeBytesInvertsEncode : Prop :=
  ∀ (bs rest : List Byte) (i : Instr),
    decodeBytes bs = .ok (i, rest) ↔ bs = bytesOfWord (encode i) ++ rest

/-- X3 and R118: words written out from the encoding of R110 and R111 decode to their commands, and words of X3 are refused. -/
def Obligations.WrittenWordsDecode : Prop :=
  decodeTableWord 32 0b00000000000000000000000100000001 = some (.fftConfig true) ∧
  decodeTableWord 32 0b00000000000000000000000000000010 = some .fftTransform ∧
  decodeTableWord 32 0b00000000000000000000000000010000 = some .ltConfig ∧
  decodeTableWord 32 0b00000000000000000000000100010001 = some (.ltUpdate true) ∧
  decodeTableWord 32 0b00000000000000000000000000010010 = some .ltRestart ∧
  decodeTableWord 32 0x00000100 = none ∧ decodeTableWord 32 0x00000201 = none ∧
  decodeTableWord 32 0x00000013 = none

/-- R260, R263, R265, R117 (with log entry 3 for when the completion comes and for the wait it is counted by, log entry 4 for the host's statements, log entry 19 for a POLL whose read gets resp = ERROR and log entry 16 for the idle block): where the pending word decodes to i and no host transaction comes before its completion, the step is exec of i, and nothing else happens in it. Else the step runs the statement at the head of the host's program: WR and a raw transaction are that transaction, RD and EXPECT a 4-byte read whose data goes to d, POLL such a read that leaves the program only when its condition holds, and rst a reset; a pending command then has one transaction fewer to wait for. With nothing pending and no statement left nothing changes. -/
def Obligations.StepRunsDecodedCommand : Prop :=
  (∀ (s : State) (w : Word) (i : Instr),
    s.pending = some w → (s.wait = 0 ∨ s.host = []) → decode w = .ok i → step s = exec i s) ∧
  (∀ (s : State) (st : HostStmt) (rest : List HostStmt),
    s.host = st :: rest → (s.pending = none ∨ s.wait ≠ 0) →
    ∃ t, step s = .next { t with wait := if s.pending = none then t.wait else t.wait - 1 } ∧
      (∀ off v, st = .wr off v → t = { transact (.write 4 off v) s with host := rest }) ∧
      (∀ tr, st = .bus tr → t = { transact tr s with host := rest }) ∧
      (∀ off, st = .rd off → ∃ w r, (transact (.read 4 off) s).bus = some (.readDone w r) ∧
        t = { transact (.read 4 off) s with host := rest, d := w }) ∧
      (∀ off v, st = .expect off v → ∃ w r, (transact (.read 4 off) s).bus = some (.readDone w r) ∧
        t = { transact (.read 4 off) s with host := rest, d := w }) ∧
      (∀ off mask val, st = .poll off mask val →
        ∃ w r, (transact (.read 4 off) s).bus = some (.readDone w r) ∧
          t = { transact (.read 4 off) s with
            host := if w &&& mask = val then rest else st :: rest, d := w }) ∧
      (st = .rst → t = { resetBlock s with host := rest })) ∧
  (∀ s : State, s.pending = none → s.host = [] → step s = .next s)

/-- R114, R263: an Illegal word is accepted like any other, and its step completes with CODE 0x01 and changes nothing but STATUS and the pending word. -/
def Obligations.IllegalWordEndsWithCode01 : Prop :=
  ∀ (s : State) (w : Word) (e : DecodeError),
    s.pending = some w → (s.wait = 0 ∨ s.host = []) → decode w = .error e →
    step s = .next { s with
      pending := none, wait := 0
      status := { s.status with busy := false, done := true, err := true, code := .illegalCmd } }

/-! ## NOP and what every completion does -/

/-- R264: NOP changes nothing but its completion, whatever is configured; its word is 0; after reset it leaves STATUS 0x00000002. -/
def Obligations.NopOnlyCompletes : Prop :=
  decode 0x00000000 = .ok .nop ∧
  (∀ s : State, exec .nop s = .next { s with
    pending := none, wait := 0
    status := { s.status with busy := false, done := true, code := .ok } }) ∧
  (∀ t, exec .nop State.reset = .next t → statusWord t.status = 0x00000002)

/-- R263: every command's step completes: pending empty, BUSY 0, DONE 1, and ERR 1 when it was 1 or when CODE is not 0; BUSERR is untouched. -/
def Obligations.CompletionSetsFlags : Prop :=
  ∀ (i : Instr) (s : State), ∃ t, exec i s = .next t ∧
    t.pending = none ∧ t.wait = 0 ∧ t.status.busy = false ∧ t.status.done = true ∧
    t.status.err = (s.status.err || t.status.code != .ok) ∧ t.status.busErr = s.status.busErr

/-- R54, R55, R40, R46: no command changes CMD, IRQ_EN, an operand register, or a byte of TIME RAM; nor the host's own fields. -/
def Obligations.CommandsKeepOperandsAndTime : Prop :=
  ∀ (i : Instr) (s t : State), exec i s = .next t →
    t.cmd = s.cmd ∧ t.irqEn = s.irqEn ∧
    t.fft.nin = s.fft.nin ∧ t.fft.nout = s.fft.nout ∧ t.fft.eqK = s.fft.eqK ∧
    t.lt.srate = s.lt.srate ∧ t.lt.fftSize = s.lt.fftSize ∧ t.lt.nbins = s.lt.nbins ∧
    t.lt.fps = s.lt.fps ∧ t.lt.frame = s.lt.frame ∧
    (∀ a, a < 0x8000 → readByte t.ram a = readByte s.ram a) ∧
    t.host = s.host ∧ t.d = s.d ∧ t.bus = s.bus ∧ t.draws = s.draws

/-- R283: a command that completes with a code other than 0 changes exactly STATUS and the pending word, and clears FFT_VALID for FFT_CONFIG, LT_VALID for LT_CONFIG; an Illegal word likewise. -/
def Obligations.FailedCommandChangesOnlyStatus : Prop :=
  ∀ (s t : State) (w : Word),
    s.pending = some w → (s.wait = 0 ∨ s.host = []) → step s = .next t → t.status.code ≠ .ok →
    t = { s with
      pending := none, wait := 0
      status := { s.status with
        busy := false, done := true, err := true, code := t.status.code
        fftValid := match decode w with
          | .ok (.fftConfig _) => false
          | _ => s.status.fftValid
        ltValid := match decode w with
          | .ok .ltConfig => false
          | _ => s.status.ltValid } }

/-! ## The FFT engine -/

/-- R14, R142, E4: for i below 2^L, bit L−1−t of bitrev_L(i) is bit t of i; the reversal stays below 2^L and is an involution there. -/
def Obligations.BitrevReversesBits : Prop :=
  ∀ l i : Nat, i < 2 ^ l →
    bitrev l i < 2 ^ l ∧ bitrev l (bitrev l i) = i ∧
    ∀ t, t < l → (bitrev l i).testBit (l - 1 - t) = i.testBit t

/-- R150, R151, R153 (d): FFT_CONFIG with NOUT no power of two from 1 to 2048 ends with CODE 0x02; it clears FFT_VALID and changes nothing else. -/
def Obligations.FftConfigRefusesBadSize : Prop :=
  ∀ (s : State) (e : Bool), (¬ ∃ j ≤ 11, s.fft.nout.toNat = 2 ^ j) →
    exec (.fftConfig e) s = .next { s with
      pending := none, wait := 0
      status := { s.status with
        busy := false, done := true, err := true, code := .fftBadSize, fftValid := false } }

/-- R150, R151, R153 (d): FFT_CONFIG with a legal NOUT and NIN above 2·NOUT ends with CODE 0x03; it clears FFT_VALID and changes nothing else. -/
def Obligations.FftConfigRefusesBadInput : Prop :=
  ∀ (s : State) (e : Bool) (j : Nat), j ≤ 11 → s.fft.nout.toNat = 2 ^ j →
    2 * 2 ^ j < s.fft.nin.toNat →
    exec (.fftConfig e) s = .next { s with
      pending := none, wait := 0
      status := { s.status with
        busy := false, done := true, err := true, code := .fftBadInput, fftValid := false } }

/-- R150, R152, R144 to R146, R153 (c): FFT_CONFIG with legal operands completes with CODE 0, latches them, fills BITREV RAM and, with E = 1, EQ RAM, sets FFT_VALID and FFT_EQ, and leaves every other register and every other byte. -/
def Obligations.FftConfigSucceeds : Prop :=
  ∀ (s : State) (e : Bool) (j : Nat), j ≤ 11 → s.fft.nout.toNat = 2 ^ j →
    s.fft.nin.toNat ≤ 2 * 2 ^ j →
    ∃ t, exec (.fftConfig e) s = .next t ∧
      t = { s with
        pending := none, wait := 0, ram := t.ram
        fft := { s.fft with ninA := s.fft.nin, noutA := s.fft.nout }
        status := { s.status with
          busy := false, done := true, code := .ok, fftValid := true, fftEq := e } } ∧
      (∀ i, i < 4096 → ramEntry t bitrevBase i =
        BitVec.ofNat 32 (if i < 2 ^ (j + 1) then bitrev (j + 1) i else 0)) ∧
      (e = true → ∀ i, i < 2048 → ramEntry t eqBase i =
        if i < 2 ^ j then eqWeight s.fft.eqK (2 ^ j) i else 0x00000000) ∧
      (∀ a, ¬ (0xC000 ≤ a ∧ a < 0x10000) → ¬ (e = true ∧ 0xA000 ≤ a ∧ a < 0xC000) →
        readByte t.ram a = readByte s.ram a)

/-- R140, R141, R144, R151: the active configuration stays legal and BITREV RAM stays its bit reversal, over every step. -/
def Obligations.StepKeepsFftConfig : Prop :=
  ∀ s t : State, FftConfigKept s → step s = .next t → FftConfigKept t

/-- R141: where FFT_VALID = 1, entries 0 to W_A − 1 of BITREV RAM are a permutation of [0, W_A). -/
def Obligations.BitrevTableIsPermutation : Prop :=
  ∀ s : State, FftConfigKept s → s.status.fftValid = true →
    ((List.range (workingSize s)).map (bitrevEntry s)).Perm (List.range (workingSize s))

/-- R160, R324: FFT_TRANSFORM with FFT_VALID = 0 ends with CODE 0x04 and writes nothing. -/
def Obligations.TransformRefusedUnconfigured : Prop :=
  ∀ s : State, s.status.fftValid = false →
    exec .fftTransform s = .next { s with
      pending := none, wait := 0
      status := { s.status with busy := false, done := true, err := true, code := .fftNotConfigured } }

/-- R160, R164: a configured FFT_TRANSFORM completes with CODE 0: SPEC[i] for i < NOUT_A is the magnitude of bin i of the transformed buffers, times EQ[i] when EQ_A = 1; every register and every byte outside those words stays. -/
def Obligations.TransformWritesSpectrum : Prop :=
  ∀ s : State, s.status.fftValid = true →
    ∃ t, exec .fftTransform s = .next t ∧
      t = { s with
        pending := none, wait := 0, ram := t.ram, scratch := t.scratch
        status := { s.status with busy := false, done := true, code := .ok } } ∧
      (∀ i, i < noutA s → specWord t i =
        (let b := transformed s
         let mag := sqrt32 (add32 (mul32 (bufferAt b.re i) (bufferAt b.re i))
           (mul32 (bufferAt b.im i) (bufferAt b.im i)))
         if s.status.fftEq = true then mul32 mag (eqWord s i) else mag)) ∧
      (∀ a, ¬ (0x8000 ≤ a ∧ a < 0x8000 + 4 * noutA s) → readByte t.ram a = readByte s.ram a)

/-- R160, R161: before the butterflies, both buffers have W_A entries, IM is +0.0, and RE[i] is TIME[BITREV[i]] bit for bit when BITREV[i] < NIN_A, else +0.0. -/
def Obligations.ScatterPlacesSamples : Prop :=
  ∀ (s : State) (i : Nat), i < workingSize s →
    (scattered s).re.size = workingSize s ∧ (scattered s).im.size = workingSize s ∧
    bufferAt (scattered s).im i = 0x00000000 ∧
    bufferAt (scattered s).re i =
      if bitrevEntry s i < ninA s then timeWord s (bitrevEntry s i) else 0x00000000

/-- R162: in buffers of W = 2^L entries, the pass of half-stage position m of stage n combines exactly the pairs (k, k + 2^n) with k mod 2^(n+1) = m, each by the butterfly of R160 on the old entries, leaves every other entry, and keeps the buffers' sizes. -/
def Obligations.PositionPassCombinesPairs : Prop :=
  ∀ (l n m : Nat) (f : Twiddle) (b : Buffers), n < l → m < 2 ^ n →
    b.re.size = 2 ^ l → b.im.size = 2 ^ l →
    ∀ k, k < 2 ^ l →
      (let h := 2 ^ n
       let c := positionPass (2 ^ l) (2 ^ (n + 1)) f m b
       let tr := fun j => sub32 (mul32 f.wr (bufferAt b.re j)) (mul32 f.wi (bufferAt b.im j))
       let ti := fun j => add32 (mul32 f.wr (bufferAt b.im j)) (mul32 f.wi (bufferAt b.re j))
       c.re.size = 2 ^ l ∧ c.im.size = 2 ^ l ∧
       (k % 2 ^ (n + 1) = m →
         bufferAt c.re k = add32 (bufferAt b.re k) (tr (k + h)) ∧
         bufferAt c.im k = add32 (bufferAt b.im k) (ti (k + h))) ∧
       (k % 2 ^ (n + 1) = m + h →
         bufferAt c.re k = sub32 (bufferAt b.re (k - h)) (tr k) ∧
         bufferAt c.im k = sub32 (bufferAt b.im (k - h)) (ti k)) ∧
       (k % 2 ^ (n + 1) ≠ m → k % 2 ^ (n + 1) ≠ m + h →
         bufferAt c.re k = bufferAt b.re k ∧ bufferAt c.im k = bufferAt b.im k))

/-- R160, R162, R163: for NOUT_A = 2^j the transformed buffers come from the scattered ones by the stages 0, 1, ..., j, of sizes 2, 4, ..., W_A; stage n starts with the factor (1.0, +0.0), runs its half-stage positions m = 0 .. 2^n − 1 in increasing order on the buffers of the position before, and rotates the factor after each by the seed of twiddle ROM entry n, both parts from the old factor. -/
def Obligations.TransformRunsStages : Prop :=
  ∀ (s : State) (j : Nat), noutA s = 2 ^ j →
    ∃ stage : Nat → Buffers, stage 0 = scattered s ∧ stage (j + 1) = transformed s ∧
      ∀ n, n ≤ j →
        ∃ (buf : Nat → Buffers) (factor : Nat → Twiddle),
          buf 0 = stage n ∧ buf (2 ^ n) = stage (n + 1) ∧ factor 0 = ⟨0x3F800000, 0x00000000⟩ ∧
          ∀ m, m < 2 ^ n →
            buf (m + 1) = positionPass (2 ^ (j + 1)) (2 ^ (n + 1)) (factor m) m (buf m) ∧
            factor (m + 1) =
              ⟨sub32 (mul32 (factor m).wr (twCos n)) (mul32 (factor m).wi (twSin n)),
                add32 (mul32 (factor m).wr (twSin n)) (mul32 (factor m).wi (twCos n))⟩

/-- R165: the SPEC words of a transform depend only on NIN_A, NOUT_A, EQ_A, EQ RAM, BITREV RAM and TIME[0 .. NIN_A − 1]. -/
def Obligations.TransformIsDeterministic : Prop :=
  ∀ s1 s2 t1 t2 : State,
    s1.status.fftValid = true → s2.status.fftValid = true →
    ninA s1 = ninA s2 → noutA s1 = noutA s2 → s1.status.fftEq = s2.status.fftEq →
    (∀ i, i < workingSize s1 → ramEntry s1 bitrevBase i = ramEntry s2 bitrevBase i) →
    (∀ i, i < noutA s1 → eqWord s1 i = eqWord s2 i) →
    (∀ i, i < ninA s1 → timeWord s1 i = timeWord s2 i) →
    exec .fftTransform s1 = .next t1 → exec .fftTransform s2 = .next t2 →
    ∀ i, i < noutA s1 → specWord t1 i = specWord t2 i

/-- R166 (a), E1: a configured transform of samples that are all +0.0, or of no sample, with EQ_A = 0 gives +0.0 in every bin. -/
def Obligations.ZeroInputGivesZeroSpectrum : Prop :=
  ∀ s t : State, FftConfigKept s → s.status.fftValid = true → s.status.fftEq = false →
    (∀ n, n < ninA s → timeWord s n = 0x00000000) →
    exec .fftTransform s = .next t → ∀ i, i < noutA s → specWord t i = 0x00000000

/-- R145, R146, R13 (method: log entry 9): for N = 2^j and i < N the weight is +0 for i = 0, the canonical NaN for a NaN k, k for an infinite k and +0 for a zero k; for every other k it is RN32 of the exact −k·ln((N − i)/N), never negative for a positive k. The same holds of the lower end of the enclosure of any precision whose ends round to one word. -/
def Obligations.WeightIsCorrectlyRounded : Prop :=
  (∀ (j i : Nat) (k : Word), j ≤ 11 → i < 2 ^ j →
    (i = 0 → eqWeight k (2 ^ j) i = 0x00000000) ∧
    (0 < i → isNaN k = true → eqWeight k (2 ^ j) i = 0x7FC00000) ∧
    (0 < i → isInf k = true → eqWeight k (2 ^ j) i = k) ∧
    (0 < i → isFinite k = true → value k = 0 → eqWeight k (2 ^ j) i = 0x00000000) ∧
    (0 < i → isFinite k = true → value k ≠ 0 →
      RoundsTo (-(value k : ℝ) * Real.log (((2 ^ j - i : ℕ) : ℝ) / 2 ^ j)) (eqWeight k (2 ^ j) i) ∧
      (signBit k = false → signBit (eqWeight k (2 ^ j) i) = false))) ∧
  (∀ (p j i : Nat) (k : Word), j ≤ 11 → 0 < i → i < 2 ^ j →
    isFinite k = true → magnitude k ≠ 0 →
    round32 (signBit k) (magnitude k * (negLnEnclosure p (2 ^ j - i) j).lo) (2 ^ p) =
      round32 (signBit k) (magnitude k * (negLnEnclosure p (2 ^ j - i) j).hi) (2 ^ p) →
    RoundsTo (-(value k : ℝ) * Real.log (((2 ^ j - i : ℕ) : ℝ) / 2 ^ j))
      (round32 (signBit k) (magnitude k * (negLnEnclosure p (2 ^ j - i) j).lo) (2 ^ p)))

/-! ## The Level Tracker -/

/-- R14: ceil_div(a, b) is the least q with q·b ≥ a. -/
def Obligations.CeilDivIsLeast : Prop :=
  ∀ a b : Nat, 0 < b → a ≤ ceilDiv a b * b ∧ ∀ q, a ≤ q * b → ceilDiv a b ≤ q

/-- R200, R201, R203, R206 (a), R284: LT_CONFIG with a zero rate, a zero size, or a bin count below 2 or above 2048 ends with CODE 0x05, whatever its bounds; one whose parameters pass and whose bounds break the band invariant ends with CODE 0x06. Either clears LT_VALID and changes nothing else. -/
def Obligations.LtConfigRefusesBadOperands : Prop :=
  ∀ s : State,
    (let bad := s.lt.srate = 0 ∨ s.lt.fftSize = 0 ∨ s.lt.nbins.toNat < 2 ∨ 2048 < s.lt.nbins.toNat
     let bnd := fun hz => clampNat (ceilDiv (hz * s.lt.fftSize.toNat) s.lt.srate.toNat) 1 (s.lt.nbins.toNat - 1)
     (bad → exec .ltConfig s = .next { s with
       pending := none, wait := 0
       status := { s.status with
         busy := false, done := true, err := true, code := .ltBadParam, ltValid := false } }) ∧
     (¬ bad →
       ¬ (1 ≤ bnd 20 ∧ bnd 20 < bnd 320 ∧ bnd 320 < bnd 2800 ∧ bnd 2800 < bnd 11025 ∧
         bnd 11025 ≤ s.lt.nbins.toNat - 1) →
       exec .ltConfig s = .next { s with
         pending := none, wait := 0
         status := { s.status with
           busy := false, done := true, err := true, code := .ltBadBands, ltValid := false } }))

/-- R200, R202, R204, R205, R241: LT_CONFIG whose bounds keep the band invariant completes with CODE 0: it writes the six band registers, gives the level state its initial values, sets LT_VALID, clears VAL_VALID and changes nothing else. -/
def Obligations.LtConfigSucceeds : Prop :=
  ∀ s : State, s.lt.srate ≠ 0 → s.lt.fftSize ≠ 0 → 2 ≤ s.lt.nbins.toNat → s.lt.nbins.toNat ≤ 2048 →
    (let bnd := fun hz => clampNat (ceilDiv (hz * s.lt.fftSize.toNat) s.lt.srate.toNat) 1 (s.lt.nbins.toNat - 1)
     1 ≤ bnd 20 → bnd 20 < bnd 320 → bnd 320 < bnd 2800 → bnd 2800 < bnd 11025 →
     bnd 11025 ≤ s.lt.nbins.toNat - 1 →
     exec .ltConfig s = .next { s with
       pending := none, wait := 0
       lt := { s.lt with
         bandStart := ⟨BitVec.ofNat 13 (bnd 20), BitVec.ofNat 13 (bnd 320), BitVec.ofNat 13 (bnd 2800)⟩
         bandStop := ⟨BitVec.ofNat 13 (bnd 320), BitVec.ofNat 13 (bnd 2800), BitVec.ofNat 13 (bnd 11025)⟩ }
       level :=
         { val := ⟨0x00000000, 0x00000000, 0x00000000⟩
           att := ⟨0x3F800000, 0x3F800000, 0x3F800000⟩
           avg := ⟨0x3F800000, 0x3F800000, 0x3F800000⟩
           lavg := ⟨0x3F800000, 0x3F800000, 0x3F800000⟩
           imm := ⟨0x00000000, 0x00000000, 0x00000000⟩ }
       status := { s.status with
         busy := false, done := true, code := .ok, ltValid := true, valValid := false } })

/-- R204: a successful LT_CONFIG writes the bounds into the band registers, as numbers; a failed one writes none of them. -/
def Obligations.BandRegistersHoldBounds : Prop :=
  ∀ s t : State, exec .ltConfig s = .next t →
    (let bnd := fun hz => clampNat (ceilDiv (hz * s.lt.fftSize.toNat) s.lt.srate.toNat) 1 (s.lt.nbins.toNat - 1)
     (t.status.code = .ok →
       t.lt.bandStart.bass.toNat = bnd 20 ∧ t.lt.bandStop.bass.toNat = bnd 320 ∧
       t.lt.bandStart.mid.toNat = bnd 320 ∧ t.lt.bandStop.mid.toNat = bnd 2800 ∧
       t.lt.bandStart.treble.toNat = bnd 2800 ∧ t.lt.bandStop.treble.toNat = bnd 11025) ∧
     (t.status.code ≠ .ok → t.lt.bandStart = s.lt.bandStart ∧ t.lt.bandStop = s.lt.bandStop))

/-- R203, R96: while LT_VALID = 1 the bands stay adjacent, non-empty and within the bins of SPEC RAM, over every step. -/
def Obligations.StepKeepsBands : Prop :=
  ∀ s t : State, BandsKept s → step s = .next t → BandsKept t

/-- R220, R284: LT_UPDATE with LT_VALID = 0 ends with CODE 0x07, whatever A is, and changes nothing else. -/
def Obligations.UpdateRefusedUnconfigured : Prop :=
  ∀ (s : State) (a : Bool), s.status.ltValid = false →
    exec (.ltUpdate a) s = .next { s with
      pending := none, wait := 0
      status := { s.status with busy := false, done := true, err := true, code := .ltNotConfigured } }

/-- R227: LT_UPDATE with A = 1 and LT_VALID = 1 changes no state but its completion with CODE 0. -/
def Obligations.AbsentUpdateIsNoop : Prop :=
  ∀ s : State, s.status.ltValid = true →
    exec (.ltUpdate true) s = .next { s with
      pending := none, wait := 0
      status := { s.status with busy := false, done := true, code := .ok } }

/-- R220 to R226: LT_UPDATE with A = 0 on a configured tracker completes with CODE 0. Each band's IMM is its sum by add32 from +0.0 in increasing j; AVG and LAVG take one EMA step at the rates for the effective fps; VAL and ATT are the guarded quotients of the new averages. It writes LT_FPS_EFF and VAL_VALID and changes nothing else. -/
def Obligations.UpdateAdvancesLanes : Prop :=
  ∀ s : State, s.status.ltValid = true →
    ∃ t, exec (.ltUpdate false) s = .next t ∧
      t = { s with
        pending := none, wait := 0, level := t.level
        lt := { s.lt with fpsEff := effFps s.lt.fps }
        status := { s.status with busy := false, done := true, code := .ok, valValid := true } } ∧
      ∀ b : Band,
        (let fe := effFps s.lt.fps
         let imm := (List.range' (s.lt.bandStart.get b).toNat
             ((s.lt.bandStop.get b).toNat - (s.lt.bandStart.get b).toNat)).foldl
               (fun x j => add32 x (specWord s j)) 0x00000000
         let rFast := if gt32 imm (s.level.avg.get b) = true then perFrame 0x3E4CCCCD fe
           else perFrame 0x3F000000 fe
         let rSlow := if s.lt.frame.toNat < 50 then perFrame 0x3F666666 fe else perFrame 0x3F7DF3B6 fe
         let avg := add32 (mul32 (s.level.avg.get b) rFast) (mul32 imm (sub32 0x3F800000 rFast))
         let lavg := add32 (mul32 (s.level.lavg.get b) rSlow) (mul32 imm (sub32 0x3F800000 rSlow))
         t.level.imm.get b = imm ∧ t.level.avg.get b = avg ∧ t.level.lavg.get b = lavg ∧
         t.level.val.get b = (if lt32 lavg 0x3A83126F = true then 0x3F800000 else div32 imm lavg) ∧
         t.level.att.get b = (if lt32 lavg 0x3A83126F = true then 0x3F800000 else div32 avg lavg))

/-- R221: the effective fps is 15.0 for a non-finite value and for every value below 15, 144.0 for every value above 144, and the value itself, bit for bit, in between; so it always lies in [15, 144]. -/
def Obligations.EffectiveFpsIsClamped : Prop :=
  ∀ f : Word,
    (isFinite f = false → effFps f = 0x41700000) ∧
    (isFinite f = true → value f < 15 → effFps f = 0x41700000) ∧
    (isFinite f = true → 144 < value f → effFps f = 0x43100000) ∧
    (isFinite f = true → 15 ≤ value f → value f ≤ 144 → effFps f = f) ∧
    isFinite (effFps f) = true ∧ 15 ≤ value (effFps f) ∧ value (effFps f) ≤ 144

/-- R242: lane b of an update depends only on its own AVG and LAVG, its own band and SPEC words, and the shared LT_FPS and LT_FRAME. -/
def Obligations.LanesAreIndependent : Prop :=
  ∀ (s1 s2 t1 t2 : State) (b : Band),
    s1.status.ltValid = true → s2.status.ltValid = true →
    s1.lt.fps = s2.lt.fps → s1.lt.frame = s2.lt.frame →
    s1.lt.bandStart.get b = s2.lt.bandStart.get b → s1.lt.bandStop.get b = s2.lt.bandStop.get b →
    s1.level.avg.get b = s2.level.avg.get b → s1.level.lavg.get b = s2.level.lavg.get b →
    (∀ j, (s1.lt.bandStart.get b).toNat ≤ j → j < (s1.lt.bandStop.get b).toNat →
      specWord s1 j = specWord s2 j) →
    exec (.ltUpdate false) s1 = .next t1 → exec (.ltUpdate false) s2 = .next t2 →
    t1.level.imm.get b = t2.level.imm.get b ∧ t1.level.avg.get b = t2.level.avg.get b ∧
    t1.level.lavg.get b = t2.level.lavg.get b ∧ t1.level.val.get b = t2.level.val.get b ∧
    t1.level.att.get b = t2.level.att.get b

/-- R228 (c): a NaN spectrum word in a band makes that band's IMM, AVG, LAVG, VAL and ATT the canonical NaN. -/
def Obligations.NanWordFillsItsLane : Prop :=
  ∀ (s t : State) (b : Band) (j : Nat), s.status.ltValid = true →
    (s.lt.bandStart.get b).toNat ≤ j → j < (s.lt.bandStop.get b).toNat →
    isNaN (specWord s j) = true → exec (.ltUpdate false) s = .next t →
    t.level.imm.get b = 0x7FC00000 ∧ t.level.avg.get b = 0x7FC00000 ∧
    t.level.lavg.get b = 0x7FC00000 ∧ t.level.val.get b = 0x7FC00000 ∧
    t.level.att.get b = 0x7FC00000

/-- R226, R228 (a), E7: once a lane's LAVG is below the threshold, a silent update at any slow rate in (0, 1) gives VAL = ATT = 1.0 exactly and leaves LAVG below it. -/
def Obligations.SilenceStaysNeutral : Prop :=
  ∀ (r : Rates) (avg lavg : Word),
    isFinite r.slow = true → 0 < value r.slow → value r.slow < 1 →
    isFinite lavg = true → 0 ≤ value lavg → lt32 lavg 0x3A83126F = true →
    (updateLane r 0x00000000 avg lavg).val = 0x3F800000 ∧
    (updateLane r 0x00000000 avg lavg).att = 0x3F800000 ∧
    isFinite (updateLane r 0x00000000 avg lavg).lavg = true ∧
    0 ≤ value (updateLane r 0x00000000 avg lavg).lavg ∧
    lt32 (updateLane r 0x00000000 avg lavg).lavg 0x3A83126F = true

/-- R222: the four perSecond constants, and at fe = 30 every perFrame rate is its base rate bit for bit. -/
def Obligations.RatesAtBaseFps : Prop :=
  (powInt32 0x3E4CCCCD 30 = 0x1CA24265 ∧ powInt32 0x3F000000 30 = 0x30800000 ∧
    powInt32 0x3F666666 30 = 0x3D2DA251 ∧ powInt32 0x3F7DF3B6 30 = 0x3F492EB0) ∧
  ∀ r ∈ [(0x3E4CCCCD : Word), 0x3F000000, 0x3F666666, 0x3F7DF3B6], perFrame r 0x41F00000 = r

/-- R222, R13 (method: log entry 9): for each of the four base rates r and every finite fe in [15, 144], PerFrame(r, fe) is RN32 of the exact perSecond^(1/fe), with perSecond = RN32(r^30). For any finite q in (0, 1) a root that the enclosure of some precision decides is RN32 of the exact q^(1/fe). -/
def Obligations.RateIsCorrectlyRounded : Prop :=
  (∀ r ∈ [(0x3E4CCCCD : Word), 0x3F000000, 0x3F666666, 0x3F7DF3B6], ∀ fe : Word,
    isFinite fe = true → 15 ≤ value fe → value fe ≤ 144 →
    RoundsTo ((value (powInt32 r 30) : ℝ) ^ (1 / (value fe : ℝ))) (perFrame r fe)) ∧
  (∀ (p : Nat) (q fe w : Word), isFinite q = true → 0 < value q → value q < 1 →
    isFinite fe = true → 15 ≤ value fe → value fe ≤ 144 →
    roundReciprocal p (rootEnclosure p q fe) = some w →
    RoundsTo ((value q : ℝ) ^ (1 / (value fe : ℝ))) w)

/-- R240, R241: LT_RESTART, word 0x00000012, gives the level state and IMM their initial values and clears VAL_VALID, whether the tracker is configured or not, and changes nothing else. -/
def Obligations.RestartInitialisesLevel : Prop :=
  decode 0x00000012 = .ok .ltRestart ∧
  ∀ s : State, exec .ltRestart s = .next { s with
    pending := none, wait := 0
    level :=
      { val := ⟨0x00000000, 0x00000000, 0x00000000⟩
        att := ⟨0x3F800000, 0x3F800000, 0x3F800000⟩
        avg := ⟨0x3F800000, 0x3F800000, 0x3F800000⟩
        lavg := ⟨0x3F800000, 0x3F800000, 0x3F800000⟩
        imm := ⟨0x00000000, 0x00000000, 0x00000000⟩ }
    status := { s.status with busy := false, done := true, code := .ok, valValid := false } }

/-- R43: only LT_UPDATE, LT_RESTART, a successful LT_CONFIG and a reset change the level state: a step that changes it completes (log entry 3 for when) one of those commands with CODE 0, or runs a statement that resets the block. -/
def Obligations.OnlyTheseChangeLevel : Prop :=
  ∀ s t : State, step s = .next t → t.level ≠ s.level →
    (∃ w, s.pending = some w ∧ (s.wait = 0 ∨ s.host = []) ∧ t.pending = none ∧ t.status.code = .ok ∧
      (decode w = .ok .ltConfig ∨ decode w = .ok (.ltUpdate false) ∨ decode w = .ok .ltRestart)) ∨
    (∃ st rest, s.host = st :: rest ∧ resetsBlock st = true ∧ t.level = LevelRegs.initial)

/-! ## binary32 -/

/-- R10, R13: add32 and sub32 of finite values are correctly rounded; an exact zero sum is +0 unless both operands are −0, and an exact zero difference is +0 unless it is −0 − (+0). With an infinite operand and a finite one the result is the infinity of its sign in the sum, and infinities of one sign add up to that infinity. -/
def Obligations.AddIsCorrectlyRounded : Prop :=
  (∀ a b : Word, isFinite a = true → isFinite b = true →
    RoundsTo ((value a + value b : ℚ) : ℝ) (add32 a b) ∧
    RoundsTo ((value a - value b : ℚ) : ℝ) (sub32 a b) ∧
    (value a + value b = 0 → add32 a b = if a = 0x80000000 ∧ b = 0x80000000 then 0x80000000 else 0x00000000) ∧
    (value a = value b → sub32 a b = if a = 0x80000000 ∧ b = 0x00000000 then 0x80000000 else 0x00000000)) ∧
  (∀ a b : Word, isInf a = true → isFinite b = true →
    add32 a b = a ∧ add32 b a = a ∧ sub32 a b = a ∧ sub32 b a = a ^^^ 0x80000000) ∧
  (∀ a : Word, isInf a = true → add32 a a = a ∧ sub32 a (a ^^^ 0x80000000) = a)

/-- R10, R13: mul32 of finite values, and div32 of finite values with a non-zero divisor, are correctly rounded with the exclusive or of the signs, a zero result included; a non-zero value over a zero is the infinity of that sign. An infinity times anything but a zero or a NaN, and an infinity over a finite value, are the infinity of that sign; a finite value over an infinity is the zero of that sign. -/
def Obligations.MulAndDivAreCorrectlyRounded : Prop :=
  (∀ a b : Word, isFinite a = true → isFinite b = true →
    RoundsTo ((value a * value b : ℚ) : ℝ) (mul32 a b) ∧
    signBit (mul32 a b) = (signBit a != signBit b) ∧
    (value b ≠ 0 → RoundsTo ((value a / value b : ℚ) : ℝ) (div32 a b) ∧
      signBit (div32 a b) = (signBit a != signBit b)) ∧
    (value b = 0 → value a ≠ 0 →
      div32 a b = if signBit a = signBit b then 0x7F800000 else 0xFF800000)) ∧
  (∀ a b : Word, isInf a = true → isInf b = true ∨ (isFinite b = true ∧ value b ≠ 0) →
    mul32 a b = (if signBit a = signBit b then 0x7F800000 else 0xFF800000) ∧
    mul32 b a = (if signBit a = signBit b then 0x7F800000 else 0xFF800000)) ∧
  (∀ a b : Word, isInf a = true → isFinite b = true →
    div32 a b = (if signBit a = signBit b then 0x7F800000 else 0xFF800000) ∧
    div32 b a = (if signBit a = signBit b then 0x00000000 else 0x80000000))

/-- R10, R13: sqrt32 of a finite value that is not negative is correctly rounded, sqrt32(−0) = −0, and the root of +∞ is +∞. -/
def Obligations.SqrtIsCorrectlyRounded : Prop :=
  (∀ a : Word, isFinite a = true → 0 ≤ value a → RoundsTo (Real.sqrt (value a : ℝ)) (sqrt32 a)) ∧
  sqrt32 0x80000000 = 0x80000000 ∧ sqrt32 0x7F800000 = 0x7F800000

/-- R10, R11: the invalid operations give NaN, a NaN operand gives NaN, nothing else does, and every NaN result is the canonical one. -/
def Obligations.NanResultsAreCanonical : Prop :=
  ∀ a b : Word,
    (isNaN (add32 a b) = true ↔ isNaN a = true ∨ isNaN b = true ∨
      (isInf a = true ∧ isInf b = true ∧ signBit a ≠ signBit b)) ∧
    (isNaN (sub32 a b) = true ↔ isNaN a = true ∨ isNaN b = true ∨
      (isInf a = true ∧ isInf b = true ∧ signBit a = signBit b)) ∧
    (isNaN (mul32 a b) = true ↔ isNaN a = true ∨ isNaN b = true ∨
      (isInf a = true ∧ isFinite b = true ∧ value b = 0) ∨
      (isInf b = true ∧ isFinite a = true ∧ value a = 0)) ∧
    (isNaN (div32 a b) = true ↔ isNaN a = true ∨ isNaN b = true ∨
      (isInf a = true ∧ isInf b = true) ∨
      (isFinite a = true ∧ isFinite b = true ∧ value a = 0 ∧ value b = 0)) ∧
    (isNaN (sqrt32 a) = true ↔ isNaN a = true ∨ (isInf a = true ∧ signBit a = true) ∨
      (isFinite a = true ∧ value a < 0)) ∧
    ∀ r ∈ [add32 a b, sub32 a b, mul32 a b, div32 a b, sqrt32 a], isNaN r = true → r = 0x7FC00000

/-- R12: lt32 of finite values compares their exact values, so −0 equals +0; it is false when an operand is NaN; the infinities are outermost, each equal to itself. -/
def Obligations.LessThanComparesValues : Prop :=
  ∀ a b : Word,
    (isFinite a = true → isFinite b = true → (lt32 a b = true ↔ value a < value b)) ∧
    (isNaN a = true ∨ isNaN b = true → lt32 a b = false) ∧
    (isFinite a = true → lt32 a 0x7F800000 = true ∧ lt32 0xFF800000 a = true ∧
      lt32 0x7F800000 a = false ∧ lt32 a 0xFF800000 = false) ∧
    (isInf a = true → isInf b = true → (lt32 a b = true ↔ a = 0xFF800000 ∧ b = 0x7F800000)) ∧
    gt32 a b = lt32 b a

/-! ## The host port -/

/-- R83, R86 to R89, R290, and R82 with log entry 7 for an offset of 0x10000 or more, which counts by its low 16 bits: each of the four causes gives a bus error whose only effect is the response ERROR, data 0 for a read, and BUSERR = 1; a transaction with no cause gets OKAY, and a read then gives the addressed word and changes no state of the block. -/
def Obligations.BusErrorCausesAndEffect : Prop :=
  ∀ (s : State) (tr : Transaction),
    (causesBusError s tr → transact tr s =
      { s with status := { s.status with busErr := true }, bus := some (errorResponse tr) }) ∧
    (¬ causesBusError s tr → isOkay (transact tr s).bus = true ∧
      ∀ width off, tr = .read width off → transact tr s =
        { s with bus := some (.readDone (readValue s (regionOf (off.toNat % 0x10000))) .okay) })

/-- R83, R261, R31 to R49 (layouts of R34, R38, R42 to R45): what each offset reads while BUSY = 0, as words of the state's own fields; CTRL, IRQ_EN and the STATUS word bit by bit in every state, BUSY = 1 included (R268); each entry of the four RAMs, with byte lane 0 lowest (R85); and the entries of the twiddle ROM. A read changes nothing but the response. -/
def Obligations.ReadsGiveMappedWords : Prop :=
  (∀ s : State, s.status.busy = false →
    ∀ p ∈ [((0x0010 : Word), (0x00000000 : Word)), (0x0014, s.cmd), (0x001C, 0#29 ++ s.irqEn),
      (0x0020, 0#19 ++ s.fft.nin), (0x0024, 0#19 ++ s.fft.nout), (0x0028, s.fft.eqK),
      (0x002C, 0#3 ++ s.fft.noutA ++ 0#3 ++ s.fft.ninA),
      (0x0040, s.lt.srate), (0x0044, s.lt.fftSize), (0x0048, 0#19 ++ s.lt.nbins),
      (0x004C, s.lt.fps), (0x0050, s.lt.frame), (0x0054, s.lt.fpsEff),
      (0x0060, 0#19 ++ s.lt.bandStart.bass), (0x0064, 0#19 ++ s.lt.bandStop.bass),
      (0x0068, 0#19 ++ s.lt.bandStart.mid), (0x006C, 0#19 ++ s.lt.bandStop.mid),
      (0x0070, 0#19 ++ s.lt.bandStart.treble), (0x0074, 0#19 ++ s.lt.bandStop.treble),
      (0x0080, s.level.val.bass), (0x0084, s.level.val.mid), (0x0088, s.level.val.treble),
      (0x0090, s.level.att.bass), (0x0094, s.level.att.mid), (0x0098, s.level.att.treble),
      (0x00A0, s.level.avg.bass), (0x00A4, s.level.avg.mid), (0x00A8, s.level.avg.treble),
      (0x00B0, s.level.lavg.bass), (0x00B4, s.level.lavg.mid), (0x00B8, s.level.lavg.treble),
      (0x00C0, s.level.imm.bass), (0x00C4, s.level.imm.mid), (0x00C8, s.level.imm.treble)],
    transact (.read 4 p.1) s = { s with bus := some (.readDone p.2 .okay) }) ∧
  (∀ s : State,
    transact (.read 4 0x0010) s = { s with bus := some (.readDone 0x00000000 .okay) } ∧
    transact (.read 4 0x001C) s = { s with bus := some (.readDone (0#29 ++ s.irqEn) .okay) }) ∧
  (∀ s : State, ∃ w : Word,
    transact (.read 4 0x0018) s = { s with bus := some (.readDone w .okay) } ∧
    w.getLsbD 0 = s.status.busy ∧ w.getLsbD 1 = s.status.done ∧ w.getLsbD 2 = s.status.err ∧
    w.getLsbD 3 = s.status.busErr ∧ w.getLsbD 4 = s.status.fftValid ∧ w.getLsbD 5 = s.status.ltValid ∧
    w.getLsbD 6 = s.status.valValid ∧ w.getLsbD 7 = s.status.fftEq ∧ w.extractLsb' 16 16 = 0 ∧
    w.extractLsb' 8 8 = (match s.status.code with
      | .ok => 0x00
      | .illegalCmd => 0x01
      | .fftBadSize => 0x02
      | .fftBadInput => 0x03
      | .fftNotConfigured => 0x04
      | .ltBadParam => 0x05
      | .ltBadBands => 0x06
      | .ltNotConfigured => 0x07)) ∧
  (∀ (s : State) (i : Nat), s.status.busy = false →
    ∀ p ∈ [((0x4000 : Nat), (4096 : Nat)), (0x8000, 2048), (0xA000, 2048), (0xC000, 4096)], i < p.2 →
      ∃ w : Word,
        transact (.read 4 (BitVec.ofNat 32 (p.1 + 4 * i))) s = { s with bus := some (.readDone w .okay) } ∧
        ∀ k, k < 4 → w.extractLsb' (8 * k) 8 = readByte s.ram (p.1 + 4 * i + k)) ∧
  (∀ (s : State) (i : Nat), s.status.busy = false → i < 12 →
    transact (.read 4 (BitVec.ofNat 32 (0x0100 + 4 * i))) s = { s with bus := some (.readDone (twCos i) .okay) } ∧
    transact (.read 4 (BitVec.ofNat 32 (0x0140 + 4 * i))) s = { s with bus := some (.readDone (twSin i) .okay) })

/-- R262, R84, R35 to R40, R46, R47 (X2), and R82 with log entry 7 for an offset of 0x10000 or more, which counts by its low 16 bits: an OKAY write of a word to a register or RAM word that stores it reads back as its stored bits, reserved bits as 0. A register write changes its register and nothing else of the block (R55), and a CTRL write with bit 0 = 0 nothing at all, whether BUSY is 0 or 1 (R32, R321). -/
def Obligations.WriteReadsBackMasked : Prop :=
  (∀ (s : State) (off data m : Word), ¬ causesBusError s (.write 4 off data) →
    storedBits (off.toNat % 0x10000) = some m →
    (transact (.read 4 off) (transact (.write 4 off data) s)).bus = some (.readDone (data &&& m) .okay)) ∧
  (∀ (s : State) (data : Word), s.status.busy = false →
    ∀ p ∈ [((0x0020 : Word), { s with fft := { s.fft with nin := data.extractLsb' 0 13 } }),
      (0x0024, { s with fft := { s.fft with nout := data.extractLsb' 0 13 } }),
      (0x0028, { s with fft := { s.fft with eqK := data } }),
      (0x0040, { s with lt := { s.lt with srate := data } }),
      (0x0044, { s with lt := { s.lt with fftSize := data } }),
      (0x0048, { s with lt := { s.lt with nbins := data.extractLsb' 0 13 } }),
      (0x004C, { s with lt := { s.lt with fps := data } }),
      (0x0050, { s with lt := { s.lt with frame := data } })],
    transact (.write 4 p.1 data) s = { p.2 with bus := some (.writeDone .okay) }) ∧
  (∀ (s : State) (data : Word),
    transact (.write 4 0x001C data) s =
      { s with irqEn := data.extractLsb' 0 3, bus := some (.writeDone .okay) } ∧
    (data.getLsbD 0 = false →
      transact (.write 4 0x0010 data) s = { s with bus := some (.writeDone .okay) }))

/-- R262, R84, R89, and R82 with log entry 7 for an offset of 0x10000 or more, which counts by its low 16 bits: an OKAY write to TIME or SPEC RAM changes the four bytes of its entry and nothing else but the response. -/
def Obligations.RamWriteChangesOneEntry : Prop :=
  ∀ (s : State) (off data : Word), ¬ causesBusError s (.write 4 off data) →
    0x4000 ≤ off.toNat % 0x10000 →
    ∃ t, t = transact (.write 4 off data) s ∧
      t = { s with ram := t.ram, bus := some (.writeDone .okay) } ∧
      readWord t.ram (off.toNat % 0x10000) = data ∧
      ∀ a, ¬ (off.toNat % 0x10000 ≤ a ∧ a < off.toNat % 0x10000 + 4) →
        readByte t.ram a = readByte s.ram a

/-- R34, R262: a write to STATUS clears exactly those of bits 1 to 3 of the STATUS word that the data has as 1, whether a command is pending or not, and changes nothing else but the response. -/
def Obligations.StatusWriteClearsOnes : Prop :=
  ∀ (s : State) (data : Word),
    ∃ t, t = transact (.write 4 0x00000018 data) s ∧
      t = { s with status := t.status, bus := some (.writeDone .okay) } ∧
      statusWord t.status = statusWord s.status &&& ~~~(data &&& 0x0000000E)

/-- R262, R33, R114: a CMD write while BUSY = 0 is accepted whatever word it carries: CMD and the pending word take it, BUSY becomes 1, and nothing else of the block changes. When it completes is a free value (log entry 3). -/
def Obligations.CommandWriteIsAccepted : Prop :=
  ∀ (s : State) (w : Word), s.status.busy = false →
    transact (.write 4 0x00000014 w) s = { s with
      cmd := w, pending := some w, status := { s.status with busy := true }
      wait := Config.tCmd s.draws, draws := s.draws + 1, bus := some (.writeDone .okay) }

/-- R88, R268, R330: while a command waits for its completion, no statement of the host but one that resets the block changes CMD, the pending word, an operand, configuration, band or level register, any RAM, or a STATUS bit other than DONE, ERR and BUSERR. -/
def Obligations.BusyWindowProtectsBlock : Prop :=
  ∀ s t : State, BusyIffPending s → s.pending ≠ none → s.wait ≠ 0 →
    (∀ st rest, s.host = st :: rest → resetsBlock st = false) → s.host ≠ [] → step s = .next t →
    t.cmd = s.cmd ∧ t.pending = s.pending ∧ t.fft = s.fft ∧ t.lt = s.lt ∧ t.level = s.level ∧
    t.ram = s.ram ∧ t.scratch = s.scratch ∧
    t.status.busy = s.status.busy ∧ t.status.code = s.status.code ∧ t.status.fftEq = s.status.fftEq ∧
    t.status.fftValid = s.status.fftValid ∧ t.status.ltValid = s.status.ltValid ∧
    t.status.valValid = s.status.valValid

/-- R321 to R323, R53: a write to CTRL with bit 0 = 1 puts every register at its reset value, with response OKAY, whether BUSY is 0 or 1; with no command pending it keeps every byte of RAM, and with one pending it leaves the RAM that AbortKeepsOtherRam describes; the reset input does the same. -/
def Obligations.SoftResetRestoresRegisters : Prop :=
  ∀ (s : State) (data : Word), data.getLsbD 0 = true →
    ∃ t, t = transact (.write 4 0x00000010 data) s ∧
      t.bus = some (.writeDone .okay) ∧ t.cmd = 0 ∧ statusWord t.status = 0 ∧ t.irqEn = 0 ∧
      irq t = false ∧ t.pending = none ∧
      t.fft = { nin := 0, nout := 0, eqK := 0x3CA3D70A, ninA := 0, noutA := 0 } ∧
      t.lt = { srate := 0, fftSize := 0, nbins := 0, fps := 0, frame := 0, fpsEff := 0,
               bandStart := ⟨0, 0, 0⟩, bandStop := ⟨0, 0, 0⟩ } ∧
      t.level =
        { val := ⟨0x00000000, 0x00000000, 0x00000000⟩, att := ⟨0x3F800000, 0x3F800000, 0x3F800000⟩,
          avg := ⟨0x3F800000, 0x3F800000, 0x3F800000⟩, lavg := ⟨0x3F800000, 0x3F800000, 0x3F800000⟩,
          imm := ⟨0x00000000, 0x00000000, 0x00000000⟩ } ∧
      (s.pending = none → t.ram = s.ram) ∧ t.ram = (resetBlock s).ram ∧
      (∀ rest, runStmt .rst rest s = { t with host := rest, bus := s.bus })

/-- R322: a reset that aborts FFT_TRANSFORM leaves every byte of RAM outside SPEC[0 .. NOUT_A − 1]; one that aborts FFT_CONFIG every byte outside BITREV and, with E = 1, EQ; one that aborts anything else every byte. -/
def Obligations.AbortKeepsOtherRam : Prop :=
  ∀ (s : State) (w : Word) (a : Nat), s.pending = some w →
    (decode w = .ok .fftTransform → ¬ (0x8000 ≤ a ∧ a < 0x8000 + 4 * noutA s) →
      readByte (resetBlock s).ram a = readByte s.ram a) ∧
    (∀ e, decode w = .ok (.fftConfig e) → ¬ (0xC000 ≤ a ∧ a < 0x10000) →
      ¬ (e = true ∧ 0xA000 ≤ a ∧ a < 0xC000) →
      readByte (resetBlock s).ram a = readByte s.ram a) ∧
    ((∀ e, decode w ≠ .ok (.fftConfig e)) → decode w ≠ .ok .fftTransform →
      (resetBlock s).ram = s.ram)

/-- R53, R31, R143 (X1): what each register and each entry of the twiddle ROM reads after reset. -/
def Obligations.ResetReadsX1 : Prop :=
  ∀ p ∈ [((0x0000 : Word), (0x42434654 : Word)), (0x0004, 0x00000007), (0x0008, 0x1E0F900C),
      (0x0010, 0x00000000), (0x0014, 0x00000000), (0x0018, 0x00000000), (0x001C, 0x00000000),
      (0x0020, 0x00000000), (0x0024, 0x00000000), (0x0028, 0x3CA3D70A), (0x002C, 0x00000000),
      (0x0040, 0x00000000), (0x0044, 0x00000000), (0x0048, 0x00000000), (0x004C, 0x00000000),
      (0x0050, 0x00000000), (0x0054, 0x00000000), (0x0060, 0x00000000), (0x0064, 0x00000000),
      (0x0068, 0x00000000), (0x006C, 0x00000000), (0x0070, 0x00000000), (0x0074, 0x00000000),
      (0x0080, 0x00000000), (0x0084, 0x00000000), (0x0088, 0x00000000), (0x0090, 0x3F800000),
      (0x0094, 0x3F800000), (0x0098, 0x3F800000), (0x00A0, 0x3F800000), (0x00A4, 0x3F800000),
      (0x00A8, 0x3F800000), (0x00B0, 0x3F800000), (0x00B4, 0x3F800000), (0x00B8, 0x3F800000),
      (0x00C0, 0x00000000), (0x00C4, 0x00000000), (0x00C8, 0x00000000), (0x0100, 0xBF800000),
      (0x0104, 0x00000000), (0x0108, 0x3F3504F3), (0x010C, 0x3F6C835E), (0x0110, 0x3F7B14BE),
      (0x0114, 0x3F7EC46D), (0x0118, 0x3F7FB10F), (0x011C, 0x3F7FEC43), (0x0120, 0x3F7FFB11),
      (0x0124, 0x3F7FFEC4), (0x0128, 0x3F7FFFB1), (0x012C, 0x3F7FFFEC), (0x0140, 0x00000000),
      (0x0144, 0xBF800000), (0x0148, 0xBF3504F3), (0x014C, 0xBEC3EF15), (0x0150, 0xBE47C5C2),
      (0x0154, 0xBDC8BD36), (0x0158, 0xBD48FB30), (0x015C, 0xBCC90AB0), (0x0160, 0xBC490E90),
      (0x0164, 0xBBC90F88), (0x0168, 0xBB490FC6), (0x016C, 0xBAC90FD5)],
    (transact (.read 4 p.1) State.reset).bus = some (.readDone p.2 .okay)

/-- R31, R45: ID, VERSION and PARAMS, and outside the BUSY window the twiddle ROM, read the same constants in every state. -/
def Obligations.ConstantsNeverChange : Prop :=
  ∀ s : State,
    (transact (.read 4 0x0000) s).bus = some (.readDone 0x42434654 .okay) ∧
    (transact (.read 4 0x0004) s).bus = some (.readDone 0x00000007 .okay) ∧
    (transact (.read 4 0x0008) s).bus = some (.readDone 0x1E0F900C .okay) ∧
    (s.status.busy = false → ∀ off : Word, 0x0100 ≤ off.toNat → off.toNat ≤ 0x016C →
      off.toNat % 4 = 0 → ¬ (0x0130 ≤ off.toNat ∧ off.toNat ≤ 0x013C) →
      (transact (.read 4 off) s).bus = (transact (.read 4 off) State.reset).bus ∧
      isOkay (transact (.read 4 off) s).bus = true)

/-- R295, R34, R35: irq is 1 exactly when a STATUS bit and its enable, as the host reads the two words, are both 1. -/
def Obligations.IrqFollowsReadableBits : Prop :=
  ∀ s : State, irq s = true ↔
    (statusWord s.status >>> 1) &&& readValue s .irqEn ≠ (0 : Word)

/-! ## Invariants and progress -/

/-- R34, R51, R33: BUSY is 1 exactly while a command is pending, and CMD then holds its word, over every step. -/
def Obligations.StepKeepsBusyIffPending : Prop :=
  ∀ s t : State, BusyIffPending s → step s = .next t → BusyIffPending t

/-- R83, R96: both memories stay in their canonical form and the RAM lists only RAM offsets, over every step. -/
def Obligations.StepKeepsMemory : Prop :=
  ∀ s t : State, MemoryKept s → step s = .next t → MemoryKept t

/-- R53: the reset state meets every invariant. -/
def Obligations.ResetMeetsInvariants : Prop :=
  BusyIffPending State.reset ∧ MemoryKept State.reset ∧ FftConfigKept State.reset ∧
    BandsKept State.reset

/-- R270, R263 (log entry 3 for the transactions it waits for): whatever the host does, a pending command is gone, completed or aborted by a reset, after at most as many steps as it waits for transactions, and one. -/
def Obligations.PendingCommandFinishes : Prop :=
  ∀ s : State, BusyIffPending s → s.pending ≠ none →
    ∃ n, n ≤ s.wait + 1 ∧ ∃ t, Sys2Proof.core.run n s = .next t ∧ t.pending = none
end

