-- ==== Sys2Proof/Laws/Memory.lean ====
section
/-! SUPPORT. The laws of the byte memory: a store reads back, leaves every other byte, and keeps the canonical form; and the same for whole words. -/

namespace Sys2Proof.Laws

open Sys2Proof.Machine

theorem recordedByte_append (m n : Memory) (x : Nat) :
    recordedByte (m ++ n) x = (recordedByte m x).or (recordedByte n x) := by
  induction m with
  | nil => simp [recordedByte]
  | cons c m ih =>
    obtain ⟨k, b⟩ := c
    by_cases h : k = x <;> simp [recordedByte, h, ih]

theorem recordedByte_filter (m : Memory) (p : Nat → Bool) (x : Nat) :
    recordedByte (m.filter (fun c => p c.1)) x = if p x then recordedByte m x else none := by
  induction m with
  | nil => simp [recordedByte]
  | cons c m ih =>
    obtain ⟨k, b⟩ := c
    by_cases hp : p k <;> by_cases hk : k = x
    · subst hk; simp [recordedByte, hp]
    · simp [recordedByte, hp, hk, ih]
    · subst hk; simp [hp, ih]
    · simp [recordedByte, hp, hk, ih]

theorem recordedByte_cellsFrom (bs : List Byte) (a x : Nat) :
    recordedByte (cellsFrom a bs) x = if a ≤ x then bs[x - a]? else none := by
  induction bs generalizing a with
  | nil => simp [cellsFrom, recordedByte]
  | cons b bs ih =>
    rw [cellsFrom, recordedByte, ih]
    by_cases h : a = x
    · subst h; simp
    · by_cases hl : a + 1 ≤ x
      · obtain ⟨d, rfl⟩ : ∃ d, x = a + 1 + d := ⟨x - (a + 1), by omega⟩
        simp [h, show a ≤ a + 1 + d by omega, show a + 1 + d - a = d + 1 by omega]
      · have : ¬ a ≤ x := by omega
        simp [h, hl, this]

/-- A byte after a store: the stored byte inside, the old one outside. -/
theorem recordedByte_storeBytes (m : Memory) (a : Nat) (bs : List Byte) (x : Nat) :
    recordedByte (storeBytes m a bs) x =
      if a ≤ x ∧ x < a + bs.length then bs[x - a]? else recordedByte m x := by
  have h1 := recordedByte_filter m (fun k => decide (k < a)) x
  have h2 := recordedByte_filter m (fun k => decide (a + bs.length ≤ k)) x
  simp only [decide_eq_true_eq] at h1 h2
  rw [storeBytes, recordedByte_append, recordedByte_append, recordedByte_cellsFrom, h1, h2]
  by_cases hl : a ≤ x <;> by_cases hr : x < a + bs.length
  · have : bs[x - a]? = some bs[x - a] := List.getElem?_eq_getElem (by omega)
    simp [hl, hr, show ¬ x < a by omega, this]
  · have : bs[x - a]? = none := List.getElem?_eq_none (by omega)
    simp [hl, hr, show ¬ x < a by omega, show a + bs.length ≤ x by omega, this]
  · simp [hl, show x < a by omega, show ¬ a + bs.length ≤ x by omega]
  · omega

theorem readByte_storeBytes_inside (m : Memory) (a : Nat) (bs : List Byte) (k : Nat)
    (h : k < bs.length) : readByte (storeBytes m a bs) (a + k) = bs[k] := by
  simp [readByte, recordedByte_storeBytes, h]

theorem readByte_storeBytes_outside (m : Memory) (a : Nat) (bs : List Byte) (x : Nat)
    (h : x < a ∨ a + bs.length ≤ x) : readByte (storeBytes m a bs) x = readByte m x := by
  simp only [readByte, recordedByte_storeBytes]
  rw [if_neg (by omega)]

theorem memoryWf_iff (m : Memory) : memoryWf m = true ↔ m.Pairwise (fun c d => c.1 < d.1) := by
  induction m with
  | nil => simp [memoryWf]
  | cons c m ih =>
    obtain ⟨a, x⟩ := c
    cases m with
    | nil => simp [memoryWf]
    | cons d m =>
      obtain ⟨b, y⟩ := d
      rw [memoryWf, Bool.and_eq_true, ih, decide_eq_true_eq, List.pairwise_cons (a := (a, x))]
      refine ⟨fun ⟨hab, hm⟩ => ⟨fun e he => ?_, hm⟩, fun ⟨h, hm⟩ => ⟨h _ List.mem_cons_self, hm⟩⟩
      rcases List.mem_cons.1 he with rfl | he
      · exact hab
      · exact Nat.lt_trans hab (List.rel_of_pairwise_cons hm he)

theorem mem_cellsFrom {a : Nat} {bs : List Byte} {c : Host.Cell} (h : c ∈ cellsFrom a bs) :
    a ≤ c.1 ∧ c.1 < a + bs.length := by
  induction bs generalizing a with
  | nil => simp [cellsFrom] at h
  | cons b bs ih =>
    rcases List.mem_cons.1 h with rfl | h
    · simp
    · have := ih h
      simp only [List.length_cons]
      omega

theorem cellsFrom_pairwise (a : Nat) (bs : List Byte) :
    (cellsFrom a bs).Pairwise (fun c d => c.1 < d.1) := by
  induction bs generalizing a with
  | nil => simp [cellsFrom]
  | cons b bs ih =>
    refine List.pairwise_cons.2 ⟨fun c h => ?_, ih _⟩
    have := (mem_cellsFrom h).1
    exact Nat.lt_of_lt_of_le (Nat.lt_succ_self a) this

/-- A store keeps the canonical form. -/
theorem memoryWf_storeBytes (m : Memory) (a : Nat) (bs : List Byte) (h : memoryWf m = true) :
    memoryWf (storeBytes m a bs) = true := by
  rw [memoryWf_iff] at *
  refine List.pairwise_append.2
    ⟨List.pairwise_append.2 ⟨h.filter _, cellsFrom_pairwise a bs, fun c hc d hd => ?_⟩,
      h.filter _, fun c hc d hd => ?_⟩
  · have h1 := of_decide_eq_true (List.mem_filter.1 hc).2
    have h2 := mem_cellsFrom hd
    omega
  · have h2 := of_decide_eq_true (List.mem_filter.1 hd).2
    rcases List.mem_append.1 hc with hc | hc
    · have h1 := of_decide_eq_true (List.mem_filter.1 hc).2
      omega
    · have h1 := mem_cellsFrom hc
      omega

/-- The cells of a store are old cells or lie in the stored range. -/
theorem mem_storeBytes {m : Memory} {a : Nat} {bs : List Byte} {c : Host.Cell}
    (h : c ∈ storeBytes m a bs) : c ∈ m ∨ (a ≤ c.1 ∧ c.1 < a + bs.length) := by
  rcases List.mem_append.1 h with h | h
  · rcases List.mem_append.1 h with h | h
    · exact .inl (List.mem_filter.1 h).1
    · exact .inr (mem_cellsFrom h)
  · exact .inl (List.mem_filter.1 h).1

@[simp] theorem length_bytesOfWord (w : Word) : (bytesOfWord w).length = 4 := rfl

theorem length_flatMap_bytesOfWord (ws : List Word) :
    (ws.flatMap bytesOfWord).length = 4 * ws.length := by
  induction ws with
  | nil => rfl
  | cons w ws ih => simp only [List.flatMap_cons, List.length_append, ih, length_bytesOfWord,
      List.length_cons]; omega

/-- A word is what its four byte lanes make up. -/
@[simp] theorem wordOfBytes_byteLane (w : Word) :
    wordOfBytes (byteLane w 0) (byteLane w 1) (byteLane w 2) (byteLane w 3) = w := by
  apply BitVec.eq_of_getLsbD_eq
  intro i hi
  simp only [wordOfBytes, byteLane, BitVec.getLsbD_append, BitVec.getLsbD_extractLsb']
  by_cases h0 : i < 8
  · simp [h0]
  · by_cases h1 : i < 16
    · simp [h0, show i - 8 < 8 by omega, show 8 + (i - 8) = i by omega]
    · by_cases h2 : i < 24
      · simp [h0, show ¬ i - 8 < 8 by omega, show i - 8 - 8 < 8 by omega,
          show 16 + (i - 8 - 8) = i by omega]
      · simp [h0, show ¬ i - 8 < 8 by omega, show ¬ i - 8 - 8 < 8 by omega,
          show i - 8 - 8 - 8 < 8 by omega, show 24 + (i - 8 - 8 - 8) = i by omega]

theorem flatMap_bytesOfWord_getElem (ws : List Word) (i k : Nat) (hi : i < ws.length) (hk : k < 4) :
    (ws.flatMap bytesOfWord)[4 * i + k]? = some (byteLane ws[i] k) := by
  induction ws generalizing i with
  | nil => simp at hi
  | cons w ws ih =>
    cases i with
    | zero =>
      rw [List.flatMap_cons, List.getElem?_append_left (by simp; omega)]
      match k, hk with
      | 0, _ => rfl
      | 1, _ => rfl
      | 2, _ => rfl
      | 3, _ => rfl
    | succ i =>
      rw [List.flatMap_cons, List.getElem?_append_right (by simp; omega)]
      have : 4 * (i + 1) + k - (bytesOfWord w).length = 4 * i + k := by
        rw [length_bytesOfWord]; omega
      rw [this, ih i (by simpa using hi)]
      rfl

theorem readByte_storeWords_inside (m : Memory) (a : Nat) (ws : List Word) (i k : Nat)
    (hi : i < ws.length) (hk : k < 4) :
    readByte (storeWords m a ws) (a + (4 * i + k)) = byteLane ws[i] k := by
  have h := flatMap_bytesOfWord_getElem ws i k hi hk
  have hl : 4 * i + k < (ws.flatMap bytesOfWord).length := by
    rw [length_flatMap_bytesOfWord]; omega
  rw [storeWords, readByte_storeBytes_inside _ _ _ _ hl]
  rw [List.getElem?_eq_getElem hl] at h
  exact Option.some.inj h

/-- A stored word reads back. -/
theorem readWord_storeWords (m : Memory) (a : Nat) (ws : List Word) (i : Nat) (hi : i < ws.length) :
    readWord (storeWords m a ws) (a + 4 * i) = ws[i] := by
  have h := fun k hk => readByte_storeWords_inside m a ws i k hi hk
  have h0 := h 0 (by omega)
  have h1 := h 1 (by omega)
  have h2 := h 2 (by omega)
  have h3 := h 3 (by omega)
  simp only [Nat.add_zero, ← Nat.add_assoc] at h0 h1 h2 h3
  rw [readWord, h0, h1, h2, h3, wordOfBytes_byteLane]

theorem readByte_storeWords_outside (m : Memory) (a : Nat) (ws : List Word) (x : Nat)
    (h : x < a ∨ a + 4 * ws.length ≤ x) : readByte (storeWords m a ws) x = readByte m x :=
  readByte_storeBytes_outside m a _ x (by rwa [length_flatMap_bytesOfWord])

/-- A word outside the stored words is left alone. -/
theorem readWord_storeWords_outside (m : Memory) (a : Nat) (ws : List Word) (x : Nat)
    (h : x + 4 ≤ a ∨ a + 4 * ws.length ≤ x) : readWord (storeWords m a ws) x = readWord m x := by
  simp only [readWord]
  rw [readByte_storeWords_outside _ _ _ _ (by omega), readByte_storeWords_outside _ _ _ _ (by omega),
    readByte_storeWords_outside _ _ _ _ (by omega), readByte_storeWords_outside _ _ _ _ (by omega)]

theorem memoryWf_storeWords (m : Memory) (a : Nat) (ws : List Word) (h : memoryWf m = true) :
    memoryWf (storeWords m a ws) = true := memoryWf_storeBytes m a _ h

@[simp] theorem length_abortBytes (draw a n : Nat) : (abortBytes draw a n).length = 4 * n := by
  simp [abortBytes]

/-- An abort leaves every byte outside its words. -/
theorem readByte_scramble_outside (draw a n : Nat) (m : Memory) (x : Nat)
    (h : x < a ∨ a + 4 * n ≤ x) : readByte (scramble draw a n m) x = readByte m x :=
  readByte_storeBytes_outside m a _ x (by simpa using h)

theorem memoryWf_scramble (draw a n : Nat) (m : Memory) (h : memoryWf m = true) :
    memoryWf (scramble draw a n m) = true := memoryWf_storeBytes m a _ h

/-- The reset memory is in canonical form. -/
theorem memoryWf_reset : memoryWf State.reset.ram = true ∧ memoryWf State.reset.scratch = true :=
  ⟨rfl, rfl⟩

end Sys2Proof.Laws
end

