-- ==== Sys2Proof/Laws/State.lean ====
section
/-! SUPPORT. For each named update of State, one lemma per field: what the update leaves there. Each is true by rfl, so that no later proof unfolds a record update. -/

namespace Sys2Proof.Laws

open Sys2Proof.Machine

@[simp] theorem complete_cmd (r : State × CmdCode) : (complete r).cmd = r.1.cmd := rfl
@[simp] theorem complete_status (r : State × CmdCode) : (complete r).status = completedStatus r.2 r.1.status := rfl
@[simp] theorem complete_irqEn (r : State × CmdCode) : (complete r).irqEn = r.1.irqEn := rfl
@[simp] theorem complete_fft (r : State × CmdCode) : (complete r).fft = r.1.fft := rfl
@[simp] theorem complete_lt (r : State × CmdCode) : (complete r).lt = r.1.lt := rfl
@[simp] theorem complete_level (r : State × CmdCode) : (complete r).level = r.1.level := rfl
@[simp] theorem complete_ram (r : State × CmdCode) : (complete r).ram = r.1.ram := rfl
@[simp] theorem complete_scratch (r : State × CmdCode) : (complete r).scratch = r.1.scratch := rfl
@[simp] theorem complete_pending (r : State × CmdCode) : (complete r).pending = none := rfl
@[simp] theorem complete_wait (r : State × CmdCode) : (complete r).wait = 0 := rfl
@[simp] theorem complete_draws (r : State × CmdCode) : (complete r).draws = r.1.draws := rfl
@[simp] theorem complete_host (r : State × CmdCode) : (complete r).host = r.1.host := rfl
@[simp] theorem complete_d (r : State × CmdCode) : (complete r).d = r.1.d := rfl
@[simp] theorem complete_bus (r : State × CmdCode) : (complete r).bus = r.1.bus := rfl

@[simp] theorem acceptCommand_cmd (w : Word) (s : State) : (acceptCommand w s).cmd = w := rfl
@[simp] theorem acceptCommand_status (w : Word) (s : State) : (acceptCommand w s).status = acceptedStatus s.status := rfl
@[simp] theorem acceptCommand_irqEn (w : Word) (s : State) : (acceptCommand w s).irqEn = s.irqEn := rfl
@[simp] theorem acceptCommand_fft (w : Word) (s : State) : (acceptCommand w s).fft = s.fft := rfl
@[simp] theorem acceptCommand_lt (w : Word) (s : State) : (acceptCommand w s).lt = s.lt := rfl
@[simp] theorem acceptCommand_level (w : Word) (s : State) : (acceptCommand w s).level = s.level := rfl
@[simp] theorem acceptCommand_ram (w : Word) (s : State) : (acceptCommand w s).ram = s.ram := rfl
@[simp] theorem acceptCommand_scratch (w : Word) (s : State) : (acceptCommand w s).scratch = s.scratch := rfl
@[simp] theorem acceptCommand_pending (w : Word) (s : State) : (acceptCommand w s).pending = some w := rfl
@[simp] theorem acceptCommand_wait (w : Word) (s : State) : (acceptCommand w s).wait = Config.tCmd s.draws := rfl
@[simp] theorem acceptCommand_draws (w : Word) (s : State) : (acceptCommand w s).draws = s.draws + 1 := rfl
@[simp] theorem acceptCommand_host (w : Word) (s : State) : (acceptCommand w s).host = s.host := rfl
@[simp] theorem acceptCommand_d (w : Word) (s : State) : (acceptCommand w s).d = s.d := rfl
@[simp] theorem acceptCommand_bus (w : Word) (s : State) : (acceptCommand w s).bus = s.bus := rfl

@[simp] theorem placeCommand_cmd (w : Word) (s : State) : (placeCommand w s).cmd = w := rfl
@[simp] theorem placeCommand_status (w : Word) (s : State) : (placeCommand w s).status = acceptedStatus s.status := rfl
@[simp] theorem placeCommand_irqEn (w : Word) (s : State) : (placeCommand w s).irqEn = s.irqEn := rfl
@[simp] theorem placeCommand_fft (w : Word) (s : State) : (placeCommand w s).fft = s.fft := rfl
@[simp] theorem placeCommand_lt (w : Word) (s : State) : (placeCommand w s).lt = s.lt := rfl
@[simp] theorem placeCommand_level (w : Word) (s : State) : (placeCommand w s).level = s.level := rfl
@[simp] theorem placeCommand_ram (w : Word) (s : State) : (placeCommand w s).ram = s.ram := rfl
@[simp] theorem placeCommand_scratch (w : Word) (s : State) : (placeCommand w s).scratch = s.scratch := rfl
@[simp] theorem placeCommand_pending (w : Word) (s : State) : (placeCommand w s).pending = some w := rfl
@[simp] theorem placeCommand_wait (w : Word) (s : State) : (placeCommand w s).wait = 0 := rfl
@[simp] theorem placeCommand_draws (w : Word) (s : State) : (placeCommand w s).draws = s.draws := rfl
@[simp] theorem placeCommand_host (w : Word) (s : State) : (placeCommand w s).host = s.host := rfl
@[simp] theorem placeCommand_d (w : Word) (s : State) : (placeCommand w s).d = s.d := rfl
@[simp] theorem placeCommand_bus (w : Word) (s : State) : (placeCommand w s).bus = s.bus := rfl

@[simp] theorem levelInit_cmd (s : State) : (levelInit s).cmd = s.cmd := rfl
@[simp] theorem levelInit_status (s : State) : (levelInit s).status = { s.status with valValid := false } := rfl
@[simp] theorem levelInit_irqEn (s : State) : (levelInit s).irqEn = s.irqEn := rfl
@[simp] theorem levelInit_fft (s : State) : (levelInit s).fft = s.fft := rfl
@[simp] theorem levelInit_lt (s : State) : (levelInit s).lt = s.lt := rfl
@[simp] theorem levelInit_level (s : State) : (levelInit s).level = LevelRegs.initial := rfl
@[simp] theorem levelInit_ram (s : State) : (levelInit s).ram = s.ram := rfl
@[simp] theorem levelInit_scratch (s : State) : (levelInit s).scratch = s.scratch := rfl
@[simp] theorem levelInit_pending (s : State) : (levelInit s).pending = s.pending := rfl
@[simp] theorem levelInit_wait (s : State) : (levelInit s).wait = s.wait := rfl
@[simp] theorem levelInit_draws (s : State) : (levelInit s).draws = s.draws := rfl
@[simp] theorem levelInit_host (s : State) : (levelInit s).host = s.host := rfl
@[simp] theorem levelInit_d (s : State) : (levelInit s).d = s.d := rfl
@[simp] theorem levelInit_bus (s : State) : (levelInit s).bus = s.bus := rfl

@[simp] theorem resetBlock_cmd (s : State) : (resetBlock s).cmd = State.reset.cmd := rfl
@[simp] theorem resetBlock_status (s : State) : (resetBlock s).status = State.reset.status := rfl
@[simp] theorem resetBlock_irqEn (s : State) : (resetBlock s).irqEn = State.reset.irqEn := rfl
@[simp] theorem resetBlock_fft (s : State) : (resetBlock s).fft = State.reset.fft := rfl
@[simp] theorem resetBlock_lt (s : State) : (resetBlock s).lt = State.reset.lt := rfl
@[simp] theorem resetBlock_level (s : State) : (resetBlock s).level = State.reset.level := rfl
@[simp] theorem resetBlock_ram (s : State) : (resetBlock s).ram = abortedRam s := rfl
@[simp] theorem resetBlock_scratch (s : State) : (resetBlock s).scratch = State.reset.scratch := rfl
@[simp] theorem resetBlock_pending (s : State) : (resetBlock s).pending = State.reset.pending := rfl
@[simp] theorem resetBlock_wait (s : State) : (resetBlock s).wait = State.reset.wait := rfl
@[simp] theorem resetBlock_draws (s : State) : (resetBlock s).draws = s.draws + 1 := rfl
@[simp] theorem resetBlock_host (s : State) : (resetBlock s).host = s.host := rfl
@[simp] theorem resetBlock_d (s : State) : (resetBlock s).d = s.d := rfl
@[simp] theorem resetBlock_bus (s : State) : (resetBlock s).bus = s.bus := rfl

@[simp] theorem writeRam_cmd (base : Nat) (ws : List Word) (s : State) : (writeRam base ws s).cmd = s.cmd := rfl
@[simp] theorem writeRam_status (base : Nat) (ws : List Word) (s : State) : (writeRam base ws s).status = s.status := rfl
@[simp] theorem writeRam_irqEn (base : Nat) (ws : List Word) (s : State) : (writeRam base ws s).irqEn = s.irqEn := rfl
@[simp] theorem writeRam_fft (base : Nat) (ws : List Word) (s : State) : (writeRam base ws s).fft = s.fft := rfl
@[simp] theorem writeRam_lt (base : Nat) (ws : List Word) (s : State) : (writeRam base ws s).lt = s.lt := rfl
@[simp] theorem writeRam_level (base : Nat) (ws : List Word) (s : State) : (writeRam base ws s).level = s.level := rfl
@[simp] theorem writeRam_ram (base : Nat) (ws : List Word) (s : State) : (writeRam base ws s).ram = storeWords s.ram base ws := rfl
@[simp] theorem writeRam_scratch (base : Nat) (ws : List Word) (s : State) : (writeRam base ws s).scratch = s.scratch := rfl
@[simp] theorem writeRam_pending (base : Nat) (ws : List Word) (s : State) : (writeRam base ws s).pending = s.pending := rfl
@[simp] theorem writeRam_wait (base : Nat) (ws : List Word) (s : State) : (writeRam base ws s).wait = s.wait := rfl
@[simp] theorem writeRam_draws (base : Nat) (ws : List Word) (s : State) : (writeRam base ws s).draws = s.draws := rfl
@[simp] theorem writeRam_host (base : Nat) (ws : List Word) (s : State) : (writeRam base ws s).host = s.host := rfl
@[simp] theorem writeRam_d (base : Nat) (ws : List Word) (s : State) : (writeRam base ws s).d = s.d := rfl
@[simp] theorem writeRam_bus (base : Nat) (ws : List Word) (s : State) : (writeRam base ws s).bus = s.bus := rfl

@[simp] theorem writeScratch_cmd (re im : List Word) (s : State) : (writeScratch re im s).cmd = s.cmd := rfl
@[simp] theorem writeScratch_status (re im : List Word) (s : State) : (writeScratch re im s).status = s.status := rfl
@[simp] theorem writeScratch_irqEn (re im : List Word) (s : State) : (writeScratch re im s).irqEn = s.irqEn := rfl
@[simp] theorem writeScratch_fft (re im : List Word) (s : State) : (writeScratch re im s).fft = s.fft := rfl
@[simp] theorem writeScratch_lt (re im : List Word) (s : State) : (writeScratch re im s).lt = s.lt := rfl
@[simp] theorem writeScratch_level (re im : List Word) (s : State) : (writeScratch re im s).level = s.level := rfl
@[simp] theorem writeScratch_ram (re im : List Word) (s : State) : (writeScratch re im s).ram = s.ram := rfl
@[simp] theorem writeScratch_scratch (re im : List Word) (s : State) : (writeScratch re im s).scratch = storeWords (storeWords s.scratch reBase re) imBase im := rfl
@[simp] theorem writeScratch_pending (re im : List Word) (s : State) : (writeScratch re im s).pending = s.pending := rfl
@[simp] theorem writeScratch_wait (re im : List Word) (s : State) : (writeScratch re im s).wait = s.wait := rfl
@[simp] theorem writeScratch_draws (re im : List Word) (s : State) : (writeScratch re im s).draws = s.draws := rfl
@[simp] theorem writeScratch_host (re im : List Word) (s : State) : (writeScratch re im s).host = s.host := rfl
@[simp] theorem writeScratch_d (re im : List Word) (s : State) : (writeScratch re im s).d = s.d := rfl
@[simp] theorem writeScratch_bus (re im : List Word) (s : State) : (writeScratch re im s).bus = s.bus := rfl

@[simp] theorem readBusError_cmd (s : State) : (readBusError s).cmd = s.cmd := rfl
@[simp] theorem readBusError_status (s : State) : (readBusError s).status = busErrorStatus s.status := rfl
@[simp] theorem readBusError_irqEn (s : State) : (readBusError s).irqEn = s.irqEn := rfl
@[simp] theorem readBusError_fft (s : State) : (readBusError s).fft = s.fft := rfl
@[simp] theorem readBusError_lt (s : State) : (readBusError s).lt = s.lt := rfl
@[simp] theorem readBusError_level (s : State) : (readBusError s).level = s.level := rfl
@[simp] theorem readBusError_ram (s : State) : (readBusError s).ram = s.ram := rfl
@[simp] theorem readBusError_scratch (s : State) : (readBusError s).scratch = s.scratch := rfl
@[simp] theorem readBusError_pending (s : State) : (readBusError s).pending = s.pending := rfl
@[simp] theorem readBusError_wait (s : State) : (readBusError s).wait = s.wait := rfl
@[simp] theorem readBusError_draws (s : State) : (readBusError s).draws = s.draws := rfl
@[simp] theorem readBusError_host (s : State) : (readBusError s).host = s.host := rfl
@[simp] theorem readBusError_d (s : State) : (readBusError s).d = s.d := rfl
@[simp] theorem readBusError_bus (s : State) : (readBusError s).bus = some (.readDone 0 .error) := rfl

@[simp] theorem writeBusError_cmd (s : State) : (writeBusError s).cmd = s.cmd := rfl
@[simp] theorem writeBusError_status (s : State) : (writeBusError s).status = busErrorStatus s.status := rfl
@[simp] theorem writeBusError_irqEn (s : State) : (writeBusError s).irqEn = s.irqEn := rfl
@[simp] theorem writeBusError_fft (s : State) : (writeBusError s).fft = s.fft := rfl
@[simp] theorem writeBusError_lt (s : State) : (writeBusError s).lt = s.lt := rfl
@[simp] theorem writeBusError_level (s : State) : (writeBusError s).level = s.level := rfl
@[simp] theorem writeBusError_ram (s : State) : (writeBusError s).ram = s.ram := rfl
@[simp] theorem writeBusError_scratch (s : State) : (writeBusError s).scratch = s.scratch := rfl
@[simp] theorem writeBusError_pending (s : State) : (writeBusError s).pending = s.pending := rfl
@[simp] theorem writeBusError_wait (s : State) : (writeBusError s).wait = s.wait := rfl
@[simp] theorem writeBusError_draws (s : State) : (writeBusError s).draws = s.draws := rfl
@[simp] theorem writeBusError_host (s : State) : (writeBusError s).host = s.host := rfl
@[simp] theorem writeBusError_d (s : State) : (writeBusError s).d = s.d := rfl
@[simp] theorem writeBusError_bus (s : State) : (writeBusError s).bus = some (.writeDone .error) := rfl

@[simp] theorem countTransaction_cmd (s : State) : (countTransaction s).cmd = s.cmd := rfl
@[simp] theorem countTransaction_status (s : State) : (countTransaction s).status = s.status := rfl
@[simp] theorem countTransaction_irqEn (s : State) : (countTransaction s).irqEn = s.irqEn := rfl
@[simp] theorem countTransaction_fft (s : State) : (countTransaction s).fft = s.fft := rfl
@[simp] theorem countTransaction_lt (s : State) : (countTransaction s).lt = s.lt := rfl
@[simp] theorem countTransaction_level (s : State) : (countTransaction s).level = s.level := rfl
@[simp] theorem countTransaction_ram (s : State) : (countTransaction s).ram = s.ram := rfl
@[simp] theorem countTransaction_scratch (s : State) : (countTransaction s).scratch = s.scratch := rfl
@[simp] theorem countTransaction_pending (s : State) : (countTransaction s).pending = s.pending := rfl
@[simp] theorem countTransaction_wait (s : State) : (countTransaction s).wait = s.wait - 1 := rfl
@[simp] theorem countTransaction_draws (s : State) : (countTransaction s).draws = s.draws := rfl
@[simp] theorem countTransaction_host (s : State) : (countTransaction s).host = s.host := rfl
@[simp] theorem countTransaction_d (s : State) : (countTransaction s).d = s.d := rfl
@[simp] theorem countTransaction_bus (s : State) : (countTransaction s).bus = s.bus := rfl

@[simp] theorem clearFftValid_cmd (s : State) : (clearFftValid s).cmd = s.cmd := rfl
@[simp] theorem clearFftValid_status (s : State) : (clearFftValid s).status = { s.status with fftValid := false } := rfl
@[simp] theorem clearFftValid_irqEn (s : State) : (clearFftValid s).irqEn = s.irqEn := rfl
@[simp] theorem clearFftValid_fft (s : State) : (clearFftValid s).fft = s.fft := rfl
@[simp] theorem clearFftValid_lt (s : State) : (clearFftValid s).lt = s.lt := rfl
@[simp] theorem clearFftValid_level (s : State) : (clearFftValid s).level = s.level := rfl
@[simp] theorem clearFftValid_ram (s : State) : (clearFftValid s).ram = s.ram := rfl
@[simp] theorem clearFftValid_scratch (s : State) : (clearFftValid s).scratch = s.scratch := rfl
@[simp] theorem clearFftValid_pending (s : State) : (clearFftValid s).pending = s.pending := rfl
@[simp] theorem clearFftValid_wait (s : State) : (clearFftValid s).wait = s.wait := rfl
@[simp] theorem clearFftValid_draws (s : State) : (clearFftValid s).draws = s.draws := rfl
@[simp] theorem clearFftValid_host (s : State) : (clearFftValid s).host = s.host := rfl
@[simp] theorem clearFftValid_d (s : State) : (clearFftValid s).d = s.d := rfl
@[simp] theorem clearFftValid_bus (s : State) : (clearFftValid s).bus = s.bus := rfl

@[simp] theorem latchFft_cmd (e : Bool) (s : State) : (latchFft e s).cmd = s.cmd := rfl
@[simp] theorem latchFft_status (e : Bool) (s : State) : (latchFft e s).status = { s.status with fftEq := e, fftValid := true } := rfl
@[simp] theorem latchFft_irqEn (e : Bool) (s : State) : (latchFft e s).irqEn = s.irqEn := rfl
@[simp] theorem latchFft_fft (e : Bool) (s : State) : (latchFft e s).fft = { s.fft with ninA := s.fft.nin, noutA := s.fft.nout } := rfl
@[simp] theorem latchFft_lt (e : Bool) (s : State) : (latchFft e s).lt = s.lt := rfl
@[simp] theorem latchFft_level (e : Bool) (s : State) : (latchFft e s).level = s.level := rfl
@[simp] theorem latchFft_ram (e : Bool) (s : State) : (latchFft e s).ram = s.ram := rfl
@[simp] theorem latchFft_scratch (e : Bool) (s : State) : (latchFft e s).scratch = s.scratch := rfl
@[simp] theorem latchFft_pending (e : Bool) (s : State) : (latchFft e s).pending = s.pending := rfl
@[simp] theorem latchFft_wait (e : Bool) (s : State) : (latchFft e s).wait = s.wait := rfl
@[simp] theorem latchFft_draws (e : Bool) (s : State) : (latchFft e s).draws = s.draws := rfl
@[simp] theorem latchFft_host (e : Bool) (s : State) : (latchFft e s).host = s.host := rfl
@[simp] theorem latchFft_d (e : Bool) (s : State) : (latchFft e s).d = s.d := rfl
@[simp] theorem latchFft_bus (e : Bool) (s : State) : (latchFft e s).bus = s.bus := rfl

@[simp] theorem storeTransform_cmd (b : Buffers) (s : State) : (storeTransform b s).cmd = s.cmd := rfl
@[simp] theorem storeTransform_status (b : Buffers) (s : State) : (storeTransform b s).status = s.status := rfl
@[simp] theorem storeTransform_irqEn (b : Buffers) (s : State) : (storeTransform b s).irqEn = s.irqEn := rfl
@[simp] theorem storeTransform_fft (b : Buffers) (s : State) : (storeTransform b s).fft = s.fft := rfl
@[simp] theorem storeTransform_lt (b : Buffers) (s : State) : (storeTransform b s).lt = s.lt := rfl
@[simp] theorem storeTransform_level (b : Buffers) (s : State) : (storeTransform b s).level = s.level := rfl
@[simp] theorem storeTransform_ram (b : Buffers) (s : State) : (storeTransform b s).ram = storeWords s.ram specBase (spectrumWords s b) := rfl
@[simp] theorem storeTransform_scratch (b : Buffers) (s : State) : (storeTransform b s).scratch = storeWords (storeWords s.scratch reBase b.re.toList) imBase b.im.toList := rfl
@[simp] theorem storeTransform_pending (b : Buffers) (s : State) : (storeTransform b s).pending = s.pending := rfl
@[simp] theorem storeTransform_wait (b : Buffers) (s : State) : (storeTransform b s).wait = s.wait := rfl
@[simp] theorem storeTransform_draws (b : Buffers) (s : State) : (storeTransform b s).draws = s.draws := rfl
@[simp] theorem storeTransform_host (b : Buffers) (s : State) : (storeTransform b s).host = s.host := rfl
@[simp] theorem storeTransform_d (b : Buffers) (s : State) : (storeTransform b s).d = s.d := rfl
@[simp] theorem storeTransform_bus (b : Buffers) (s : State) : (storeTransform b s).bus = s.bus := rfl

@[simp] theorem clearLtValid_cmd (s : State) : (clearLtValid s).cmd = s.cmd := rfl
@[simp] theorem clearLtValid_status (s : State) : (clearLtValid s).status = { s.status with ltValid := false } := rfl
@[simp] theorem clearLtValid_irqEn (s : State) : (clearLtValid s).irqEn = s.irqEn := rfl
@[simp] theorem clearLtValid_fft (s : State) : (clearLtValid s).fft = s.fft := rfl
@[simp] theorem clearLtValid_lt (s : State) : (clearLtValid s).lt = s.lt := rfl
@[simp] theorem clearLtValid_level (s : State) : (clearLtValid s).level = s.level := rfl
@[simp] theorem clearLtValid_ram (s : State) : (clearLtValid s).ram = s.ram := rfl
@[simp] theorem clearLtValid_scratch (s : State) : (clearLtValid s).scratch = s.scratch := rfl
@[simp] theorem clearLtValid_pending (s : State) : (clearLtValid s).pending = s.pending := rfl
@[simp] theorem clearLtValid_wait (s : State) : (clearLtValid s).wait = s.wait := rfl
@[simp] theorem clearLtValid_draws (s : State) : (clearLtValid s).draws = s.draws := rfl
@[simp] theorem clearLtValid_host (s : State) : (clearLtValid s).host = s.host := rfl
@[simp] theorem clearLtValid_d (s : State) : (clearLtValid s).d = s.d := rfl
@[simp] theorem clearLtValid_bus (s : State) : (clearLtValid s).bus = s.bus := rfl

@[simp] theorem setLtValid_cmd (s : State) : (setLtValid s).cmd = s.cmd := rfl
@[simp] theorem setLtValid_status (s : State) : (setLtValid s).status = { s.status with ltValid := true } := rfl
@[simp] theorem setLtValid_irqEn (s : State) : (setLtValid s).irqEn = s.irqEn := rfl
@[simp] theorem setLtValid_fft (s : State) : (setLtValid s).fft = s.fft := rfl
@[simp] theorem setLtValid_lt (s : State) : (setLtValid s).lt = s.lt := rfl
@[simp] theorem setLtValid_level (s : State) : (setLtValid s).level = s.level := rfl
@[simp] theorem setLtValid_ram (s : State) : (setLtValid s).ram = s.ram := rfl
@[simp] theorem setLtValid_scratch (s : State) : (setLtValid s).scratch = s.scratch := rfl
@[simp] theorem setLtValid_pending (s : State) : (setLtValid s).pending = s.pending := rfl
@[simp] theorem setLtValid_wait (s : State) : (setLtValid s).wait = s.wait := rfl
@[simp] theorem setLtValid_draws (s : State) : (setLtValid s).draws = s.draws := rfl
@[simp] theorem setLtValid_host (s : State) : (setLtValid s).host = s.host := rfl
@[simp] theorem setLtValid_d (s : State) : (setLtValid s).d = s.d := rfl
@[simp] theorem setLtValid_bus (s : State) : (setLtValid s).bus = s.bus := rfl

@[simp] theorem writeBands_cmd (b : Bounds) (s : State) : (writeBands b s).cmd = s.cmd := rfl
@[simp] theorem writeBands_status (b : Bounds) (s : State) : (writeBands b s).status = s.status := rfl
@[simp] theorem writeBands_irqEn (b : Bounds) (s : State) : (writeBands b s).irqEn = s.irqEn := rfl
@[simp] theorem writeBands_fft (b : Bounds) (s : State) : (writeBands b s).fft = s.fft := rfl
@[simp] theorem writeBands_level (b : Bounds) (s : State) : (writeBands b s).level = s.level := rfl
@[simp] theorem writeBands_ram (b : Bounds) (s : State) : (writeBands b s).ram = s.ram := rfl
@[simp] theorem writeBands_scratch (b : Bounds) (s : State) : (writeBands b s).scratch = s.scratch := rfl
@[simp] theorem writeBands_pending (b : Bounds) (s : State) : (writeBands b s).pending = s.pending := rfl
@[simp] theorem writeBands_wait (b : Bounds) (s : State) : (writeBands b s).wait = s.wait := rfl
@[simp] theorem writeBands_draws (b : Bounds) (s : State) : (writeBands b s).draws = s.draws := rfl
@[simp] theorem writeBands_host (b : Bounds) (s : State) : (writeBands b s).host = s.host := rfl
@[simp] theorem writeBands_d (b : Bounds) (s : State) : (writeBands b s).d = s.d := rfl
@[simp] theorem writeBands_bus (b : Bounds) (s : State) : (writeBands b s).bus = s.bus := rfl

@[simp] theorem advanceLevel_cmd (s : State) : (advanceLevel s).cmd = s.cmd := rfl
@[simp] theorem advanceLevel_status (s : State) : (advanceLevel s).status = { s.status with valValid := true } := rfl
@[simp] theorem advanceLevel_irqEn (s : State) : (advanceLevel s).irqEn = s.irqEn := rfl
@[simp] theorem advanceLevel_fft (s : State) : (advanceLevel s).fft = s.fft := rfl
@[simp] theorem advanceLevel_lt (s : State) : (advanceLevel s).lt = { s.lt with fpsEff := effFps s.lt.fps } := rfl
@[simp] theorem advanceLevel_level (s : State) : (advanceLevel s).level = levelOfLanes (Lanes.ofBand (laneAfter s (ratesOf (effFps s.lt.fps) s.lt.frame))) := rfl
@[simp] theorem advanceLevel_ram (s : State) : (advanceLevel s).ram = s.ram := rfl
@[simp] theorem advanceLevel_scratch (s : State) : (advanceLevel s).scratch = s.scratch := rfl
@[simp] theorem advanceLevel_pending (s : State) : (advanceLevel s).pending = s.pending := rfl
@[simp] theorem advanceLevel_wait (s : State) : (advanceLevel s).wait = s.wait := rfl
@[simp] theorem advanceLevel_draws (s : State) : (advanceLevel s).draws = s.draws := rfl
@[simp] theorem advanceLevel_host (s : State) : (advanceLevel s).host = s.host := rfl
@[simp] theorem advanceLevel_d (s : State) : (advanceLevel s).d = s.d := rfl
@[simp] theorem advanceLevel_bus (s : State) : (advanceLevel s).bus = s.bus := rfl

end Sys2Proof.Laws
end

