-- ==== Sys2Proof/Laws/Ops.lean ====
section
/-! SUPPORT. One lemma per shared operation that says everything it can do: the bodies of the commands, a transaction, a turn of the host, a completion and a step. -/

namespace Sys2Proof.Laws

open Sys2Proof.Machine

/-! The bodies of the commands. -/

/-- FFT_CONFIG ends in one of three ways. -/
theorem fftConfig_cases (e : Bool) (s : State) :
    (fftSizeLegal s.fft.nout.toNat = false ∧ fftConfig e s = (clearFftValid s, .fftBadSize)) ∨
    (fftSizeLegal s.fft.nout.toNat = true ∧ 2 * s.fft.nout.toNat < s.fft.nin.toNat ∧
      fftConfig e s = (clearFftValid s, .fftBadInput)) ∨
    (fftSizeLegal s.fft.nout.toNat = true ∧ s.fft.nin.toNat ≤ 2 * s.fft.nout.toNat ∧
      fftConfig e s = (latchFft e (fillTables e s), .ok)) := by
  cases h : fftSizeLegal s.fft.nout.toNat
  · exact .inl ⟨rfl, by simp [fftConfig, h, raiseCode]⟩
  · by_cases hn : 2 * s.fft.nout.toNat < s.fft.nin.toNat
    · exact .inr (.inl ⟨rfl, hn, by simp [fftConfig, h, hn, raiseCode]⟩)
    · exact .inr (.inr ⟨rfl, by omega, by simp [fftConfig, h, hn, succeed]⟩)

/-- FFT_TRANSFORM ends in one of two ways. -/
theorem fftTransform_cases (s : State) :
    (s.status.fftValid = false ∧ fftTransform s = (s, .fftNotConfigured)) ∨
    (s.status.fftValid = true ∧ fftTransform s = (storeTransform (transformed s) s, .ok)) := by
  cases h : s.status.fftValid <;> simp [fftTransform, h, raiseCode, succeed]

/-- LT_CONFIG ends in one of three ways. -/
theorem ltConfig_cases (s : State) :
    (ltParamsBad s.lt.srate.toNat s.lt.fftSize.toNat s.lt.nbins.toNat = true ∧
      ltConfig s = (clearLtValid s, .ltBadParam)) ∨
    (ltParamsBad s.lt.srate.toNat s.lt.fftSize.toNat s.lt.nbins.toNat = false ∧
      boundsGood s.lt.nbins.toNat (configuredBounds s) = false ∧
      ltConfig s = (clearLtValid s, .ltBadBands)) ∨
    (ltParamsBad s.lt.srate.toNat s.lt.fftSize.toNat s.lt.nbins.toNat = false ∧
      boundsGood s.lt.nbins.toNat (configuredBounds s) = true ∧
      ltConfig s = (setLtValid (levelInit (writeBands (configuredBounds s) s)), .ok)) := by
  cases h : ltParamsBad s.lt.srate.toNat s.lt.fftSize.toNat s.lt.nbins.toNat <;>
    cases g : boundsGood s.lt.nbins.toNat (configuredBounds s) <;>
    simp [ltConfig, h, g, raiseCode, succeed]

/-- LT_UPDATE ends in one of three ways. -/
theorem ltUpdate_cases (a : Bool) (s : State) :
    (s.status.ltValid = false ∧ ltUpdate a s = (s, .ltNotConfigured)) ∨
    (s.status.ltValid = true ∧ a = true ∧ ltUpdate a s = (s, .ok)) ∨
    (s.status.ltValid = true ∧ a = false ∧ ltUpdate a s = (advanceLevel s, .ok)) := by
  cases h : s.status.ltValid <;> cases a <;> simp [ltUpdate, h, raiseCode, succeed]

/-! The tables of FFT_CONFIG. -/

@[simp] theorem length_bitrevTable (w : Nat) : (bitrevTable w).length = Config.wMax := by
  simp [bitrevTable]

@[simp] theorem length_eqTable (k : Word) (n : Nat) : (eqTable k n).length = Config.oMax := by
  simp [eqTable]

@[simp] theorem length_spectrumWords (s : State) (b : Buffers) : (spectrumWords s b).length = noutA s := by
  simp [spectrumWords]

theorem fillTables_ram (e : Bool) (s : State) :
    (fillTables e s).ram =
      if e then storeWords (storeWords s.ram bitrevBase (bitrevTable (2 * s.fft.nout.toNat))) eqBase
        (eqTable s.fft.eqK s.fft.nout.toNat)
      else storeWords s.ram bitrevBase (bitrevTable (2 * s.fft.nout.toNat)) := by
  cases e <;> rfl

/-- Filling the tables changes the RAM and nothing else. -/
theorem fillTables_eq (e : Bool) (s : State) :
    fillTables e s = { s with ram := (fillTables e s).ram } := by
  cases e <;> rfl

/-! Completion. -/

/-- Every command's step is the completion of a body: it answers a next state. -/
theorem exec_is_completion (i : Instr) (s : State) : ∃ r, exec i s = .next (complete r) := by
  cases i <;> exact ⟨_, rfl⟩

/-- A completion of a pending word answers a next state too. -/
theorem completePending_is_completion (w : Word) (s : State) :
    ∃ r, completePending w s = .next (complete r) := by
  cases h : decode w with
  | ok i => simpa [completePending, h] using exec_is_completion i s
  | error e => exact ⟨raiseCode .illegalCmd s, by simp [completePending, h, illegalCommand]⟩

/-- Everything a step can do: complete a decoded command, complete an Illegal word, or take a turn of the host. -/
theorem step_cases {s t : State} (h : step s = .next t) :
    (∃ w i, s.pending = some w ∧ engineReady s = true ∧ decode w = .ok i ∧ exec i s = .next t) ∨
    (∃ w e, s.pending = some w ∧ engineReady s = true ∧ decode w = .error e ∧
      t = illegalCommand s) ∨
    ((s.pending = none ∨ engineReady s = false) ∧ t = hostTurn s) := by
  unfold step blockStep at h
  cases hp : s.pending with
  | none => rw [hp] at h; exact .inr (.inr ⟨.inl rfl, by injection h with h; exact h.symm⟩)
  | some w =>
    cases hr : engineReady s with
    | false =>
      simp only [hp, hr] at h
      exact .inr (.inr ⟨.inr rfl, by injection h with h; exact h.symm⟩)
    | true =>
      simp only [hp, hr, if_true, completePending] at h
      cases hd : decode w with
      | ok i => rw [hd] at h; exact .inl ⟨w, i, rfl, rfl, hd, h⟩
      | error e =>
        rw [hd] at h
        exact .inr (.inl ⟨w, e, rfl, rfl, hd, by injection h with h; exact h.symm⟩)

/-! The address map. -/

theorem decodedOffset_lt (off : Word) : decodedOffset off < 0x10000 := by
  unfold decodedOffset windowOffset
  omega

/-- Whatever BASE_ADDR is, the block decodes the offset. -/
theorem windowOffset_busAddress (off : Word) : windowOffset (busAddress off) = decodedOffset off := by
  unfold decodedOffset windowOffset busAddress Config.baseAddr
  omega

theorem mem_of_lookup {l : List (Nat × Region)} {k : Nat} {r : Region} (h : l.lookup k = some r) :
    (k, r) ∈ l := by
  induction l with
  | nil => simp at h
  | cons c l ih =>
    obtain ⟨k', v⟩ := c
    by_cases hk : k = k'
    · subst hk
      simp only [List.lookup_cons, beq_self_eq_true, Option.some.injEq] at h
      exact h ▸ List.mem_cons_self
    · simp only [List.lookup_cons, beq_eq_false_iff_ne.2 hk] at h
      exact List.mem_cons_of_mem _ (ih h)

theorem lookup_ram_free (off : Nat) (r : Region) (h : registerMap.lookup off = some r) :
    (∀ i, r ≠ .timeRam i) ∧ (∀ i, r ≠ .specRam i) := by
  have hm := mem_of_lookup h
  simp only [registerMap, List.mem_cons, Prod.mk.injEq,
    List.not_mem_nil, or_false] at hm
  constructor <;> intro i hr <;> subst hr <;> simp at hm

/-- An aligned offset that names TIME[i] is that entry's offset. -/
theorem regionOf_timeRam {off i : Nat} (ho : off < 0x10000) (h : regionOf off = .timeRam i) :
    i < Config.wMax ∧ timeBase + 4 * i ≤ off ∧ off < timeBase + 4 * i + 4 := by
  unfold regionOf at h
  split at h
  · cases hl : registerMap.lookup off with
    | none => simp [hl] at h
    | some r => rw [hl] at h; exact absurd h ((lookup_ram_free off r hl).1 i)
  · repeat' split at h
    all_goals first
      | (simp only [Region.timeRam.injEq, timeBase, specBase, Config.wMax] at *; omega)
      | simp at h

/-- An aligned offset that names SPEC[i] is that entry's offset. -/
theorem regionOf_specRam {off i : Nat} (ho : off < 0x10000) (h : regionOf off = .specRam i) :
    i < Config.oMax ∧ specBase + 4 * i ≤ off ∧ off < specBase + 4 * i + 4 := by
  unfold regionOf at h
  split at h
  · cases hl : registerMap.lookup off with
    | none => simp [hl] at h
    | some r => rw [hl] at h; exact absurd h ((lookup_ram_free off r hl).2 i)
  · repeat' split at h
    all_goals first
      | (simp only [Region.specRam.injEq, timeBase, specBase, eqBase, Config.oMax] at *; omega)
      | simp at h

/-! Transactions and the host's turn. -/

/-- A read is refused, or gives the word and changes nothing else. -/
theorem memRead_cases (width : Nat) (off : Word) (s : State) :
    (accessRefused s width off = true ∧ memRead width off s = readBusError s) ∨
    (accessRefused s width off = false ∧
      memRead width off s =
        { s with bus := some (.readDone (readValue s (regionOf (decodedOffset off))) .okay) }) := by
  cases h : accessRefused s width off <;> simp [memRead, h]

/-- A write is refused, or has the effect of its region. -/
theorem memWrite_cases (width : Nat) (off data : Word) (s : State) :
    ((accessRefused s width off = true ∨ readOnly (regionOf (decodedOffset off)) = true) ∧
      memWrite width off data s = writeBusError s) ∨
    (accessRefused s width off = false ∧ readOnly (regionOf (decodedOffset off)) = false ∧
      memWrite width off data s =
        { writeValue data s (regionOf (decodedOffset off)) with bus := some (.writeDone .okay) }) := by
  cases h : accessRefused s width off <;> cases g : readOnly (regionOf (decodedOffset off)) <;>
    simp [memWrite, h, g]

/-- The effects a write can have on its region's word. -/
theorem writeValue_cases (data : Word) (s : State) (r : Region) :
    (r = .ctrl ∧ data.getLsbD 0 = true ∧ writeValue data s r = resetBlock s) ∨
    (r = .cmd ∧ writeValue data s r = acceptCommand data s) ∨
    (∃ i, r = .timeRam i ∧ writeValue data s r = writeRamEntry timeBase i data s) ∨
    (∃ i, r = .specRam i ∧ writeValue data s r = writeRamEntry specBase i data s) ∨
    (∃ st ie f l, writeValue data s r = { s with status := st, irqEn := ie, fft := f, lt := l } ∧
      (st = s.status ∨ st = clearWrittenOnes data s.status) ∧
      f.ninA = s.fft.ninA ∧ f.noutA = s.fft.noutA ∧
      l.fpsEff = s.lt.fpsEff ∧ l.bandStart = s.lt.bandStart ∧ l.bandStop = s.lt.bandStop) := by
  cases r
  case ctrl =>
    by_cases h : data.getLsbD 0 = true
    · exact .inl ⟨rfl, h, by simp only [writeValue, h, if_true]⟩
    · exact .inr (.inr (.inr (.inr ⟨s.status, s.irqEn, s.fft, s.lt,
        by simp only [writeValue, h]; rfl, .inl rfl, rfl, rfl, rfl, rfl, rfl⟩)))
  case cmd => exact .inr (.inl ⟨rfl, rfl⟩)
  case timeRam i => exact .inr (.inr (.inl ⟨i, rfl, rfl⟩))
  case specRam i => exact .inr (.inr (.inr (.inl ⟨i, rfl, rfl⟩)))
  case status =>
    exact .inr (.inr (.inr (.inr ⟨clearWrittenOnes data s.status, s.irqEn, s.fft, s.lt, rfl, .inr rfl,
      rfl, rfl, rfl, rfl, rfl⟩)))
  all_goals
    exact .inr (.inr (.inr (.inr ⟨s.status, _, _, _, rfl, .inl rfl, rfl, rfl, rfl, rfl, rfl⟩)))

/-- A turn of the host with no statement left changes nothing. -/
theorem hostTurn_idle {s : State} (h : s.host = []) : hostTurn s = s := by
  simp [hostTurn, h]

/-- Every step answers a next state: the machine never stops. -/
theorem step_answers (s : State) : ∃ t, step s = .next t := by
  unfold step blockStep
  cases s.pending with
  | none => exact ⟨_, rfl⟩
  | some w =>
    simp only
    split
    · obtain ⟨r, h⟩ := completePending_is_completion w s
      exact ⟨_, h⟩
    · exact ⟨_, rfl⟩

end Sys2Proof.Laws
end

