-- ==== Sys2Proof/Laws/PerInstr.lean ====
section
/-! SUPPORT. Statements for all instructions, one lemma per constructor. -/

namespace Sys2Proof.Laws.RoundTrip

/-- The word of a command is well formed, has RSV zero, and decodes to that command and, as bytes, to it and the bytes that follow (30_encoding.md R110, R113, R116). -/
def Statement (i : Instr) : Prop :=
  wordWellFormed (encode i) = true ∧ rsvOf (encode i) = 0 ∧ decode (encode i) = .ok i ∧
    ∀ rest, decodeBytes (bytesOfWord (encode i) ++ rest) = .ok (i, rest)

/-- The byte form follows from the word form. -/
theorem decodeBytes_of_decode {w : Word} {i : Instr} (h : decode w = .ok i) (rest : List Byte) :
    decodeBytes (bytesOfWord w ++ rest) = .ok (i, rest) := by
  simp only [bytesOfWord, List.cons_append, List.nil_append, decodeBytes, Laws.wordOfBytes_byteLane, h]
  rfl

theorem nop : Statement .nop := ⟨by decide, by decide, by decide, decodeBytes_of_decode (by decide)⟩
theorem fftConfig (e : Bool) : Statement (.fftConfig e) := by
  cases e <;> exact ⟨by decide, by decide, by decide, decodeBytes_of_decode (by decide)⟩
theorem fftTransform : Statement .fftTransform :=
  ⟨by decide, by decide, by decide, decodeBytes_of_decode (by decide)⟩
theorem ltConfig : Statement .ltConfig := ⟨by decide, by decide, by decide, decodeBytes_of_decode (by decide)⟩
theorem ltUpdate (a : Bool) : Statement (.ltUpdate a) := by
  cases a <;> exact ⟨by decide, by decide, by decide, decodeBytes_of_decode (by decide)⟩
theorem ltRestart : Statement .ltRestart :=
  ⟨by decide, by decide, by decide, decodeBytes_of_decode (by decide)⟩

end Sys2Proof.Laws.RoundTrip
end

