-- ==== Sys2Proof/Laws/Weights.lean ====
section
/-! SUPPORT. Every equalization weight is decided: both ends of its enclosure round to one word, whatever k is. Where two numbers round to different words, twice a rounding boundary between them is a small integer times a power of two, so a fraction with a small denominator would lie in the enclosure of the logarithm; a pair of neighbouring fractions around the enclosure, found by search and checked, shows that none does. -/

namespace Sys2Proof.Laws

open Sys2Proof.Machine

/-! Rounding boundaries. -/

/-- Twice the rounded integer is within one of twice the quotient. -/
theorem roundHalfEven_bounds (n d : Nat) (hd : 0 < d) :
    2 * n ≤ (2 * roundHalfEven n d + 1) * d ∧ 2 * roundHalfEven n d * d ≤ 2 * n + d := by
  have h := Nat.div_add_mod n d
  have hr := Nat.mod_lt n hd
  unfold roundHalfEven
  simp only
  have e : (2 * (n / d) + 1) * d = 2 * (d * (n / d)) + d := by ring
  have e' : 2 * (n / d) * d = 2 * (d * (n / d)) := by ring
  have f : (2 * (n / d + 1) + 1) * d = 2 * (d * (n / d)) + 3 * d := by ring
  have f' : 2 * (n / d + 1) * d = 2 * (d * (n / d)) + 2 * d := by ring
  repeat' split
  all_goals first
    | rw [e, e']; omega
    | rw [f, f']; omega

/-- The integer part is below the power of two that its dropped bits leave. -/
theorem lt_two_pow_dropBits (q : Nat) : q < 2 ^ (24 + dropBits q) :=
  lt_of_lt_of_le Nat.lt_log2_self (Nat.pow_le_pow_right (by decide) (by unfold dropBits; omega))

/-- Two numbers that round to different patterns have twice a boundary of at most 25 bits, times a power of two, between them. -/
theorem boundary_between {n m d : Nat} (hd : 0 < d) (hnm : n ≤ m)
    (h : roundMagnitude n d ≠ roundMagnitude m d) :
    ∃ b s, 0 < b ∧ b < 2 ^ 25 ∧ 2 * n ≤ d * (b * 2 ^ s) ∧ d * (b * 2 ^ s) ≤ 2 * m := by
  have hq : n / d ≤ m / d := Nat.div_le_div_right hnm
  have hm : m < d * 2 ^ (24 + dropBits (m / d)) := by
    have := lt_two_pow_dropBits (m / d)
    exact (Nat.div_lt_iff_lt_mul hd).1 this |>.trans_eq (Nat.mul_comm _ _)
  rcases eq_or_ne (dropBits (n / d)) (dropBits (m / d)) with hs | hs
  · have hr : roundHalfEven n (d * 2 ^ dropBits (m / d)) ≠ roundHalfEven m (d * 2 ^ dropBits (m / d)) := by
      intro hr
      exact h (by unfold roundMagnitude; simp only [hs, hr])
    obtain ⟨a1, a2⟩ := roundHalfEven_bounds n (d * 2 ^ dropBits (m / d)) (by positivity)
    obtain ⟨b1, b2⟩ := roundHalfEven_bounds m (d * 2 ^ dropBits (m / d)) (by positivity)
    generalize hE : d * 2 ^ dropBits (m / d) = E at *
    generalize roundHalfEven n E = r at *
    generalize roundHalfEven m E = t at *
    have hEpos : 0 < E := hE ▸ Nat.mul_pos hd (by positivity)
    have hlt : r < t := by
      by_contra hge
      have hgt : t + 1 ≤ r := by omega
      have : (2 * (t + 1)) * E ≤ 2 * r * E := Nat.mul_le_mul_right _ (by omega)
      have hmn : m ≤ n := by nlinarith
      exact h (by rw [le_antisymm hnm hmn])
    have h2 : (2 * (r + 1)) * E ≤ 2 * t * E := Nat.mul_le_mul_right _ (by omega)
    have key : d * ((2 * r + 1) * 2 ^ dropBits (m / d)) = (2 * r + 1) * E := by rw [← hE]; ring
    have hle : (2 * r + 1) * E ≤ 2 * m := by nlinarith
    refine ⟨2 * r + 1, dropBits (m / d), by omega, ?_, key ▸ a1, key ▸ hle⟩
    have hlt' : (2 * r + 1) * E < 2 ^ 25 * E := by
      calc (2 * r + 1) * E ≤ 2 * m := hle
        _ < 2 * (d * 2 ^ (24 + dropBits (m / d))) := by omega
        _ = 2 ^ 25 * E := by rw [← hE, pow_add]; ring
    exact lt_of_mul_lt_mul_right hlt' (Nat.zero_le _)
  · have hlog : Nat.log2 (n / d) ≤ Nat.log2 (m / d) := by
      simp only [Nat.log2_eq_log_two]
      exact Nat.log_mono_right hq
    have hlt : dropBits (n / d) < dropBits (m / d) := by unfold dropBits at *; omega
    refine ⟨2 ^ 24, dropBits (m / d), by decide, by decide, ?_, ?_⟩
    · have h1 := lt_two_pow_dropBits (n / d)
      have h2 : n < d * 2 ^ (24 + dropBits (n / d)) := (Nat.div_lt_iff_lt_mul hd).1 h1 |>.trans_eq (Nat.mul_comm _ _)
      have h3 : d * 2 ^ (24 + dropBits (n / d) + 1) ≤ d * 2 ^ (24 + dropBits (m / d)) :=
        Nat.mul_le_mul_left _ (Nat.pow_le_pow_right (by decide) (by omega))
      rw [pow_succ] at h3
      rw [← pow_add]
      nlinarith
    · have hne : m / d ≠ 0 := by
        intro h0
        simp [h0, dropBits] at hlt
      have h1 : 2 ^ Nat.log2 (m / d) ≤ m / d := Nat.log2_self_le hne
      have h2 : 24 + dropBits (m / d) = Nat.log2 (m / d) + 1 := by unfold dropBits at *; omega
      rw [← pow_add, h2, pow_succ]
      have h3 := Nat.mul_div_le m d
      have h4 : d * 2 ^ Nat.log2 (m / d) ≤ d * (m / d) := Nat.mul_le_mul_left _ h1
      nlinarith

/-! Fractions of small denominator. -/

/-- Between two neighbouring fractions a/b and c/d every fraction has a denominator of at least b + d. -/
theorem denominator_between {a b c d n e : Nat} (h : b * c = a * d + 1) (h1 : a * e < n * b)
    (h2 : n * d < c * e) : b + d ≤ e := by
  have x : n * b ≥ a * e + 1 := h1
  have y : c * e ≥ n * d + 1 := h2
  zify at *
  nlinarith [mul_le_mul_of_nonneg_left x (Int.natCast_nonneg d), mul_le_mul_of_nonneg_left y (Int.natCast_nonneg b),
    congrArg (· * (e : ℤ)) h]

/-- Two fractions a/b and c/d. -/
structure Fractions where
  a : Nat
  b : Nat
  c : Nat
  d : Nat
deriving DecidableEq, Repr

/-- Neighbouring fractions around lo/t .. hi/t, by the Stern-Brocot search with whole runs, until b + d is above q. Nothing is proved of the search; its result is checked. -/
def neighbours (lo hi t q : Nat) : Nat → Fractions → Fractions
  | 0, f => f
  | fuel + 1, f =>
    if q < f.b + f.d then f
    else
      let k := (lo * f.b - f.a * t - 1) / (f.c * t - lo * f.d)
      let a := f.a + k * f.c
      let b := f.b + k * f.d
      let l := (f.c * t - hi * f.d - 1) / (hi * b - a * t)
      neighbours lo hi t q fuel ⟨a, b, f.c + l * a, f.d + l * b⟩

/-- The denominators below which no fraction may lie in an enclosure of a logarithm. -/
abbrev denominatorBound : Nat := 2 ^ 38

/-- The neighbours stand around the enclosure and leave no small denominator in it, and the enclosure is not too near zero. -/
def separates (f : Fractions) (x : Enclosure) : Bool :=
  f.b * f.c == f.a * f.d + 1 && decide (f.a * 2 ^ precision < x.lo * f.b) &&
    decide (x.hi * f.d < f.c * 2 ^ precision) && decide (denominatorBound < f.b + f.d) &&
    decide (x.lo ≤ x.hi) && decide (2 ^ precision * 2 ^ 25 ≤ denominatorBound * x.lo)

/-- The search finds separating neighbours. -/
def separated (x : Enclosure) : Bool :=
  separates (neighbours x.lo x.hi (2 ^ precision) denominatorBound 64 ⟨0, 1, 1, 0⟩) x

/-- −ln(m/2^11) enclosed, from an enclosure of ln 2 that is given. -/
def negLnFrom (l : Enclosure) (m : Nat) : Enclosure :=
  { lo := (11 - Nat.log2 m) * l.lo - (lnMantissa precision m).hi
    hi := (11 - Nat.log2 m) * l.hi - (lnMantissa precision m).lo }

/-- The enclosure of ln 2, evaluated. -/
theorem ln2_value : ln2Enclosure precision = ⟨54916777467707473351141471098, 54916777467707473351141471300⟩ := by
  decide +kernel

theorem all_separated :
    (List.range' 1 2047).all (fun m => separated (negLnFrom ⟨54916777467707473351141471098, 54916777467707473351141471300⟩ m)) = true := by
  decide +kernel

/-! From ratios to weights. -/

/-- Doubling numerator and denominator does not change the series. -/
theorem artanhTerms_double (a b : Nat) (fuel k t : Nat) :
    artanhTerms (2 * a) (2 * b) fuel k t = artanhTerms a b fuel k t := by
  induction fuel generalizing k t with
  | zero => rfl
  | succ fuel ih =>
    have e : t * (2 * a * (2 * a)) / (2 * b * (2 * b)) = t * (a * a) / (b * b) := by
      rw [show t * (2 * a * (2 * a)) = 4 * (t * (a * a)) by ring, show 2 * b * (2 * b) = 4 * (b * b) by ring]
      exact Nat.mul_div_mul_left _ _ (by decide)
    rw [artanhTerms, artanhTerms, e, ih]

theorem artanhEnclosure_double (p a b : Nat) :
    artanhEnclosure p (2 * a) (2 * b) = artanhEnclosure p a b := by
  have e : 2 ^ p * (2 * a) / (2 * b) = 2 ^ p * a / b := by
    rw [show 2 ^ p * (2 * a) = 2 * (2 ^ p * a) by ring]
    exact Nat.mul_div_mul_left _ _ (by decide)
  simp only [artanhEnclosure, artanhTerms_double, e]

theorem log2_double {m : Nat} (hm : 0 < m) : Nat.log2 (2 * m) = Nat.log2 m + 1 := by
  rw [Nat.log2_eq_log_two, Nat.log2_eq_log_two, mul_comm]
  exact Nat.log_mul_base (by decide) (by omega)

/-- m/2^j and 2m/2^(j+1) have the same enclosure. -/
theorem negLnEnclosure_double (p : Nat) {m : Nat} (hm : 0 < m) (j : Nat) :
    negLnEnclosure p (2 * m) (j + 1) = negLnEnclosure p m j := by
  have e : lnMantissa p (2 * m) = lnMantissa p m := by
    unfold lnMantissa
    rw [log2_double hm, pow_succ, show 2 * m - 2 ^ Nat.log2 m * 2 = 2 * (m - 2 ^ Nat.log2 m) by omega,
      show 2 * m + 2 ^ Nat.log2 m * 2 = 2 * (m + 2 ^ Nat.log2 m) by ring, artanhEnclosure_double]
  unfold negLnEnclosure
  rw [e, log2_double hm, Nat.add_sub_add_right]

/-- Every ratio below 1 over a power of two up to 2^11 is one over 2^11. -/
theorem negLnEnclosure_scale (p : Nat) {m : Nat} (hm : 0 < m) (j r : Nat) :
    negLnEnclosure p (m * 2 ^ r) (j + r) = negLnEnclosure p m j := by
  induction r with
  | zero => simp
  | succ r ih =>
    rw [show m * 2 ^ (r + 1) = 2 * (m * 2 ^ r) by ring, ← Nat.add_assoc,
      negLnEnclosure_double p (Nat.mul_pos hm (by positivity)), ih]

/-- The enclosure of −ln(m/2^j) is separated, for every ratio that a weight can have. -/
theorem negLn_separated {m j : Nat} (hj : j ≤ 11) (hm : 0 < m) (hlt : m < 2 ^ j) :
    separated (negLnEnclosure precision m j) = true := by
  have hs := negLnEnclosure_scale precision hm j (11 - j)
  rw [show j + (11 - j) = 11 by omega] at hs
  have hb : m * 2 ^ (11 - j) < 2048 := by
    calc m * 2 ^ (11 - j) < 2 ^ j * 2 ^ (11 - j) := Nat.mul_lt_mul_of_pos_right hlt (by positivity)
      _ = 2048 := by rw [← pow_add, show j + (11 - j) = 11 by omega]; rfl
  have h := List.all_eq_true.1 all_separated (m * 2 ^ (11 - j))
    (List.mem_range'_1.2 ⟨Nat.mul_pos hm (by positivity), by omega⟩)
  rw [← ln2_value] at h
  rw [← hs]
  exact h

/-- No fraction of a small denominator lies in a separated enclosure. -/
theorem denominator_of_separated {x : Enclosure} (h : separated x = true) {n e : Nat}
    (h1 : x.lo * e ≤ n * 2 ^ precision) (h2 : n * 2 ^ precision ≤ x.hi * e) (he : 0 < e) :
    denominatorBound < e := by
  unfold separated separates at h
  generalize neighbours x.lo x.hi (2 ^ precision) denominatorBound 64 ⟨0, 1, 1, 0⟩ = f at h
  simp only [Bool.and_eq_true, beq_iff_eq, decide_eq_true_eq] at h
  obtain ⟨⟨⟨⟨⟨hd, ha⟩, hc⟩, hq⟩, -⟩, -⟩ := h
  have hp : 0 < 2 ^ precision := by positivity
  have g1 : f.a * e < n * f.b := by
    apply Nat.lt_of_mul_lt_mul_right (a := 2 ^ precision)
    calc f.a * e * 2 ^ precision = f.a * 2 ^ precision * e := by ring
      _ < x.lo * f.b * e := Nat.mul_lt_mul_of_pos_right ha he
      _ = x.lo * e * f.b := by ring
      _ ≤ n * 2 ^ precision * f.b := Nat.mul_le_mul_right _ h1
      _ = n * f.b * 2 ^ precision := by ring
  have g2 : n * f.d < f.c * e := by
    apply Nat.lt_of_mul_lt_mul_right (a := 2 ^ precision)
    calc n * f.d * 2 ^ precision = n * 2 ^ precision * f.d := by ring
      _ ≤ x.hi * e * f.d := Nat.mul_le_mul_right _ h2
      _ = x.hi * f.d * e := by ring
      _ < f.c * 2 ^ precision * e := Nat.mul_lt_mul_of_pos_right hc he
      _ = f.c * e * 2 ^ precision := by ring
  exact lt_of_lt_of_le hq (denominator_between hd g1 g2)

/-- A magnitude is a significand of at most 24 bits times a power of two. -/
theorem magnitude_form (k : Word) (h : magnitude k ≠ 0) :
    ∃ m e, 0 < m ∧ m < 2 ^ 24 ∧ magnitude k = m * 2 ^ e := by
  have hf : fracField k < 2 ^ 23 := Nat.mod_lt _ (by decide)
  unfold magnitude at *
  split at h
  · rename_i he
    simp only [he, if_true]
    exact ⟨fracField k, 0, by omega, by omega, by simp⟩
  · rename_i he
    simp only [he, if_false]
    exact ⟨2 ^ 23 + fracField k, expField k - 1, by omega, by omega, rfl⟩

/-- Both ends of a separated enclosure, times a magnitude, round to one pattern. -/
theorem round_ends_agree {x : Enclosure} (hx : separated x = true) (k : Word) (hk : magnitude k ≠ 0) :
    roundMagnitude (magnitude k * x.lo) (2 ^ precision) = roundMagnitude (magnitude k * x.hi) (2 ^ precision) := by
  obtain ⟨m, e, hm, hm24, hform⟩ := magnitude_form k hk
  have hx' := hx
  unfold separated separates at hx'
  simp only [Bool.and_eq_true, beq_iff_eq, decide_eq_true_eq] at hx'
  have hle : x.lo ≤ x.hi := hx'.1.2
  have hlow : 2 ^ precision * 2 ^ 25 ≤ denominatorBound * x.lo := hx'.2
  by_contra hne
  obtain ⟨b, s, hb, hb25, h1, h2⟩ :=
    boundary_between (by positivity) (Nat.mul_le_mul_left (magnitude k) hle) hne
  rw [hform] at h1 h2
  rcases Nat.lt_or_ge s (e + 1) with hs | hs
  · obtain ⟨u, hu⟩ : ∃ u, e + 1 = s + u := ⟨e + 1 - s, by omega⟩
    have e2 : ∀ y, 2 * (m * 2 ^ e * y) = y * (m * 2 ^ u) * 2 ^ s := fun y => by
      calc 2 * (m * 2 ^ e * y) = m * 2 ^ (e + 1) * y := by ring
        _ = y * (m * 2 ^ u) * 2 ^ s := by rw [hu]; ring
    have eb : 2 ^ precision * (b * 2 ^ s) = b * 2 ^ precision * 2 ^ s := by ring
    rw [e2, eb] at h1 h2
    have g1 := Nat.le_of_mul_le_mul_right h1 (by positivity)
    have g2 := Nat.le_of_mul_le_mul_right h2 (by positivity)
    have hD := denominator_of_separated hx g1 g2 (by positivity)
    have c1 : denominatorBound * x.lo ≤ x.lo * (m * 2 ^ u) := by
      rw [mul_comm]; exact Nat.mul_le_mul_left _ hD.le
    have c2 : b * 2 ^ precision < 2 ^ precision * 2 ^ 25 := by
      rw [mul_comm]; exact Nat.mul_lt_mul_of_pos_left hb25 (by positivity)
    omega
  · obtain ⟨u, rfl⟩ : ∃ u, s = e + 1 + u := ⟨s - (e + 1), by omega⟩
    have e2 : ∀ y, 2 * (m * 2 ^ e * y) = y * m * 2 ^ (e + 1) := fun y => by ring
    have eb : 2 ^ precision * (b * 2 ^ (e + 1 + u)) = b * 2 ^ u * 2 ^ precision * 2 ^ (e + 1) := by ring
    rw [e2, eb] at h1 h2
    have g1 := Nat.le_of_mul_le_mul_right h1 (by positivity)
    have g2 := Nat.le_of_mul_le_mul_right h2 (by positivity)
    have hD := denominator_of_separated hx g1 g2 hm
    have : (2 : Nat) ^ 24 ≤ denominatorBound := by decide
    omega

/-- Both ends of a weight's enclosure round to one word: the word that eqWeight takes from the lower end is that of the exact weight. -/
theorem weight_ends_agree (k : Word) {m j : Nat} (hj : j ≤ 11) (hm : 0 < m) (hlt : m < 2 ^ j)
    (hk : magnitude k ≠ 0) :
    round32 (signBit k) (magnitude k * (negLnEnclosure precision m j).lo) (2 ^ precision) =
      round32 (signBit k) (magnitude k * (negLnEnclosure precision m j).hi) (2 ^ precision) := by
  unfold round32
  rw [round_ends_agree (negLn_separated hj hm hlt) k hk]

end Sys2Proof.Laws
end

