-- ==== Sys2Proof/Tests/Slice0.lean ====
section
/-! SUPPORT. The model's own tests. Every expected value comes from spec/95_test_vectors.md or from a rule's own table; witnesses show that the hypotheses of each statement can be met. -/

namespace Sys2Proof.Tests

set_option Elab.async false

open Sys2Proof.Machine Sys2Proof.Safety

/-! ## Well-formedness: one refused word for each check -/

theorem test_wellFormed_refuses_rsv : wordWellFormed 0x00000201 = false ∧ rsvIsZero 0x00000201 = false := by decide
theorem test_wellFormed_refuses_opc : wordWellFormed 0x00000013 = false ∧ opcIsAssigned 0x00000013 = false := by decide
theorem test_wellFormed_refuses_flag : wordWellFormed 0x00000102 = false ∧ flagIsAllowed 0x00000102 = false := by decide
theorem test_wellFormed_accepts : wordWellFormed 0x00000111 = true := by decide

/-! ## Decoding: each word written from the fields RSV, F, OPC of 30_encoding.md R110 and R111 -/

theorem test_decode_nop : decode (0#23 ++ 0#1 ++ 0b00000000#8) = .ok .nop := by decide
theorem test_decode_fftConfig : decode (0#23 ++ 0#1 ++ 0b00000001#8) = .ok (.fftConfig false) := by decide
theorem test_decode_fftConfig_eq : decode (0#23 ++ 1#1 ++ 0b00000001#8) = .ok (.fftConfig true) := by decide
theorem test_decode_fftTransform : decode (0#23 ++ 0#1 ++ 0b00000010#8) = .ok .fftTransform := by decide
theorem test_decode_ltConfig : decode (0#23 ++ 0#1 ++ 0b00010000#8) = .ok .ltConfig := by decide
theorem test_decode_ltUpdate : decode (0#23 ++ 0#1 ++ 0b00010001#8) = .ok (.ltUpdate false) := by decide
theorem test_decode_ltUpdate_absent : decode (0#23 ++ 1#1 ++ 0b00010001#8) = .ok (.ltUpdate true) := by decide
theorem test_decode_ltRestart : decode (0#23 ++ 0#1 ++ 0b00010010#8) = .ok .ltRestart := by decide

/-- X3: Illegal words. -/
theorem test_decode_illegal : decode 0x00000100 = .error .reservedFlag ∧
    decode 0x00000003 = .error .unassignedOpcode ∧ decode 0x80000011 = .error .reservedBits ∧
    decode 0xFFFFFFFF = .error .reservedBits ∧ decode 0x00000020 = .error .unassignedOpcode := by decide

/-- 20_memory.md R85: byte lane 0 is bits 7:0 and stands lowest. -/
theorem test_decode_bytes : decodeBytes [0x11, 0x01, 0x00, 0x00, 0xAA] = .ok (.ltUpdate true, [0xAA]) := by decide

/-! ## binary32 (values of 95_test_vectors.md) -/

/-- L4: VAL bass = 7 / 1.60000014. -/
theorem test_div32 : div32 0x40E00000 0x3FCCCCCE = 0x408BFFFF := by decide +kernel
/-- V3: the root of 8. -/
theorem test_sqrt32 : sqrt32 0x41000000 = 0x403504F3 := by decide +kernel
/-- V11: the square of 2e19 overflows to infinity. -/
theorem test_mul32_overflow : mul32 0x5F8AC723 0x5F8AC723 = 0x7F800000 := by decide +kernel
/-- V9 and V19: +0 times infinity is NaN, and the square of the smallest subnormal is +0. -/
theorem test_mul32_special : mul32 0x00000000 0x7F800000 = 0x7FC00000 ∧ mul32 0x00000001 0x00000001 = 0 := by
  decide +kernel
/-- 00_scope.md R10: the sign of an exact zero sum. -/
theorem test_add32_zero_signs : add32 0x80000000 0x80000000 = 0x80000000 ∧
    add32 0x3F800000 0xBF800000 = 0x00000000 ∧ sub32 0x00000000 0x00000000 = 0x00000000 := by decide +kernel
/-- 00_scope.md R12: −0 equals +0, and NaN is unordered. -/
theorem test_lt32 : lt32 0x80000000 0x00000000 = false ∧ lt32 0x7FC00000 0x3F800000 = false ∧
    lt32 0xBF800000 0x00000000 = true := by decide +kernel

/-! ## Tables -/

/-- 40_fft.md R142: entries 0 to 7 for W = 8. -/
theorem test_bitrev_8 : (List.range 8).map (bitrev 3) = [0, 4, 2, 6, 1, 5, 3, 7] := by decide
/-- E4: BITREV[0x123] = 0xC48 for W = 4096. -/
theorem test_bitrev_4096 : bitrev 12 0x123 = 0xC48 := by decide
/-- F4: the curve of k = 0.02 for N = 8. -/
theorem test_eqWeight_8 : (List.range 8).map (eqWeight 0x3CA3D70A 8) =
    [0x00000000, 0x3B2F05B3, 0x3BBC890B, 0x3C1A02C3, 0x3C632166, 0x3CA0B2F6, 0x3CE32166, 0x3D2A590D] := by
  decide +kernel
/-- F4: a negative k, an overflow, NaN, −∞ and −0. -/
theorem test_eqWeight_special : eqWeight 0xBCA3D70A 4 1 = 0xBBBC890B ∧ eqWeight 0x7F61B1E6 4 3 = 0x7F800000 ∧
    eqWeight 0x7FC00000 4 2 = 0x7FC00000 ∧ eqWeight 0xFF800000 4 1 = 0xFF800000 ∧
    eqWeight 0x80000000 4 1 = 0x00000000 := by decide +kernel
/-- 41_level.md R222: the rates at 60 and 144 fps. -/
theorem test_perFrame : perFrame 0x3E4CCCCD 0x42700000 = 0x3EE4F92E ∧ perFrame 0x3F000000 0x42700000 = 0x3F3504F3 ∧
    perFrame 0x3F666666 0x43100000 = 0x3F7A7126 ∧ perFrame 0x3F7DF3B6 0x43100000 = 0x3F7F926D := by
  decide +kernel
/-- 41_level.md R222: the exact comparisons give the same word as the table at 60 and 144 fps. -/
theorem test_exactRoot : exactRoot 0x30800000 0x42700000 = 0x3F3504F3 ∧ exactRoot 0x3F492EB0 0x43100000 = 0x3F7F926D := by
  decide +kernel
/-- 40_fft.md R163: the factor for m = 2 of size 8 is (+0, 0xBF7FFFFF). -/
theorem test_rotate : rotate 2 (rotate 2 Twiddle.start) = ⟨0x00000000, 0xBF7FFFFF⟩ := by decide +kernel

/-! ## Commands -/

/-- The state after a command. -/
def after (i : Instr) (s : State) : State :=
  match exec i s with
  | .next t => t
  | _ => s

/-- An idle block with these FFT operands. -/
def fftOperands (nin nout : BitVec 13) : State :=
  { State.reset with fft := { FftRegs.reset with nin := nin, nout := nout } }

/-- A block configured for 4 samples and 2 bins, with TIME[0..3]. -/
def fourPoint (eq : Bool) (x : List Word) : State :=
  { State.reset with
    fft := { FftRegs.reset with nin := 4, nout := 2, ninA := 4, noutA := 2 }
    status := { Status.reset with fftValid := true, fftEq := eq }
    ram := storeWords (storeWords (storeWords [] timeBase x) eqBase [0x00000000, 0x3C632166]) bitrevBase [0, 2, 1, 3] }

/-- An idle block with these construction operands. -/
def ltOperands (sr f : Word) (nb : BitVec 13) : State :=
  { State.reset with lt := { LtRegs.reset with srate := sr, fftSize := f, nbins := nb } }

/-- The block of P2 before its first update: bands 1, 2, 14, 15, SPEC[1..14] = 4, 0.5, ..., 2, 60 fps. -/
def tracker (fps frame : Word) (spec : List Word) : State :=
  { State.reset with
    lt := { LtRegs.reset with
      fps := fps, frame := frame, bandStart := ⟨1, 2, 14⟩, bandStop := ⟨2, 14, 15⟩ }
    status := { Status.reset with ltValid := true }
    ram := storeWords [] (specBase + 4) spec }

/-- SPEC[1..14] of P2. -/
def specP2 : List Word := 0x40800000 :: List.replicate 12 0x3F000000 ++ [0x40000000]

/-- X4: NOP after reset leaves STATUS 0x00000002. -/
theorem test_nop : statusWord (after .nop State.reset).status = 0x00000002 := by decide
/-- X4: ERR is sticky and CODE becomes 0. -/
theorem test_nop_err_sticky : statusWord (after .nop { State.reset with status :=
    { Status.reset with done := true, err := true, code := .fftNotConfigured } }).status = 0x00000006 := by decide
/-- F1: 4 samples, 2 bins. -/
theorem test_fftConfig : statusWord (after (.fftConfig false) (fftOperands 4 2)).status = 0x00000012 ∧
    fftActWord (after (.fftConfig false) (fftOperands 4 2)).fft = 0x00020004 ∧
    (List.range 5).map (ramEntry (after (.fftConfig false) (fftOperands 4 2)) bitrevBase) = [0, 2, 1, 3, 0] := by
  decide +kernel
/-- F1: 0x02 before 0x03, and 0x03. -/
theorem test_fftConfig_codes : statusWord (after (.fftConfig false) (fftOperands 100 3)).status = 0x00000206 ∧
    statusWord (after (.fftConfig false) (fftOperands 4097 2048)).status = 0x00000306 ∧
    statusWord (after (.fftConfig true) (fftOperands 0 4096)).status = 0x00000206 := by decide +kernel
/-- V3: 1, 2, 3, 4 gives 10 and 2.82842708. -/
theorem test_fftTransform : (List.range 2).map (specWord (after .fftTransform
    (fourPoint false [0x3F800000, 0x40000000, 0x40400000, 0x40800000]))) = [0x41200000, 0x403504F3] := by
  decide +kernel
/-- V22: the same with the curve of k = 0.02; V16: infinity times the weight +0 is NaN. -/
theorem test_fftTransform_eq : (List.range 2).map (specWord (after .fftTransform
    (fourPoint true [0x3F800000, 0x40000000, 0x40400000, 0x40800000]))) = [0x00000000, 0x3D209B01] ∧
    specWord (after .fftTransform (fourPoint true [0x7F800000, 0, 0, 0])) 0 = 0x7FC00000 := by
  decide +kernel
/-- B1: the worked example of 41_level.md R207. -/
theorem test_ltConfig : (after .ltConfig (ltOperands 44100 1024 512)).lt.bandStart = ⟨1, 8, 66⟩ ∧
    (after .ltConfig (ltOperands 44100 1024 512)).lt.bandStop = ⟨8, 66, 256⟩ ∧
    statusWord (after .ltConfig (ltOperands 44100 1024 512)).status = 0x00000022 := by decide +kernel
/-- B13, B17 and B18: the codes. -/
theorem test_ltConfig_codes : statusWord (after .ltConfig (ltOperands 3200 16 15)).status = 0x00000606 ∧
    statusWord (after .ltConfig (ltOperands 44100 1024 2049)).status = 0x00000506 ∧
    statusWord (after .ltConfig (ltOperands 0 0 4)).status = 0x00000506 := by decide +kernel
/-- P2: the first update. -/
theorem test_ltUpdate : (after (.ltUpdate false) (tracker 0x42700000 0 specP2)).level =
    { val := ⟨0x405DD8BF, 0x4098CB95, 0x3FF38111⟩, att := ⟨0x40136FE1, 0x403FB421, 0x3FBD0E12⟩,
      avg := ⟨0x402A228F, 0x4070E444, 0x3FC6C1B4⟩, lavg := ⟨0x3F93B4A4, 0x3FA0D7BC, 0x3F86918C⟩,
      imm := ⟨0x40800000, 0x40C00000, 0x40000000⟩ } := by decide +kernel
/-- L1: the clamp of the effective fps. -/
theorem test_effFps : effFps 0x416FFFFF = 0x41700000 ∧ effFps 0x43480000 = 0x43100000 ∧
    effFps 0x7F800001 = 0x41700000 ∧ effFps 0x42F00000 = 0x42F00000 := by decide +kernel
/-- L17: LT_RESTART after reset is legal. -/
theorem test_ltRestart : statusWord (after .ltRestart (tracker 0 0 [])).status = 0x00000022 ∧
    (after .ltRestart (tracker 0 0 [])).level = LevelRegs.initial := by decide +kernel

/-! ## The host port and the step -/

/-- X5: a reserved offset, a misaligned one, a width of 2, and a write to ID. -/
theorem test_bus_errors : (transact (.read 4 0x000C) State.reset).bus = some (.readDone 0 .error) ∧
    (transact (.read 4 0x0002) State.reset).bus = some (.readDone 0 .error) ∧
    (transact (.read 2 0x0000) State.reset).bus = some (.readDone 0 .error) ∧
    statusWord (transact (.write 4 0x0000 1) State.reset).status = 0x00000008 := by decide +kernel
/-- X2: bit 13 of FFT_NOUT is RAZ/WI, IRQ_EN keeps three bits. -/
theorem test_write_masks :
    (transact (.read 4 0x0024) (transact (.write 4 0x0024 0x00002002) State.reset)).bus = some (.readDone 2 .okay) ∧
    (transact (.read 4 0x001C) (transact (.write 4 0x001C 0xFFFFFFFF) State.reset)).bus = some (.readDone 7 .okay) := by
  decide +kernel
/-- X5: a read of SPEC while BUSY is refused, one of STATUS is not. -/
theorem test_busy_window :
    (transact (.read 4 0x8000) (placeCommand 0 State.reset)).bus = some (.readDone 0 .error) ∧
    (transact (.read 4 0x0018) (placeCommand 0 State.reset)).bus = some (.readDone 1 .okay) := by decide +kernel
/-- P3: an unassigned OPC completes with CODE 0x01 from STATUS 0x72. -/
theorem test_illegal_step : (match step (placeCommand 0x00000003 { State.reset with status :=
      { Status.reset with done := true, fftValid := true, ltValid := true, valValid := true } }) with
    | .next t => statusWord t.status
    | _ => 0) = 0x00000176 := by decide +kernel
/-- R320, R260: with nothing pending and no statement left, nothing happens. -/
theorem test_idle_step : (match step State.reset with
    | .next t => decide (t = State.reset)
    | _ => false) = true := by decide +kernel
/-- X6: IRQ_EN = 1 and a completed NOP raise irq. -/
theorem test_irq : irq (after .nop { State.reset with irqEn := 1 }) = true ∧ irq State.reset = false := by decide
/-- 30_encoding.md R118: WRF of 30.0 and of −0.0, whose f32 is RN32(0) = +0 (00_scope.md R13), and the pseudo-instruction of FFT_CONFIG.EQ. -/
theorem test_pseudo : wrf 0x004C false 30 1 = [.wr 0x004C 0x41F00000] ∧
    wrf 0x004C true 0 1 = [.wr 0x004C 0x00000000] ∧ cmdOf (.fftConfig true) = [.wr 0x0014 0x00000101] := by decide +kernel

/-! ## Witnesses: the hypotheses of the statements can be met -/

theorem witness_StepRunsDecodedCommand : ∃ (s : State) (w : Word) (i : Instr), s.pending = some w ∧ (s.wait = 0 ∨ s.host = []) ∧
    decode w = .ok i := ⟨placeCommand 0x10 State.reset, 0x10, .ltConfig, by decide⟩
/-- Each kind of statement at the head, with nothing pending and with a command that waits. -/
theorem witness_StepRunsDecodedCommand_host :
    ∀ st ∈ [HostStmt.wr 0x0020 4, .bus (.read 2 0), .rd 0x0018, .expect 0x0018 0, .poll 0x0018 1 0, .rst],
      (∃ s : State, s.host = [st] ∧ s.pending = none) ∧
      ∃ s : State, s.host = [st] ∧ s.pending ≠ none ∧ s.wait ≠ 0 :=
  fun st _ => ⟨⟨{ State.reset with host := [st] }, rfl, rfl⟩,
    ⟨{ placeCommand 0 State.reset with host := [st], wait := 1 }, rfl, nofun, nofun⟩⟩
/-- 30_encoding.md R117: a POLL whose condition fails stays at the head, one whose condition holds goes. -/
theorem test_poll : (hostTurn { State.reset with host := [.poll 0x0018 1 1] }).host = [.poll 0x0018 1 1] ∧
    (hostTurn { State.reset with host := [.poll 0x0018 1 0] }).host = [] := by decide +kernel
theorem witness_IllegalWordEndsWithCode01 : ∃ (s : State) (w : Word) (e : DecodeError), s.pending = some w ∧ (s.wait = 0 ∨ s.host = []) ∧
    decode w = .error e := ⟨placeCommand 0x13 State.reset, 0x13, .unassignedOpcode, by decide⟩
theorem witness_NopOnlyCompletes : ∃ t, exec .nop State.reset = .next t := ⟨_, rfl⟩
theorem witness_CommandsKeepOperandsAndTime : ∃ i s t, exec i s = .next t := ⟨.nop, State.reset, _, rfl⟩
theorem witness_FailedCommandChangesOnlyStatus : ∃ s t w, s.pending = some w ∧ (s.wait = 0 ∨ s.host = []) ∧
    step s = .next t ∧ t.status.code ≠ .ok :=
  ⟨placeCommand 0x02 State.reset, _, 0x02, rfl, .inl rfl, rfl, by decide⟩
theorem witness_FailedCommand_illegal : ∃ s t w, s.pending = some w ∧ (s.wait = 0 ∨ s.host = []) ∧
    step s = .next t ∧ t.status.code ≠ .ok :=
  ⟨placeCommand 0x13 State.reset, _, 0x13, rfl, .inl rfl, rfl, by decide⟩
theorem witness_BitrevReversesBits : (4095 : Nat) < 2 ^ 12 ∧ 11 < 12 := by decide
theorem not_small_power (n : Nat) (h : ∀ j, j < 12 → n ≠ 2 ^ j) : ¬ ∃ j ≤ 11, n = 2 ^ j :=
  fun ⟨j, hj, e⟩ => h j (by omega) e
theorem witness_FftConfigRefusesBadSize_three : ¬ ∃ j ≤ 11, (fftOperands 100 3).fft.nout.toNat = 2 ^ j :=
  not_small_power _ (by decide)
theorem witness_FftConfigRefusesBadSize_zero : ¬ ∃ j ≤ 11, (fftOperands 0 0).fft.nout.toNat = 2 ^ j :=
  not_small_power _ (by decide)
theorem witness_FftConfigRefusesBadSize_large : ¬ ∃ j ≤ 11, (fftOperands 0 4096).fft.nout.toNat = 2 ^ j :=
  not_small_power _ (by decide)
theorem witness_FftConfigRefusesBadInput : ∃ j ≤ 11, (fftOperands 4097 2048).fft.nout.toNat = 2 ^ j ∧
    2 * 2 ^ j < (fftOperands 4097 2048).fft.nin.toNat := ⟨11, by decide⟩
theorem witness_FftConfigSucceeds_largest : ∃ j ≤ 11, (fftOperands 4096 2048).fft.nout.toNat = 2 ^ j ∧
    (fftOperands 4096 2048).fft.nin.toNat ≤ 2 * 2 ^ j := ⟨11, by decide⟩
theorem witness_FftConfigSucceeds_least : ∃ j ≤ 11, (fftOperands 0 1).fft.nout.toNat = 2 ^ j ∧
    (fftOperands 0 1).fft.nin.toNat ≤ 2 * 2 ^ j := ⟨0, by decide⟩

/-- A configured block of one bin: BITREV[0..1] = 0, 1 and 4094 zero entries. -/
def twoPoint (x : List Word) : State :=
  { State.reset with
    fft := { FftRegs.reset with nin := 2, nout := 1, ninA := 2, noutA := 1 }
    status := { Status.reset with fftValid := true }
    ram := storeWords (storeWords [] timeBase x) bitrevBase (bitrevTable 2) }

theorem twoPoint_kept (x : List Word) : FftConfigKept (twoPoint x) := by
  intro _
  refine ⟨by simp only [noutA, twoPoint]; decide, by simp only [ninA, workingSize, noutA, twoPoint]; decide,
    fun i hi => ?_⟩
  have h := Laws.readWord_storeWords (storeWords [] timeBase x) bitrevBase (bitrevTable 2) i (by simpa using hi)
  simpa [ramEntry, twoPoint, bitrevTable, workingSize, noutA] using h

/-- One zero sample is enough for the entries of TIME. -/
theorem twoPoint_time (x : List Word) (i : Nat) (hi : i < x.length) (hx : x.length ≤ 4096) :
    timeWord (twoPoint x) i = x[i] := by
  have h := Laws.readWord_storeWords [] timeBase x i hi
  have g := Laws.readWord_storeWords_outside (storeWords [] timeBase x) bitrevBase (bitrevTable 2)
    (timeBase + 4 * i) (.inl (by simp only [timeBase, bitrevBase]; omega))
  simpa [timeWord, ramEntry, twoPoint, h] using g

theorem witness_StepKeepsFftConfig : ∃ s t, FftConfigKept s ∧ s.status.fftValid = true ∧ step s = .next t :=
  ⟨placeCommand 0x02 (twoPoint []), _, twoPoint_kept [], rfl, rfl⟩
theorem witness_BitrevTableIsPermutation : ∃ s, FftConfigKept s ∧ s.status.fftValid = true :=
  ⟨twoPoint [], twoPoint_kept [], rfl⟩
theorem witness_TransformRefusedUnconfigured : State.reset.status.fftValid = false := rfl
theorem witness_TransformWritesSpectrum : (twoPoint []).status.fftValid = true := rfl
/-- Both clauses of the scatter: entry 0 is below NIN_A, entry 3 of a working size of 4 with NIN_A = 2 is not. -/
theorem witness_ScatterPlacesSamples : ∃ s, 0 < workingSize s ∧ bitrevEntry s 0 < ninA s ∧
    3 < workingSize s ∧ ¬ bitrevEntry s 3 < ninA s :=
  ⟨{ fourPoint false [] with fft := { FftRegs.reset with ninA := 2, noutA := 2 } }, by decide +kernel⟩
/-- Stage 1 of size 4, position 1 of W = 8: k = 5 meets the first clause, 7 the second, 4 the third. -/
theorem witness_PositionPassCombinesPairs : ∃ b : Buffers, b.re.size = 2 ^ 3 ∧ b.im.size = 2 ^ 3 ∧ 1 < 3 ∧ 1 < 2 ^ 1 ∧
    5 % 2 ^ (1 + 1) = 1 ∧ 7 % 2 ^ (1 + 1) = 1 + 2 ^ 1 ∧ 4 % 2 ^ (1 + 1) ≠ 1 ∧ 4 % 2 ^ (1 + 1) ≠ 1 + 2 ^ 1 :=
  ⟨⟨Array.replicate 8 0, Array.replicate 8 0⟩, by decide⟩
theorem witness_TransformRunsStages : noutA (fourPoint false []) = 2 ^ 1 := by decide
/-- Two states that differ in an operand register and in SPEC, not in what a transform reads. -/
theorem witness_TransformIsDeterministic : ∃ s1 s2 t1 t2 : State, s1 ≠ s2 ∧
    s1.status.fftValid = true ∧ s2.status.fftValid = true ∧
    ninA s1 = ninA s2 ∧ noutA s1 = noutA s2 ∧ s1.status.fftEq = s2.status.fftEq ∧
    (∀ i, ramEntry s1 bitrevBase i = ramEntry s2 bitrevBase i) ∧ (∀ i, eqWord s1 i = eqWord s2 i) ∧
    (∀ i, timeWord s1 i = timeWord s2 i) ∧
    exec .fftTransform s1 = .next t1 ∧ exec .fftTransform s2 = .next t2 := by
  refine ⟨fourPoint false [], { fourPoint false [] with cmd := 1 }, _, _, fun h => ?_, rfl, rfl, rfl, rfl, rfl,
    fun _ => rfl, fun _ => rfl, fun _ => rfl, rfl, rfl⟩
  have : (0 : Word) = 1 := congrArg State.cmd h
  exact absurd this (by decide)
theorem witness_ZeroInputGivesZeroSpectrum : ∃ s t, FftConfigKept s ∧ s.status.fftValid = true ∧
    s.status.fftEq = false ∧ (∀ n, n < ninA s → timeWord s n = 0x00000000) ∧ exec .fftTransform s = .next t := by
  refine ⟨twoPoint [0, 0], _, twoPoint_kept _, rfl, rfl, fun n hn => ?_, rfl⟩
  have hn2 : n < 2 := hn
  rw [twoPoint_time [0, 0] n hn2 (by decide)]
  rcases n with _ | _ | n
  · rfl
  · rfl
  · omega
/-- The weight of k = 0.02, N = 4, i = 1 is decided at 128 bits (F4). -/
theorem witness_WeightIsCorrectlyRounded : 0 < 1 ∧ 1 < 2 ^ 2 ∧ isFinite 0x3CA3D70A = true ∧ magnitude 0x3CA3D70A ≠ 0 ∧
    round32 (signBit 0x3CA3D70A) (magnitude 0x3CA3D70A * (negLnEnclosure 128 (2 ^ 2 - 1) 2).lo) (2 ^ 128) =
      round32 (signBit 0x3CA3D70A) (magnitude 0x3CA3D70A * (negLnEnclosure 128 (2 ^ 2 - 1) 2).hi) (2 ^ 128) := by decide +kernel
/-- The other kinds of k: NaN, an infinity, a zero of either sign, and an index of 0 and of N − 1. -/
theorem witness_WeightIsCorrectlyRounded_kinds : 0 < 2 ^ 2 ∧ 3 < 2 ^ 2 ∧ isNaN 0x7FC00000 = true ∧ isInf 0xFF800000 = true ∧
    isFinite 0x80000000 = true ∧ units 0x80000000 = 0 ∧ isFinite 0x3CA3D70A = true ∧ units 0x3CA3D70A ≠ 0 ∧
    signBit 0x3CA3D70A = false := by decide +kernel
theorem witness_CeilDivIsLeast : 0 < 44100 ∧ ceilDiv 20480 44100 = 1 ∧ ceilDiv 88200 44100 = 2 := by decide
/-- Each cause of code 0x05 at its boundary, and a band failure (B13). -/
theorem witness_LtConfigRefusesBadOperands :
    ((ltOperands 0 1024 512).lt.srate = 0) ∧ ((ltOperands 44100 0 512).lt.fftSize = 0) ∧
    ((ltOperands 44100 1024 1).lt.nbins.toNat < 2) ∧ (2048 < (ltOperands 44100 1024 2049).lt.nbins.toNat) ∧
    ltParamsBad 3200 16 15 = false ∧
    (let bnd := fun hz => clampNat (ceilDiv (hz * 16) 3200) 1 (15 - 1)
     ¬ (1 ≤ bnd 20 ∧ bnd 20 < bnd 320 ∧ bnd 320 < bnd 2800 ∧ bnd 2800 < bnd 11025 ∧ bnd 11025 ≤ 15 - 1)) := by
  decide
/-- B1 meets every hypothesis, with the bounds 1, 8, 66, 256. -/
theorem witness_LtConfigSucceeds :
    (let s := ltOperands 44100 1024 512
     let bnd := fun hz => clampNat (ceilDiv (hz * s.lt.fftSize.toNat) s.lt.srate.toNat) 1 (s.lt.nbins.toNat - 1)
     s.lt.srate ≠ 0 ∧ s.lt.fftSize ≠ 0 ∧ 2 ≤ s.lt.nbins.toNat ∧ s.lt.nbins.toNat ≤ 2048 ∧
     bnd 20 = 1 ∧ bnd 320 = 8 ∧ bnd 2800 = 66 ∧ bnd 11025 = 256 ∧ bnd 11025 ≤ s.lt.nbins.toNat - 1) := by decide
theorem witness_BandRegistersHoldBounds : ∃ t u, exec .ltConfig (ltOperands 44100 1024 512) = .next t ∧
    t.status.code = .ok ∧ exec .ltConfig (ltOperands 3200 16 15) = .next u ∧ u.status.code ≠ .ok :=
  ⟨_, _, rfl, by decide, rfl, by decide⟩
theorem witness_StepKeepsBands : ∃ s t, BandsKept s ∧ s.status.ltValid = true ∧ step s = .next t :=
  ⟨tracker 0 0 [], _, fun _ => by decide, rfl, rfl⟩
theorem witness_UpdateRefusedUnconfigured : State.reset.status.ltValid = false := rfl
theorem witness_AbsentUpdateIsNoop : (tracker 0 0 []).status.ltValid = true := rfl
theorem witness_UpdateAdvancesLanes : (tracker 0x42700000 0 specP2).status.ltValid = true := rfl

/-- The value of a word given by its units. -/
theorem value_of_units {a : Word} {u : Int} (h : units a = u) : value a = (u : ℚ) / 2 ^ 149 := by
  rw [value, h]

theorem value_15 : value 0x41700000 = 15 := by
  rw [value_of_units (u := 15 * 2 ^ 149) (by decide +kernel)]; norm_num
theorem value_144 : value 0x43100000 = 144 := by
  rw [value_of_units (u := 144 * 2 ^ 149) (by decide +kernel)]; norm_num
theorem value_14 : value 0x41600000 = 14 := by
  rw [value_of_units (u := 14 * 2 ^ 149) (by decide +kernel)]; norm_num
theorem value_145 : value 0x43110000 = 145 := by
  rw [value_of_units (u := 145 * 2 ^ 149) (by decide +kernel)]; norm_num
theorem value_half : value 0x3F000000 = 1 / 2 := by
  rw [value_of_units (u := 2 ^ 148) (by decide +kernel)]; norm_num
theorem value_zero : value 0x00000000 = 0 := by
  rw [value_of_units (u := 0) (by decide +kernel)]; norm_num
theorem value_one : value 0x3F800000 = 1 := by
  rw [value_of_units (u := 2 ^ 149) (by decide +kernel)]; norm_num
theorem value_60 : value 0x42700000 = 60 := by
  rw [value_of_units (u := 60 * 2 ^ 149) (by decide +kernel)]; norm_num
theorem value_2eNeg30 : value 0x30800000 = 1 / 2 ^ 30 := by
  rw [value_of_units (u := 2 ^ 119) (by decide +kernel)]; norm_num

/-- Each clause, the last one at both ends of its range. -/
theorem witness_EffectiveFpsIsClamped : isFinite 0x7F800000 = false ∧
    (isFinite 0x41600000 = true ∧ value 0x41600000 < 15) ∧ (isFinite 0x43110000 = true ∧ 144 < value 0x43110000) ∧
    (isFinite 0x41700000 = true ∧ 15 ≤ value 0x41700000 ∧ value 0x41700000 ≤ 144) ∧
    (isFinite 0x43100000 = true ∧ 15 ≤ value 0x43100000 ∧ value 0x43100000 ≤ 144) := by
  rw [value_14, value_145, value_15, value_144]
  refine ⟨by decide +kernel, ⟨by decide +kernel, by norm_num⟩, ⟨by decide +kernel, by norm_num⟩,
    ⟨by decide +kernel, by norm_num, by norm_num⟩, ⟨by decide +kernel, by norm_num, by norm_num⟩⟩
/-- Two states that differ in the bass band and agree in the treble lane. -/
theorem witness_LanesAreIndependent : ∃ (s1 s2 t1 t2 : State), s1.lt.bandStart ≠ s2.lt.bandStart ∧
    s1.status.ltValid = true ∧ s2.status.ltValid = true ∧ s1.lt.fps = s2.lt.fps ∧ s1.lt.frame = s2.lt.frame ∧
    s1.lt.bandStart.get .treble = s2.lt.bandStart.get .treble ∧ s1.lt.bandStop.get .treble = s2.lt.bandStop.get .treble ∧
    s1.level.avg.get .treble = s2.level.avg.get .treble ∧ s1.level.lavg.get .treble = s2.level.lavg.get .treble ∧
    (∀ j, specWord s1 j = specWord s2 j) ∧
    exec (.ltUpdate false) s1 = .next t1 ∧ exec (.ltUpdate false) s2 = .next t2 :=
  ⟨tracker 0 0 [], { tracker 0 0 [] with lt := { (tracker 0 0 []).lt with bandStart := ⟨0, 2, 14⟩ } }, _, _,
    by decide, rfl, rfl, rfl, rfl, rfl, rfl, rfl, rfl, fun _ => rfl, rfl, rfl⟩
theorem witness_NanWordFillsItsLane : ∃ s t, s.status.ltValid = true ∧
    (s.lt.bandStart.get .bass).toNat ≤ 1 ∧ 1 < (s.lt.bandStop.get .bass).toNat ∧
    isNaN (specWord s 1) = true ∧ exec (.ltUpdate false) s = .next t :=
  ⟨tracker 0 0 [0x7FC00000], _, rfl, by decide, by decide, by decide +kernel, rfl⟩
theorem witness_SilenceStaysNeutral : ∃ (r : Rates) (lavg : Word), isFinite r.slow = true ∧ 0 < value r.slow ∧
    value r.slow < 1 ∧ isFinite lavg = true ∧ 0 ≤ value lavg ∧ lt32 lavg 0x3A83126F = true := by
  refine ⟨⟨0, 0, 0x3F000000⟩, 0x00000000, by decide +kernel, ?_, ?_, by decide +kernel, ?_, by decide +kernel⟩
  · rw [value_half]; norm_num
  · rw [value_half]; norm_num
  · rw [value_zero]
/-- 41_level.md R222: the rate of 0.5 at 60 fps is decided at 128 bits. -/
theorem witness_RateIsCorrectlyRounded : isFinite 0x30800000 = true ∧ 0 < value 0x30800000 ∧ value 0x30800000 < 1 ∧
    isFinite 0x42700000 = true ∧ 15 ≤ value 0x42700000 ∧ value 0x42700000 ≤ 144 ∧
    roundReciprocal 128 (rootEnclosure 128 0x30800000 0x42700000) = some 0x3F3504F3 := by
  rw [value_2eNeg30, value_60]
  refine ⟨by decide +kernel, by norm_num, by norm_num, by decide +kernel, by norm_num, by norm_num, by decide +kernel⟩
/-- A step that restarts a disturbed level state, and one whose host resets it. -/
theorem witness_OnlyTheseChangeLevel_command : ∃ s t, step s = .next t ∧ t.level ≠ s.level :=
  ⟨placeCommand 0x12 { State.reset with level := { LevelRegs.initial with imm := ⟨1, 1, 1⟩ } }, _, rfl, by decide⟩
theorem witness_OnlyTheseChangeLevel_reset : ∃ s t, step s = .next t ∧ t.level ≠ s.level :=
  ⟨{ State.reset with level := { LevelRegs.initial with imm := ⟨1, 1, 1⟩ }, host := [.rst] }, _, rfl, by decide⟩
theorem witness_AddIsCorrectlyRounded : isFinite 0x3F800000 = true ∧ isFinite 0x80000000 = true := by decide
/-- The infinite operands of the sum, the product and the quotient. -/
theorem witness_infiniteOperands : isInf 0xFF800000 = true ∧ isFinite 0x00000000 = true ∧ isInf 0x7F800000 = true ∧
    isFinite 0x3F800000 = true := by decide
/-- Both clauses of division: a divisor with a value, and a zero under a value. -/
theorem witness_MulAndDivAreCorrectlyRounded : isFinite 0x3F800000 = true ∧ isFinite 0x00000000 = true ∧
    value 0x3F800000 ≠ 0 ∧ value 0x00000000 = 0 := by
  rw [value_one, value_zero]
  refine ⟨by decide, by decide, by norm_num, rfl⟩
theorem witness_SqrtIsCorrectlyRounded : isFinite 0x3F800000 = true ∧ 0 ≤ value 0x3F800000 := by
  rw [value_one]
  exact ⟨by decide, by norm_num⟩
theorem witness_LessThanComparesValues : isFinite 0x3F800000 = true ∧ isFinite 0x80000000 = true ∧
    isNaN 0x7FC00000 = true ∧ isInf 0x7F800000 = true ∧ isInf 0xFF800000 = true := by decide

/-! Each cause of a bus error alone, at a boundary, and transactions with no cause beside it. -/

theorem witness_BusErrorCausesAndEffect_causes :
    causesBusError State.reset (.read 2 0x0000) ∧ causesBusError State.reset (.read 4 0x0002) ∧
    causesBusError State.reset (.read 4 0x3FFC) ∧ causesBusError State.reset (.write 4 0xA000 0) ∧
    causesBusError (placeCommand 0 State.reset) (.write 4 0x9FFC 0) := by
  refine ⟨?_, ?_, ?_, ?_, ?_⟩ <;> simp [causesBusError, accessError, reservedOffset, alwaysOffset, writableOffset,
    State.reset, Status.reset, placeCommand, acceptedStatus]
theorem witness_BusErrorCausesAndEffect_none :
    ¬ causesBusError State.reset (.read 4 0x4000) ∧ ¬ causesBusError State.reset (.write 4 0x9FFC 0) ∧
    ¬ causesBusError State.reset (.read 4 0xFFFC) ∧
    ¬ causesBusError (placeCommand 0 State.reset) (.write 4 0x0018 0) := by
  refine ⟨?_, ?_, ?_, ?_⟩ <;> simp [causesBusError, accessError, reservedOffset, alwaysOffset, writableOffset,
    State.reset, Status.reset, placeCommand, acceptedStatus]
theorem witness_ReadsGiveMappedWords : State.reset.status.busy = false ∧ 4095 < 4096 ∧ 2047 < 2048 ∧ 11 < 12 := by decide
theorem witness_WriteReadsBackMasked_frame : State.reset.status.busy = false ∧ (0xFFFFFFFE : Word).getLsbD 0 = false := by decide
theorem witness_WriteReadsBackMasked :
    ¬ causesBusError State.reset (.write 4 0x0024 0x2002) ∧ storedBits ((0x0024 : Word).toNat % 0x10000) = some 0x1FFF ∧
    ¬ causesBusError State.reset (.write 4 0x9FFC 1) ∧ storedBits ((0x9FFC : Word).toNat % 0x10000) = some 0xFFFFFFFF := by
  refine ⟨?_, ?_, ?_, ?_⟩ <;> simp [causesBusError, accessError, reservedOffset, alwaysOffset, writableOffset, storedBits,
    State.reset, Status.reset]
theorem witness_RamWriteChangesOneEntry :
    ¬ causesBusError State.reset (.write 4 0x4000 1) ∧ 0x4000 ≤ (0x4000 : Word).toNat % 0x10000 := by
  refine ⟨?_, ?_⟩ <;> simp [causesBusError, accessError, reservedOffset, alwaysOffset, writableOffset,
    State.reset, Status.reset]
theorem witness_CommandWriteIsAccepted : State.reset.status.busy = false := rfl
/-- A command waits for one more transaction, and the host tries to write an operand. -/
theorem witness_BusyWindowProtectsBlock : ∃ s t, BusyIffPending s ∧ s.pending ≠ none ∧ s.wait ≠ 0 ∧
    (∀ st rest, s.host = st :: rest → resetsBlock st = false) ∧ s.host ≠ [] ∧ step s = .next t := by
  refine ⟨{ placeCommand 0 State.reset with wait := 1, host := [.wr 0x0020 4] }, _,
    ⟨rfl, fun _ h => Option.some.inj h, fun h => nomatch h⟩, nofun, nofun, fun st rest h => ?_, nofun, rfl⟩
  obtain ⟨rfl, -⟩ := List.cons.inj h
  rfl
theorem witness_SoftResetRestoresRegisters : (0x00000001 : Word).getLsbD 0 = true ∧ State.reset.pending = none := by
  decide
/-- The three kinds of aborted word: addresses just outside what each may change. -/
theorem witness_AbortKeepsOtherRam :
    decode 0x02 = .ok .fftTransform ∧ ¬ (0x8000 ≤ 0x8004 ∧ 0x8004 < 0x8000 + 4 * noutA (twoPoint [])) ∧
    decode 0x01 = .ok (.fftConfig false) ∧ ¬ (0xC000 ≤ 0xBFFF ∧ 0xBFFF < 0x10000) ∧
    decode 0x101 = .ok (.fftConfig true) ∧ ¬ (0xA000 ≤ 0x9FFF ∧ 0x9FFF < 0xC000) ∧
    decode 0x13 = .error .unassignedOpcode := by decide
theorem witness_ConstantsNeverChange : State.reset.status.busy = false ∧ 0x0100 ≤ (0x016C : Word).toNat ∧
    (0x016C : Word).toNat ≤ 0x016C ∧ (0x016C : Word).toNat % 4 = 0 ∧
    ¬ (0x0130 ≤ (0x016C : Word).toNat ∧ (0x016C : Word).toNat ≤ 0x013C) := by decide
theorem witness_StepKeepsBusyIffPending : ∃ s t, BusyIffPending s ∧ s.pending ≠ none ∧ step s = .next t :=
  ⟨placeCommand 0 State.reset, _, ⟨rfl, fun _ h => Option.some.inj h, fun h => nomatch h⟩, nofun, rfl⟩
theorem witness_StepKeepsMemory : ∃ s t, MemoryKept s ∧ s.ram ≠ [] ∧ step s = .next t :=
  ⟨{ State.reset with ram := [(0x4000, 1)], host := [.wr 0x4004 2] }, _, ⟨by decide, by decide, by decide⟩, nofun, rfl⟩
theorem witness_PendingCommandFinishes : ∃ s, BusyIffPending s ∧ s.pending ≠ none ∧ s.wait = 1 ∧ s.host ≠ [] :=
  ⟨{ placeCommand 0 State.reset with wait := 1, host := [.rd 0x0018] },
    ⟨rfl, fun _ h => Option.some.inj h, fun h => nomatch h⟩, nofun, rfl, nofun⟩

end Sys2Proof.Tests
end

/-! SUPPORT. The integer helpers ceil_div and bitrev (00_scope.md R14). -/

namespace Sys2Proof.Proofs

open Sys2Proof.Machine Sys2Proof.Safety


/-- ceil_div is the lower adjoint of multiplication by b. -/
theorem ceilDiv_le_iff {a b q : Nat} (hb : 0 < b) : ceilDiv a b ≤ q ↔ a ≤ q * b := by
  rw [ceilDiv, ← Nat.ceilDiv_eq_add_pred_div, ceilDiv_le_iff_le_mul hb, Nat.mul_comm]

/-- Settles O24: both halves are instances of the adjunction. -/
theorem ceilDivIsLeast : Obligations.CeilDivIsLeast := fun _ _ hb =>
  ⟨(ceilDiv_le_iff hb).1 le_rfl, fun _ => (ceilDiv_le_iff hb).2⟩

theorem bitrev_lt_two_pow (l i : Nat) : bitrev l i < 2 ^ l := by
  induction l generalizing i with
  | zero => simp [bitrev]
  | succ l ih =>
    have hlow := ih (i / 2)
    have hbit : i % 2 * 2 ^ l ≤ 1 * 2 ^ l := Nat.mul_le_mul_right _ (by omega)
    rw [bitrev, pow_succ]
    omega

/-- The top bit of the reversal is bit 0 of i, and the bits below come from i / 2. -/
theorem testBit_bitrev (l i t : Nat) (ht : t < l) : (bitrev l i).testBit (l - 1 - t) = i.testBit t := by
  induction l generalizing i t with
  | zero => omega
  | succ l ih =>
    rw [bitrev, Nat.mul_comm, Nat.testBit_two_pow_mul_add _ (bitrev_lt_two_pow l _)]
    cases t with
    | zero => simp
    | succ t =>
      rw [if_pos (by omega), show l + 1 - 1 - (t + 1) = l - 1 - t by omega, ih _ _ (by omega),
        Nat.testBit_succ]

theorem bitrev_bitrev {l i : Nat} (hi : i < 2 ^ l) : bitrev l (bitrev l i) = i := by
  refine Nat.eq_of_testBit_eq fun t => ?_
  rcases lt_or_ge t l with ht | ht
  · have h := testBit_bitrev l (bitrev l i) (l - 1 - t) (by omega)
    rwa [show l - 1 - (l - 1 - t) = t by omega, testBit_bitrev l i t ht] at h
  · have hpow : 2 ^ l ≤ 2 ^ t := Nat.pow_le_pow_right (by decide) ht
    rw [Nat.testBit_lt_two_pow (lt_of_lt_of_le (bitrev_lt_two_pow l _) hpow),
      Nat.testBit_lt_two_pow (lt_of_lt_of_le hi hpow)]

/-- Settles O10, by induction on the number of bits; the involution follows bit by bit. -/
theorem bitrevReversesBits : Obligations.BitrevReversesBits := fun l i hi =>
  ⟨bitrev_lt_two_pow l i, bitrev_bitrev hi, testBit_bitrev l i⟩

end Sys2Proof.Proofs

/-! SUPPORT. The binary32 number line (00_scope.md R9, R12): a word as its sign and its 31-bit pattern, the magnitudes of the patterns as a strictly increasing grid, and the comparisons. -/

namespace Sys2Proof.Proofs

open Sys2Proof.Machine Sys2Proof.Safety


/-- The 31 bits below the sign: below 0x7F800000 for a finite word, that for an infinity, above for a NaN. -/
def patternOf (a : Word) : Nat := a.toNat % 2 ^ 31

theorem patternOf_lt (a : Word) : patternOf a < 2 ^ 31 := Nat.mod_lt _ (by decide)

theorem toNat_eq_sign_add_pattern (a : Word) : a.toNat = (if signBit a then 2 ^ 31 else 0) + patternOf a := by
  have hs : signBit a = decide (2 ^ 31 ≤ a.toNat) := BitVec.msb_eq_decide a
  have ha := a.isLt
  unfold patternOf
  by_cases h : 2 ^ 31 ≤ a.toNat
  · rw [hs, decide_eq_true h, if_pos rfl]; omega
  · rw [hs, decide_eq_false h, if_neg (by decide)]; omega

/-- Sign and pattern determine the word. -/
theorem word_ext {a b : Word} (hs : signBit a = signBit b) (hp : patternOf a = patternOf b) : a = b :=
  BitVec.eq_of_toNat_eq (by rw [toNat_eq_sign_add_pattern a, toNat_eq_sign_add_pattern b, hs, hp])

theorem expField_eq (a : Word) : expField a = patternOf a / 2 ^ 23 := by
  unfold expField patternOf; omega

theorem fracField_eq (a : Word) : fracField a = patternOf a % 2 ^ 23 := by
  unfold fracField patternOf; omega

theorem isNaN_iff (a : Word) : isNaN a = true ↔ 0x7F800000 < patternOf a := by
  have := patternOf_lt a
  simp only [isNaN, expField_eq, fracField_eq, Bool.and_eq_true, beq_iff_eq, bne_iff_ne]
  omega

theorem isInf_iff (a : Word) : isInf a = true ↔ patternOf a = 0x7F800000 := by
  have := patternOf_lt a
  simp only [isInf, expField_eq, fracField_eq, Bool.and_eq_true, beq_iff_eq]
  omega

theorem isFinite_iff (a : Word) : isFinite a = true ↔ patternOf a < 0x7F800000 := by
  simp only [isFinite, Bool.and_eq_true, Bool.not_eq_true', ← Bool.not_eq_true, isNaN_iff, isInf_iff]
  omega

theorem isNaN_eq_false {a : Word} (h : patternOf a ≤ 0x7F800000) : isNaN a = false :=
  Bool.eq_false_iff.2 fun hn => absurd ((isNaN_iff a).1 hn) (by omega)

theorem isInf_eq_false_of_isFinite {w : Word} (hw : isFinite w = true) : isInf w = false := by
  simp_all [isFinite]

theorem isNaN_eq_false_of_isFinite {a : Word} (ha : isFinite a = true) : isNaN a = false :=
  isNaN_eq_false ((isFinite_iff a).1 ha).le

theorem isNaN_eq_false_of_isInf {a : Word} (ha : isInf a = true) : isNaN a = false :=
  isNaN_eq_false ((isInf_iff a).1 ha).le

theorem toNat_packSign (s : Bool) {c : Nat} (hc : c < 2 ^ 31) :
    (packSign s c).toNat = (if s then 2 ^ 31 else 0) + c := by
  rw [packSign, BitVec.toNat_ofNat, Nat.mod_eq_of_lt]
  split <;> omega

theorem patternOf_packSign (s : Bool) {c : Nat} (hc : c < 2 ^ 31) : patternOf (packSign s c) = c := by
  rw [patternOf, toNat_packSign s hc]
  split <;> omega

theorem signBit_packSign (s : Bool) {c : Nat} (hc : c < 2 ^ 31) : signBit (packSign s c) = s := by
  have h := toNat_eq_sign_add_pattern (packSign s c)
  rw [toNat_packSign s hc, patternOf_packSign s hc] at h
  cases s <;> cases hw : signBit (packSign _ c) <;> simp_all

/-- A word is the packing of its sign and its pattern. -/
theorem packSign_self (a : Word) : packSign (signBit a) (patternOf a) = a :=
  word_ext (signBit_packSign _ (patternOf_lt a)) (patternOf_packSign _ (patternOf_lt a))

theorem eq_packSign_of_isInf {a : Word} (ha : isInf a = true) : a = packSign (signBit a) 0x7F800000 := by
  rw [← (isInf_iff a).1 ha, packSign_self]

@[simp] theorem signBit_negate (a : Word) : signBit (negate a) = !signBit a := by
  simp [signBit, negate]

@[simp] theorem patternOf_negate (a : Word) : patternOf (negate a) = patternOf a := by
  simp only [patternOf, negate, BitVec.toNat_xor, Nat.xor_mod_two_pow]
  simp

@[simp] theorem isNaN_negate (a : Word) : isNaN (negate a) = isNaN a := by
  rw [Bool.eq_iff_iff, isNaN_iff, isNaN_iff, patternOf_negate]

@[simp] theorem isInf_negate (a : Word) : isInf (negate a) = isInf a := by
  rw [Bool.eq_iff_iff, isInf_iff, isInf_iff, patternOf_negate]

@[simp] theorem isFinite_negate (a : Word) : isFinite (negate a) = isFinite a := by
  rw [Bool.eq_iff_iff, isFinite_iff, isFinite_iff, patternOf_negate]

@[simp] theorem negate_negate (a : Word) : negate (negate a) = a :=
  word_ext (by simp) (by simp)

/-! The magnitude of a pattern. -/

/-- The magnitude of a pattern in units of 2^-149, continued past infinity without a bound, so that rounding needs no overflow case. -/
def gridUnits (c : Nat) : Nat :=
  if c / 2 ^ 23 = 0 then c % 2 ^ 23 else (2 ^ 23 + c % 2 ^ 23) * 2 ^ (c / 2 ^ 23 - 1)

theorem magnitude_eq_gridUnits (a : Word) : magnitude a = gridUnits (patternOf a) := by
  rw [magnitude, gridUnits, expField_eq, fracField_eq]

/-- Within a binade, its upper end included, patterns are evenly spaced; the subnormals join the first binade. -/
theorem gridUnits_binade {k r : Nat} (hr : r ≤ 2 ^ 24) (hk : k = 0 ∨ 2 ^ 23 ≤ r) :
    gridUnits (k * 2 ^ 23 + r) = r * 2 ^ k := by
  unfold gridUnits
  rcases lt_or_ge r (2 ^ 23) with hsub | hnorm
  · obtain rfl : k = 0 := by omega
    rw [if_pos (by omega), Nat.mod_eq_of_lt (by omega)]
    omega
  rw [if_neg (by omega)]
  rcases hr.eq_or_lt with rfl | hlt
  · rw [show (k * 2 ^ 23 + 2 ^ 24) % 2 ^ 23 = 0 by omega, show (k * 2 ^ 23 + 2 ^ 24) / 2 ^ 23 - 1 = k + 1 by omega]
    ring
  · rw [show (k * 2 ^ 23 + r) % 2 ^ 23 = r - 2 ^ 23 by omega, show (k * 2 ^ 23 + r) / 2 ^ 23 - 1 = k by omega,
      Nat.add_sub_cancel' hnorm]

theorem gridUnits_succ (c : Nat) : gridUnits (c + 1) = gridUnits c + 2 ^ (c / 2 ^ 23 - 1) := by
  obtain ⟨k, r, hc, hr, hk⟩ : ∃ k r, c = k * 2 ^ 23 + r ∧ r < 2 ^ 24 ∧ (k = 0 ∨ 2 ^ 23 ≤ r) :=
    ⟨c / 2 ^ 23 - 1, c - (c / 2 ^ 23 - 1) * 2 ^ 23, by omega, by omega, by omega⟩
  rw [show c / 2 ^ 23 - 1 = k by omega, hc, Nat.add_assoc, gridUnits_binade (by omega) (by omega),
    gridUnits_binade hr.le hk, Nat.succ_mul]

theorem gridUnits_strictMono : StrictMono gridUnits :=
  strictMono_nat_of_lt_succ fun c => by rw [gridUnits_succ]; exact Nat.lt_add_of_pos_right (by positivity)

@[simp] theorem gridUnits_zero : gridUnits 0 = 0 := rfl

@[simp] theorem gridUnits_eq_zero {c : Nat} : gridUnits c = 0 ↔ c = 0 :=
  gridUnits_strictMono.injective.eq_iff' gridUnits_zero

theorem magnitude_eq_zero {a : Word} : magnitude a = 0 ↔ patternOf a = 0 := by
  rw [magnitude_eq_gridUnits, gridUnits_eq_zero]

theorem magnitude_ne_zero_of_isInf {a : Word} (ha : isInf a = true) : magnitude a ≠ 0 := by
  rw [Ne, magnitude_eq_zero, (isInf_iff a).1 ha]; decide

theorem magnitude_lt_of_isFinite {a : Word} (ha : isFinite a = true) : magnitude a < 2 ^ 253 * 2 ^ 24 := by
  have h : gridUnits 0x7F800000 = 2 ^ 253 * 2 ^ 24 := by decide
  rw [magnitude_eq_gridUnits]
  exact h ▸ gridUnits_strictMono ((isFinite_iff a).1 ha)

/-! The exact value. -/

theorem units_eq (a : Word) : units a = (if signBit a then -1 else 1) * (magnitude a : Int) := by
  unfold units; split <;> simp

theorem value_eq (a : Word) : value a = (if signBit a then -1 else 1) * (magnitude a : ℚ) / 2 ^ 149 := by
  rw [value, units_eq]; push_cast; rfl

theorem value_lt_value {a b : Word} : value a < value b ↔ units a < units b := by
  rw [value, value, div_lt_div_iff_of_pos_right (by positivity), Int.cast_lt]

theorem value_eq_zero {a : Word} : value a = 0 ↔ magnitude a = 0 := by
  rw [value, div_eq_zero_iff, or_iff_left (by positivity), Int.cast_eq_zero, units]
  split <;> simp

@[simp] theorem value_negate (a : Word) : value (negate a) = -value a := by
  rw [value_eq, value_eq, magnitude_eq_gridUnits, magnitude_eq_gridUnits, patternOf_negate, signBit_negate]
  cases signBit a <;> simp [neg_div]

theorem value_neg_iff {a : Word} : value a < 0 ↔ signBit a = true ∧ magnitude a ≠ 0 := by
  rw [value, div_lt_iff₀ (by positivity), zero_mul, Int.cast_lt_zero, units]
  cases signBit a <;> simp [Nat.pos_iff_ne_zero]

/-! Comparisons (00_scope.md R12). -/

theorem orderKey_eq (a : Word) : orderKey a = if signBit a then -(patternOf a : Int) else patternOf a := rfl

/-- The order of the keys is that of the values: the grid is strictly increasing, and zeros of both signs coincide. -/
theorem orderKey_lt_iff (a b : Word) : orderKey a < orderKey b ↔ units a < units b := by
  have hab := gridUnits_strictMono.lt_iff_lt (a := patternOf a) (b := patternOf b)
  have hba := gridUnits_strictMono.lt_iff_lt (a := patternOf b) (b := patternOf a)
  have ha := gridUnits_eq_zero (c := patternOf a)
  have hb := gridUnits_eq_zero (c := patternOf b)
  simp only [orderKey_eq, units, magnitude_eq_gridUnits]
  cases signBit a <;> cases signBit b <;> simp only [Bool.false_eq_true, if_true, if_false] <;> omega

theorem lt32_iff (a b : Word) :
    lt32 a b = true ↔ isNaN a = false ∧ isNaN b = false ∧ orderKey a < orderKey b := by
  simp [lt32, and_assoc]

theorem lt32_finite {a b : Word} (ha : isFinite a = true) (hb : isFinite b = true) :
    lt32 a b = true ↔ value a < value b := by
  rw [isFinite_iff] at ha hb
  simp [lt32_iff, isNaN_eq_false ha.le, isNaN_eq_false hb.le, orderKey_lt_iff, value_lt_value]

theorem lt32_eq_false_of_le {a b : Word} (h : orderKey b ≤ orderKey a) : lt32 a b = false := by
  simp [lt32, h]

/-- Every finite key lies strictly between those of the infinities. -/
theorem orderKey_finite {a : Word} (ha : isFinite a = true) :
    orderKey 0xFF800000 < orderKey a ∧ orderKey a < orderKey 0x7F800000 := by
  rw [isFinite_iff] at ha
  rw [show orderKey 0xFF800000 = -0x7F800000 by decide, show orderKey 0x7F800000 = 0x7F800000 by decide, orderKey_eq]
  split <;> omega

/-- Settles O44: the order of the keys is that of the values, with the infinities outermost. -/
theorem lessThanComparesValues : Obligations.LessThanComparesValues := by
  intro a b
  refine ⟨lt32_finite, ?_, ?_, ?_, rfl⟩
  · rintro (h | h) <;> simp [lt32, h]
  · intro ha
    obtain ⟨hlow, hhigh⟩ := orderKey_finite ha
    have hnan := isNaN_eq_false ((isFinite_iff a).1 ha).le
    exact ⟨(lt32_iff _ _).2 ⟨hnan, by decide, hhigh⟩, (lt32_iff _ _).2 ⟨by decide, hnan, hlow⟩,
      lt32_eq_false_of_le hhigh.le, lt32_eq_false_of_le hlow.le⟩
  · intro ha hb
    rw [eq_packSign_of_isInf ha, eq_packSign_of_isInf hb]
    cases signBit a <;> cases signBit b <;> decide

end Sys2Proof.Proofs

/-! SUPPORT. Rounding to nearest even (00_scope.md R10, R13): the model's rounding finds the nearest point of the grid, and the nearest point of the grid is what `Safety.RoundsTo` asks for. -/

namespace Sys2Proof.Proofs

open Sys2Proof.Machine Sys2Proof.Safety

/-- Twice the midpoint between a pattern and the next. -/
def boundary (c : Nat) : Nat := gridUnits c + gridUnits (c + 1)

theorem boundary_strictMono : StrictMono boundary := fun _ _ h =>
  Nat.add_lt_add (gridUnits_strictMono h) (gridUnits_strictMono (Nat.add_lt_add_right h 1))

/-- From a significand of a binade upwards the step is at least that of the binade. -/
theorem le_boundary_binade {k r : Nat} (hr : r ≤ 2 ^ 24) (hk : k = 0 ∨ 2 ^ 23 ≤ r) :
    (2 * r + 1) * 2 ^ k ≤ boundary (k * 2 ^ 23 + r) := by
  have hstep : 2 ^ k ≤ 2 ^ ((k * 2 ^ 23 + r) / 2 ^ 23 - 1) := Nat.pow_le_pow_right (by decide) (by omega)
  rw [boundary, gridUnits_succ, gridUnits_binade hr hk, add_mul, mul_assoc]
  omega

/-- Downwards it is that of the binade too, but for the least significand. -/
theorem boundary_binade_pred {d k r : Nat} (hd : d + 1 = k * 2 ^ 23 + r) (hr : r ≤ 2 ^ 24) (h0 : 0 < r)
    (hk : k = 0 ∨ 2 ^ 23 < r) : boundary d + 2 ^ k = 2 * r * 2 ^ k := by
  obtain ⟨r, rfl⟩ : ∃ r', r = r' + 1 := ⟨r - 1, by omega⟩
  obtain rfl : d = k * 2 ^ 23 + r := by omega
  rw [boundary, hd, gridUnits_binade (by omega) (by omega), gridUnits_binade hr (by omega)]
  ring

/-- The unbounded pattern c is that of a real number of units y: y lies between the midpoints to both neighbours, and on a midpoint only if c is even. -/
structure NearestPattern (y : ℝ) (c : Nat) : Prop where
  lower : ∀ d, d + 1 = c → (boundary d : ℝ) ≤ 2 * y ∧ (2 * y = boundary d → c % 2 = 0)
  upper : 2 * y ≤ boundary c ∧ (2 * y = boundary c → c % 2 = 0)

/-- A rounded integer is even where the quotient is halfway between two integers. -/
theorem roundHalfEven_tie {n d : Nat} (hd : 0 < d)
    (h : 2 * n = (2 * roundHalfEven n d + 1) * d ∨ 2 * roundHalfEven n d * d = 2 * n + d) :
    roundHalfEven n d % 2 = 0 := by
  have hdiv := Nat.div_add_mod n d
  have hmod := Nat.mod_lt n hd
  have hodd : (2 * (n / d) + 1) * d = 2 * (d * (n / d)) + d := by ring
  have heven : 2 * (n / d) * d = 2 * (d * (n / d)) := by ring
  have hodd_succ : (2 * (n / d + 1) + 1) * d = 2 * (d * (n / d)) + 3 * d := by ring
  have heven_succ : 2 * (n / d + 1) * d = 2 * (d * (n / d)) + 2 * d := by ring
  unfold roundHalfEven at h ⊢
  simp only at h ⊢
  split_ifs at h ⊢
  · rw [hodd, heven] at h; omega
  · rw [hodd_succ, heven_succ] at h; omega
  · assumption
  · omega

theorem two_pow_le_of_dropBits {q : Nat} (h : dropBits q ≠ 0) : 2 ^ (23 + dropBits q) ≤ q := by
  have hq : q ≠ 0 := by rintro rfl; simp [dropBits] at h
  rw [show 23 + dropBits q = Nat.log2 q by unfold dropBits at *; omega]
  exact Nat.log2_self_le hq

/-- What the rounding to an integer multiple of 2^k units gives: the significand r keeps 24 bits, and is normal when bits were dropped. -/
theorem significand_bounds {num den : Nat} (hden : 0 < den) :
    let k := dropBits (num / den)
    let r := roundHalfEven num (den * 2 ^ k)
    r ≤ 2 ^ 24 ∧ (k = 0 ∨ 2 ^ 23 * (den * 2 ^ k) ≤ num ∧ 2 ^ 23 ≤ r) := by
  intro k r
  have hE : 0 < den * 2 ^ k := by positivity
  obtain ⟨hup, hlow⟩ : 2 * num ≤ (2 * r + 1) * (den * 2 ^ k) ∧ 2 * r * (den * 2 ^ k) ≤ 2 * num + den * 2 ^ k :=
    Laws.roundHalfEven_bounds num (den * 2 ^ k) hE
  have hlt : num < 2 ^ 24 * (den * 2 ^ k) := by
    have := (Nat.div_lt_iff_lt_mul hden).1 (Laws.lt_two_pow_dropBits (num / den))
    rwa [pow_add, mul_assoc, mul_comm (2 ^ _) den] at this
  refine ⟨?_, or_iff_not_imp_left.2 fun hk => ?_⟩
  · have h : 2 * r * (den * 2 ^ k) < (2 * 2 ^ 24 + 1) * (den * 2 ^ k) := by rw [add_mul]; omega
    have := Nat.lt_of_mul_lt_mul_right h
    omega
  · have hge : 2 ^ 23 * (den * 2 ^ k) ≤ num := by
      have := (Nat.le_div_iff_mul_le hden).1 (two_pow_le_of_dropBits hk)
      rwa [pow_add, mul_assoc, mul_comm (2 ^ _) den] at this
    have h : 2 * 2 ^ 23 * (den * 2 ^ k) ≤ (2 * r + 1) * (den * 2 ^ k) := by omega
    have := Nat.le_of_mul_le_mul_right h hE
    exact ⟨hge, by omega⟩

/-- The pattern that roundMagnitude computes, before it is cut off at infinity. -/
def unboundedPattern (num den : Nat) : Nat :=
  dropBits (num / den) * 2 ^ 23 + roundHalfEven num (den * 2 ^ dropBits (num / den))

theorem roundMagnitude_eq (num den : Nat) :
    roundMagnitude num den = min (unboundedPattern num den) 0x7F800000 := rfl

/-- The comparisons of `NearestPattern` for a rational number, in whole numbers. -/
theorem nearestPattern_of_nat {num den c : Nat} (hden : 0 < den)
    (hlow : ∀ d, d + 1 = c → boundary d * den ≤ 2 * num ∧ (2 * num = boundary d * den → c % 2 = 0))
    (hup : 2 * num ≤ boundary c * den ∧ (2 * num = boundary c * den → c % 2 = 0)) :
    NearestPattern ((num : ℝ) / den) c := by
  have hpos : (0 : ℝ) < den := Nat.cast_pos.2 hden
  refine ⟨fun d hd => ⟨?_, fun h => (hlow d hd).2 ?_⟩, ?_, fun h => hup.2 ?_⟩
  · rw [← mul_div_assoc, le_div_iff₀ hpos]; exact_mod_cast (hlow d hd).1
  · rw [← mul_div_assoc, div_eq_iff hpos.ne'] at h; exact_mod_cast h
  · rw [← mul_div_assoc, div_le_iff₀ hpos]; exact_mod_cast hup.1
  · rw [← mul_div_assoc, div_eq_iff hpos.ne'] at h; exact_mod_cast h

/-- The model's rounding finds the nearest pattern. With k bits dropped the patterns around it are at least 2^k units apart; only below the least significand of a binade are they closer, and there the number is no less than that significand. -/
theorem nearestPattern_unboundedPattern (num : Nat) {den : Nat} (hden : 0 < den) :
    NearestPattern ((num : ℝ) / den) (unboundedPattern num den) := by
  obtain ⟨hr24, hnorm⟩ := significand_bounds (num := num) hden
  have hE : 0 < den * 2 ^ dropBits (num / den) := by positivity
  obtain ⟨hup, hlow⟩ := Laws.roundHalfEven_bounds num _ hE
  have htie := roundHalfEven_tie (n := num) hE
  unfold unboundedPattern
  generalize dropBits (num / den) = k at *
  generalize roundHalfEven num (den * 2 ^ k) = r at *
  have heven : r % 2 = 0 → (k * 2 ^ 23 + r) % 2 = 0 := by omega
  refine nearestPattern_of_nat hden (fun d hd => ?_) ?_
  · by_cases hstep : k = 0 ∨ 2 ^ 23 < r
    · have hb : boundary d * den + den * 2 ^ k = 2 * r * (den * 2 ^ k) := by
        have := congrArg (den * ·) (boundary_binade_pred hd hr24 (by omega) hstep)
        linarith
      exact ⟨by omega, fun h => heven (htie (Or.inr (by omega)))⟩
    · obtain rfl : r = 2 ^ 23 := by omega
      have hgrid : gridUnits (k * 2 ^ 23 + 2 ^ 23) = 2 ^ 23 * 2 ^ k := gridUnits_binade hr24 (Or.inr le_rfl)
      have hlt : boundary d < 2 * (2 ^ 23 * 2 ^ k) := by
        have := gridUnits_strictMono (Nat.lt_of_succ_le hd.le)
        rw [boundary, hd]; omega
      have hnum : 2 * (2 ^ 23 * 2 ^ k) * den ≤ 2 * num := by
        have := (hnorm.resolve_left (by omega)).1
        linarith
      have := Nat.mul_lt_mul_of_pos_right hlt hden
      exact ⟨by omega, fun h => by omega⟩
  · have hb : (2 * r + 1) * (den * 2 ^ k) ≤ boundary (k * 2 ^ 23 + r) * den := by
      have := Nat.mul_le_mul_right den (le_boundary_binade hr24 (hnorm.imp_right And.right))
      linarith
    exact ⟨by omega, fun h => heven (htie (Or.inl (by omega)))⟩

/-! From the nearest pattern to `RoundsTo`. -/

/-- The sign of a word as a factor. -/
def signFactor (s : Bool) : ℝ := if s then -1 else 1

@[simp] theorem signFactor_false : signFactor false = 1 := rfl

@[simp] theorem signFactor_true : signFactor true = -1 := rfl

theorem abs_signFactor (s : Bool) : |signFactor s| = 1 := by cases s <;> simp [signFactor]

/-- The factor of a sign that is the exclusive or of two. -/
theorem signFactor_bne (s t : Bool) : signFactor (s != t) = signFactor s * signFactor t := by
  cases s <;> cases t <;> simp

theorem signFactor_mul_self (s : Bool) : signFactor s * signFactor s = 1 := by
  cases s <;> simp

theorem inv_signFactor (s : Bool) : (signFactor s)⁻¹ = signFactor s := by
  cases s <;> simp

theorem cast_value (a : Word) : (value a : ℝ) = signFactor (signBit a) * (magnitude a / 2 ^ 149) := by
  rw [value_eq, signFactor]
  split <;> push_cast <;> ring

/-- A smaller pattern is no nearer than the nearest one, and equally near only below an even one. -/
theorem NearestPattern.of_lt {y : ℝ} {c d : Nat} (h : NearestPattern y c) (hd : d < c) :
    (gridUnits d : ℝ) + gridUnits c ≤ 2 * y ∧ (2 * y = gridUnits d + gridUnits c → c % 2 = 0) := by
  obtain ⟨e, rfl⟩ : ∃ e, c = e + 1 := ⟨c - 1, by omega⟩
  obtain ⟨hle, htie⟩ := h.lower e rfl
  have hmono : (gridUnits d : ℝ) ≤ gridUnits e := by
    exact_mod_cast gridUnits_strictMono.monotone (Nat.le_of_lt_succ hd)
  rw [boundary, Nat.cast_add] at hle htie
  exact ⟨by linarith, fun heq => htie (by linarith)⟩

/-- A greater pattern is no nearer than the nearest one, and equally near only above an even one. -/
theorem NearestPattern.of_gt {y : ℝ} {c d : Nat} (h : NearestPattern y c) (hd : c < d) :
    2 * y ≤ gridUnits c + gridUnits d ∧ (2 * y = gridUnits c + gridUnits d → c % 2 = 0) := by
  obtain ⟨hle, htie⟩ := h.upper
  have hmono : (gridUnits (c + 1) : ℝ) ≤ gridUnits d := by
    exact_mod_cast gridUnits_strictMono.monotone (Nat.succ_le_of_lt hd)
  rw [boundary, Nat.cast_add] at hle htie
  exact ⟨by linarith, fun heq => htie (by linarith)⟩

/-- No point of the grid is nearer than the nearest pattern. -/
theorem NearestPattern.dist_le {y : ℝ} {c : Nat} (h : NearestPattern y c) (d : Nat) :
    |y - gridUnits c| ≤ |y - gridUnits d| ∧ (|y - gridUnits d| = |y - gridUnits c| → d ≠ c → c % 2 = 0) := by
  rcases lt_trichotomy d c with hd | rfl | hd
  · obtain ⟨hle, htie⟩ := h.of_lt hd
    have hlt : (gridUnits d : ℝ) < gridUnits c := by exact_mod_cast gridUnits_strictMono hd
    rw [abs_of_nonneg (by linarith : 0 ≤ y - gridUnits d)]
    refine ⟨abs_le.2 ⟨by linarith, by linarith⟩, fun heq _ => htie ?_⟩
    rcases abs_cases (y - gridUnits c) with ⟨ha, -⟩ | ⟨ha, -⟩ <;> linarith
  · exact ⟨le_rfl, fun _ hne => absurd rfl hne⟩
  · obtain ⟨hle, htie⟩ := h.of_gt hd
    have hlt : (gridUnits c : ℝ) < gridUnits d := by exact_mod_cast gridUnits_strictMono hd
    rw [abs_of_nonpos (by linarith : y - gridUnits d ≤ 0)]
    refine ⟨abs_le.2 ⟨by linarith, by linarith⟩, fun heq _ => htie ?_⟩
    rcases abs_cases (y - gridUnits c) with ⟨ha, -⟩ | ⟨ha, -⟩ <;> linarith

/-- Nor is a point of either sign: zero is nearer to a nonnegative number than a negative point. -/
theorem NearestPattern.dist_signed_le {y : ℝ} {c : Nat} (hy : 0 ≤ y) (h : NearestPattern y c) (t : Bool) (d : Nat) :
    |y - gridUnits c| ≤ |y - signFactor t * gridUnits d| ∧
      (|y - signFactor t * gridUnits d| = |y - gridUnits c| → signFactor t * gridUnits d ≠ gridUnits c → c % 2 = 0) := by
  cases t with
  | false =>
    obtain ⟨hle, htie⟩ := h.dist_le d
    rw [signFactor_false, one_mul]
    exact ⟨hle, fun heq hne => htie heq fun hdc => hne (hdc ▸ rfl)⟩
  | true =>
    obtain ⟨hle, htie⟩ := h.dist_le 0
    have hd : (0 : ℝ) ≤ gridUnits d := Nat.cast_nonneg _
    rw [gridUnits_zero, Nat.cast_zero, sub_zero, abs_of_nonneg hy] at hle htie
    rw [signFactor_true, neg_one_mul, sub_neg_eq_add, abs_of_nonneg (by linarith : 0 ≤ y + gridUnits d)]
    refine ⟨by linarith, fun heq hne => htie (by linarith) ?_⟩
    rintro rfl
    rw [gridUnits_zero, Nat.cast_zero] at hle heq hne
    exact hne (by linarith)

/-- Distances to values, in units and seen from the side of the number's sign. -/
theorem abs_sub_value (s : Bool) (y : ℝ) (b : Word) :
    |signFactor s * (y / 2 ^ 149) - value b| =
      |y - signFactor (s != signBit b) * gridUnits (patternOf b)| / 2 ^ 149 := by
  have hmul : signFactor s * (y / 2 ^ 149) - value b =
      signFactor s * ((y - signFactor (s != signBit b) * gridUnits (patternOf b)) / 2 ^ 149) := by
    rw [cast_value, magnitude_eq_gridUnits, signFactor_bne]
    linear_combination (signFactor (signBit b) * gridUnits (patternOf b) / 2 ^ 149) * signFactor_mul_self s
  rw [hmul, abs_mul, abs_signFactor, one_mul, abs_div, abs_of_pos (by positivity : (0 : ℝ) < 2 ^ 149)]

/-- Values agree where the signed units do, seen from the sign of either. -/
theorem value_eq_of_signed_units {a b : Word}
    (h : signFactor (signBit a != signBit b) * gridUnits (patternOf b) = gridUnits (patternOf a)) :
    value b = value a := by
  have : (value b : ℝ) = value a := by
    rw [cast_value, cast_value, magnitude_eq_gridUnits, magnitude_eq_gridUnits, ← h, signFactor_bne]
    linear_combination (-(signFactor (signBit b) * gridUnits (patternOf b) / 2 ^ 149)) * signFactor_mul_self (signBit a)
  exact_mod_cast this

/-- The bound of overflow is the midpoint below infinity. -/
theorem boundary_below_infinity : (boundary 0x7F7FFFFF : ℝ) = 2 * (overflowBound * 2 ^ 149) := by
  have h : boundary 0x7F7FFFFF = (2 ^ 25 - 1) * 2 ^ 253 := by decide
  rw [h, overflowBound]
  push_cast
  norm_num

theorem NearestPattern.overflow {y : ℝ} {c : Nat} (h : NearestPattern y c) (hc : 0x7F800000 ≤ c) :
    (overflowBound : ℝ) * 2 ^ 149 ≤ y := by
  obtain ⟨e, rfl⟩ : ∃ e, c = e + 1 := ⟨c - 1, by omega⟩
  have hb : (boundary 0x7F7FFFFF : ℝ) ≤ boundary e := by
    exact_mod_cast boundary_strictMono.monotone (by omega : 0x7F7FFFFF ≤ e)
  rw [boundary_below_infinity] at hb
  linarith [(h.lower e rfl).1]

theorem NearestPattern.noOverflow {y : ℝ} {c : Nat} (h : NearestPattern y c) (hc : c < 0x7F800000) :
    y < (overflowBound : ℝ) * 2 ^ 149 := by
  obtain ⟨hle, htie⟩ := h.upper
  have hb := boundary_below_infinity
  rcases (Nat.le_of_lt_succ hc).eq_or_lt with rfl | hlt
  · exact lt_of_le_of_ne (by linarith) fun heq => absurd (htie (by linarith)) (by decide)
  · have : (boundary c : ℝ) < boundary 0x7F7FFFFF := by exact_mod_cast boundary_strictMono hlt
    linarith

theorem roundsTo_of_isInf {x : ℝ} {w : Word} (hw : isInf w = true) (hx : (overflowBound : ℝ) ≤ |x|)
    (hs : signBit w = true ↔ x < 0) : RoundsTo x w := by
  rw [RoundsTo, if_pos hw]
  exact ⟨hx, hs⟩

theorem roundsTo_of_isFinite {x : ℝ} {w : Word} (hw : isFinite w = true) (hx : |x| < (overflowBound : ℝ))
    (hnear : ∀ b, isFinite b = true → |x - value w| ≤ |x - value b| ∧
      (|x - value b| = |x - value w| → value b ≠ value w → w.toNat % 2 = 0)) : RoundsTo x w := by
  rw [RoundsTo, if_neg (by simp [isInf_eq_false_of_isFinite hw])]
  exact ⟨hw, hx, hnear⟩

/-- The word of the nearest pattern, cut off at infinity, is the rounded number. -/
theorem roundsTo_of_nearestPattern {y : ℝ} {c : Nat} (hy : 0 ≤ y) (h : NearestPattern y c) (s : Bool) :
    RoundsTo (signFactor s * (y / 2 ^ 149)) (packSign s (min c 0x7F800000)) := by
  have habs : |signFactor s * (y / 2 ^ 149)| = y / 2 ^ 149 := by
    rw [abs_mul, abs_signFactor, one_mul, abs_of_nonneg (by positivity)]
  rcases le_or_gt 0x7F800000 c with hc | hc
  · rw [min_eq_right hc]
    have hover := h.overflow hc
    have hpos : 0 < y / 2 ^ 149 := div_pos (lt_of_lt_of_le (by norm_num [overflowBound]) hover) (by positivity)
    refine roundsTo_of_isInf ((isInf_iff _).2 (patternOf_packSign s (by decide))) ?_ ?_
    · rwa [habs, le_div_iff₀ (by positivity)]
    · rw [signBit_packSign s (by decide)]
      cases s <;> simp <;> linarith
  · rw [min_eq_left hc.le]
    have hp : patternOf (packSign s c) = c := patternOf_packSign s (by omega)
    have hs : signBit (packSign s c) = s := signBit_packSign s (by omega)
    have hw : |signFactor s * (y / 2 ^ 149) - value (packSign s c)| = |y - gridUnits c| / 2 ^ 149 := by
      rw [abs_sub_value, hs, hp, bne_self_eq_false, signFactor_false, one_mul]
    refine roundsTo_of_isFinite ((isFinite_iff _).2 (by rwa [hp])) ?_ fun b _ => ?_
    · rw [habs, div_lt_iff₀ (by positivity)]
      exact h.noOverflow hc
    · obtain ⟨hle, htie⟩ := h.dist_signed_le hy (s != signBit b) (patternOf b)
      rw [hw, abs_sub_value, div_le_div_iff_of_pos_right (by positivity), div_left_inj' (by positivity)]
      refine ⟨hle, fun heq hne => ?_⟩
      have heven := htie heq fun hu => hne (value_eq_of_signed_units (by rwa [hs, hp]))
      rw [toNat_packSign s (by omega)]
      cases s <;> simp <;> omega

/-- RN32 of the model is RN32 of the spec. -/
theorem roundsTo_round32 (s : Bool) (num : Nat) {den : Nat} (hden : 0 < den) :
    RoundsTo (signFactor s * ((num : ℝ) / den / 2 ^ 149)) (round32 s num den) := by
  rw [round32, roundMagnitude_eq]
  exact roundsTo_of_nearestPattern (by positivity) (nearestPattern_unboundedPattern num hden) s

end Sys2Proof.Proofs

/-! SUPPORT. The five primitives (00_scope.md R10, R11): an equation for each class of operands, and from it correct rounding, signs and NaN results. -/

namespace Sys2Proof.Proofs

open Sys2Proof.Machine Sys2Proof.Safety


theorem roundMagnitude_le (num den : Nat) : roundMagnitude num den ≤ 0x7F800000 := min_le_right _ _

@[simp] theorem roundMagnitude_zero : roundMagnitude 0 1 = 0 := by decide

@[simp] theorem signBit_round32 (s : Bool) (num den : Nat) : signBit (round32 s num den) = s :=
  signBit_packSign s (by have := roundMagnitude_le num den; omega)

theorem isNaN_packSign (s : Bool) {c : Nat} (hc : c ≤ 0x7F800000) : isNaN (packSign s c) = false :=
  isNaN_eq_false (by rwa [patternOf_packSign s (by omega)])

@[simp] theorem isNaN_round32 (s : Bool) (num den : Nat) : isNaN (round32 s num den) = false :=
  isNaN_packSign s (roundMagnitude_le num den)

/-! Addition and subtraction. -/

/-- The sign of a sum of finite values: that of the exact sum, and for an exact zero that of the operands if it is minus for both. -/
def sumSign (a b : Word) : Bool :=
  if units a + units b = 0 then signBit a && signBit b else decide (units a + units b < 0)

theorem add32_finite {a b : Word} (ha : isFinite a = true) (hb : isFinite b = true) :
    add32 a b = round32 (sumSign a b) (units a + units b).natAbs 1 := by
  unfold add32 sumSign
  rw [isNaN_eq_false_of_isFinite ha, isNaN_eq_false_of_isFinite hb, isInf_eq_false_of_isFinite ha,
    isInf_eq_false_of_isFinite hb]
  by_cases hz : units a + units b = 0 <;> simp [hz, round32]

theorem add32_inf_left {a b : Word} (ha : isInf a = true) (hb : isNaN b = false)
    (hs : isInf b = true → signBit a = signBit b) : add32 a b = a := by
  unfold add32
  cases hib : isInf b <;> simp_all [isNaN_eq_false_of_isInf ha]

theorem add32_inf_right {a b : Word} (ha : isFinite a = true) (hb : isInf b = true) : add32 a b = b := by
  simp [add32, isNaN_eq_false_of_isFinite ha, isNaN_eq_false_of_isInf hb, isInf_eq_false_of_isFinite ha, hb]

theorem cast_value_add (a b : Word) :
    ((value a + value b : ℚ) : ℝ) =
      signFactor (sumSign a b) * (((units a + units b).natAbs : ℝ) / (1 : ℕ) / 2 ^ 149) := by
  have hsum : ((value a + value b : ℚ) : ℝ) = ((units a + units b : ℤ) : ℝ) / 2 ^ 149 := by
    simp only [value]; push_cast; ring
  rw [hsum, sumSign, Nat.cast_natAbs, Int.cast_abs]
  rcases lt_trichotomy (units a + units b) 0 with h | h | h
  · rw [if_neg h.ne, decide_eq_true h, abs_of_neg (Int.cast_lt_zero.2 h), signFactor_true, Nat.cast_one]; ring
  · simp [h]
  · rw [if_neg h.ne', decide_eq_false h.not_gt, abs_of_pos (Int.cast_pos.2 h), signFactor_false, Nat.cast_one]; ring

theorem roundsTo_add32 {a b : Word} (ha : isFinite a = true) (hb : isFinite b = true) :
    RoundsTo ((value a + value b : ℚ) : ℝ) (add32 a b) := by
  rw [add32_finite ha hb, cast_value_add]
  exact roundsTo_round32 _ _ Nat.one_pos

theorem eq_negZero_iff {a : Word} : a = 0x80000000 ↔ signBit a = true ∧ patternOf a = 0 :=
  ⟨by rintro rfl; decide, fun ⟨hs, hp⟩ => word_ext (hs.trans (by decide)) (hp.trans (by decide))⟩

/-- An exact zero sum is +0 unless both operands are −0: two minus signs leave no other zero sum. -/
theorem add32_zero {a b : Word} (ha : isFinite a = true) (hb : isFinite b = true) (h : value a + value b = 0) :
    add32 a b = if a = 0x80000000 ∧ b = 0x80000000 then 0x80000000 else 0x00000000 := by
  have hu : units a + units b = 0 := by
    have : ((units a + units b : ℤ) : ℚ) = 0 := by
      simp only [value] at h
      push_cast
      linarith
    exact_mod_cast this
  have hsign : (signBit a && signBit b) = decide (a = 0x80000000 ∧ b = 0x80000000) := by
    rw [Bool.eq_iff_iff, decide_eq_true_iff, eq_negZero_iff, eq_negZero_iff, Bool.and_eq_true, ← magnitude_eq_zero,
      ← magnitude_eq_zero]
    refine ⟨fun ⟨hsa, hsb⟩ => ?_, fun ⟨⟨hsa, _⟩, hsb, _⟩ => ⟨hsa, hsb⟩⟩
    rw [units, units, if_pos hsa, if_pos hsb] at hu
    exact ⟨⟨hsa, by omega⟩, hsb, by omega⟩
  rw [add32_finite ha hb, sumSign, if_pos hu, hu, Int.natAbs_zero, round32, roundMagnitude_zero, hsign]
  by_cases hz : a = 0x80000000 ∧ b = 0x80000000
  · rw [decide_eq_true hz, if_pos hz]; decide
  · rw [decide_eq_false hz, if_neg hz]; decide

theorem negate_eq_negZero_iff {b : Word} : negate b = 0x80000000 ↔ b = 0x00000000 := by
  rw [eq_negZero_iff, signBit_negate, patternOf_negate]
  exact ⟨fun ⟨hs, hp⟩ => word_ext (by rw [Bool.not_eq_true'] at hs; exact hs) (hp.trans (by decide)), by rintro rfl; decide⟩

/-- Settles O40: the sum of units is exact and rounds once; a difference is the sum with the other sign. -/
theorem addIsCorrectlyRounded : Obligations.AddIsCorrectlyRounded := by
  refine ⟨fun a b ha hb => ⟨roundsTo_add32 ha hb, ?_, add32_zero ha hb, fun h => ?_⟩, fun a b ha hb => ?_, fun a ha => ?_⟩
  · have := roundsTo_add32 ha ((isFinite_negate b).trans hb)
    rwa [value_negate, ← sub_eq_add_neg] at this
  · rw [sub32, add32_zero ha ((isFinite_negate b).trans hb) (by rw [value_negate, h, add_neg_cancel]),
      if_congr (and_congr_right' negate_eq_negZero_iff) rfl rfl]
  · have hinf := isInf_eq_false_of_isFinite hb
    have hnan := isNaN_eq_false_of_isFinite hb
    exact ⟨add32_inf_left ha hnan (by simp [hinf]), add32_inf_right hb ha,
      add32_inf_left ha (by rwa [isNaN_negate]) (by simp [hinf]), add32_inf_right hb ((isInf_negate a).trans ha)⟩
  · have hself := add32_inf_left ha (isNaN_eq_false_of_isInf ha) fun _ => rfl
    exact ⟨hself, show add32 a (negate (negate a)) = a by rwa [negate_negate]⟩

/-! Multiplication and division. -/

theorem packSign_infinity (s t : Bool) :
    packSign (s != t) 0x7F800000 = if s = t then 0x7F800000 else 0xFF800000 := by
  cases s <;> cases t <;> decide

theorem packSign_zero (s t : Bool) : packSign (s != t) 0 = if s = t then 0x00000000 else 0x80000000 := by
  cases s <;> cases t <;> decide

theorem mul32_finite {a b : Word} (ha : isFinite a = true) (hb : isFinite b = true) :
    mul32 a b = round32 (signBit a != signBit b) (magnitude a * magnitude b) (2 ^ 149) := by
  simp [mul32, isNaN_eq_false_of_isFinite ha, isNaN_eq_false_of_isFinite hb, isInf_eq_false_of_isFinite ha,
    isInf_eq_false_of_isFinite hb]

theorem mul32_inf {a b : Word} (h : isInf a = true ∨ isInf b = true) (ha : isNaN a = false) (hb : isNaN b = false)
    (ha0 : magnitude a ≠ 0) (hb0 : magnitude b ≠ 0) :
    mul32 a b = packSign (signBit a != signBit b) 0x7F800000 := by
  simp [mul32, ha, hb, ha0, hb0, h]

theorem div32_finite {a b : Word} (ha : isFinite a = true) (hb : isFinite b = true) (hb0 : magnitude b ≠ 0) :
    div32 a b = round32 (signBit a != signBit b) (magnitude a * 2 ^ 149) (magnitude b) := by
  simp [div32, isNaN_eq_false_of_isFinite ha, isNaN_eq_false_of_isFinite hb, isInf_eq_false_of_isFinite ha,
    isInf_eq_false_of_isFinite hb, hb0]

theorem div32_by_zero {a b : Word} (ha : isFinite a = true) (hb : isFinite b = true) (ha0 : magnitude a ≠ 0)
    (hb0 : magnitude b = 0) : div32 a b = packSign (signBit a != signBit b) 0x7F800000 := by
  simp [div32, isNaN_eq_false_of_isFinite ha, isNaN_eq_false_of_isFinite hb, isInf_eq_false_of_isFinite ha,
    isInf_eq_false_of_isFinite hb, ha0, hb0]

theorem div32_inf_left {a b : Word} (ha : isInf a = true) (hb : isFinite b = true) :
    div32 a b = packSign (signBit a != signBit b) 0x7F800000 := by
  simp [div32, isNaN_eq_false_of_isInf ha, isNaN_eq_false_of_isFinite hb, isInf_eq_false_of_isFinite hb, ha]

theorem div32_inf_right {a b : Word} (ha : isFinite a = true) (hb : isInf b = true) :
    div32 a b = packSign (signBit a != signBit b) 0 := by
  simp [div32, isNaN_eq_false_of_isInf hb, isNaN_eq_false_of_isFinite ha, isInf_eq_false_of_isFinite ha, hb]

theorem roundsTo_mul32 {a b : Word} (ha : isFinite a = true) (hb : isFinite b = true) :
    RoundsTo ((value a * value b : ℚ) : ℝ) (mul32 a b) := by
  rw [mul32_finite ha hb]
  convert roundsTo_round32 (signBit a != signBit b) (magnitude a * magnitude b) (by positivity : 0 < 2 ^ 149) using 1
  rw [Rat.cast_mul, cast_value, cast_value, signFactor_bne]
  push_cast
  ring

theorem roundsTo_div32 {a b : Word} (ha : isFinite a = true) (hb : isFinite b = true) (hb0 : magnitude b ≠ 0) :
    RoundsTo ((value a / value b : ℚ) : ℝ) (div32 a b) := by
  rw [div32_finite ha hb hb0]
  convert roundsTo_round32 (signBit a != signBit b) (magnitude a * 2 ^ 149) (Nat.pos_of_ne_zero hb0) using 1
  rw [Rat.cast_div, cast_value, cast_value, signFactor_bne, mul_div_mul_comm, div_eq_mul_inv (signFactor _),
    inv_signFactor, div_div_div_cancel_right₀ (by positivity), div_right_comm, Nat.cast_mul, Nat.cast_pow,
    Nat.cast_ofNat, mul_div_cancel_right₀ _ (by positivity)]

/-- Settles O41: product and quotient of magnitudes are exact and round once; the sign is apart. -/
theorem mulAndDivAreCorrectlyRounded : Obligations.MulAndDivAreCorrectlyRounded := by
  refine ⟨fun a b ha hb => ⟨roundsTo_mul32 ha hb, ?_, fun h0 => ?_, fun hb0 ha0 => ?_⟩, fun a b ha hb => ?_,
    fun a b ha hb => ?_⟩
  · rw [mul32_finite ha hb, signBit_round32]
  · have hb0 : magnitude b ≠ 0 := mt value_eq_zero.2 h0
    exact ⟨roundsTo_div32 ha hb hb0, by rw [div32_finite ha hb hb0, signBit_round32]⟩
  · rw [div32_by_zero ha hb (mt value_eq_zero.2 ha0) (value_eq_zero.1 hb0),
      packSign_infinity]
  · have ha0 := magnitude_ne_zero_of_isInf ha
    have hanan := isNaN_eq_false_of_isInf ha
    obtain ⟨hbnan, hb0⟩ : isNaN b = false ∧ magnitude b ≠ 0 := by
      rcases hb with hb | ⟨hb, hb0⟩
      · exact ⟨isNaN_eq_false_of_isInf hb, magnitude_ne_zero_of_isInf hb⟩
      · exact ⟨isNaN_eq_false_of_isFinite hb, mt value_eq_zero.2 hb0⟩
    rw [mul32_inf (.inl ha) hanan hbnan ha0 hb0, mul32_inf (.inr ha) hbnan hanan hb0 ha0, bne_comm (a := signBit b),
      packSign_infinity]
    exact ⟨rfl, rfl⟩
  · rw [div32_inf_left ha hb, div32_inf_right hb ha, bne_comm (a := signBit b), packSign_infinity, packSign_zero]
    exact ⟨rfl, rfl⟩

/-! The square root. -/

/-- The digit by digit root is the integer square root: a digit of the root is settled by two bits of n. -/
theorem isqrt_eq_sqrt {fuel n : Nat} (h : n < 4 ^ fuel) : isqrt fuel n = Nat.sqrt n := by
  induction fuel generalizing n with
  | zero =>
    obtain rfl : n = 0 := by simpa using h
    rfl
  | succ fuel ih =>
    have hq : n / 4 < 4 ^ fuel := Nat.div_lt_of_lt_mul (by rwa [← pow_succ'])
    rw [isqrt, ih hq]
    rcases eq_or_ne n 0 with rfl | hn
    · rfl
    have hlow := Nat.sqrt_le (n / 4)
    have hup := Nat.lt_succ_sqrt (n / 4)
    rw [Nat.succ_eq_add_one] at hup
    generalize Nat.sqrt (n / 4) = s at *
    have hodd : (2 * s + 1) * (2 * s + 1) = 4 * (s * s) + 4 * s + 1 := by ring
    have hnext : (2 * s + 1 + 1) * (2 * s + 1 + 1) = 4 * (s * s) + 8 * s + 4 := by ring
    have heven : 2 * s * (2 * s) = 4 * (s * s) := by ring
    have hsucc : (s + 1) * (s + 1) = s * s + 2 * s + 1 := by ring
    rw [hsucc] at hup
    rw [if_neg hn, Nat.eq_sqrt]
    simp only
    split_ifs with hbit
    · rw [hnext]; exact ⟨hbit, by omega⟩
    · rw [heven]; exact ⟨by omega, by omega⟩

/-- What sqrt32 rounds, in half units: twice the integer root q of n, and one more where q is not exact. -/
def rootHalves (q n : Nat) : Nat := 2 * q + if q * q = n then 0 else 1

/-- The midpoints from 2^25 on are even. -/
theorem boundary_even_or_small (c : Nat) : boundary c % 2 = 0 ∨ boundary c ≤ 2 ^ 25 := by
  rcases lt_or_ge c (2 ^ 24) with hc | hc
  · refine Or.inr ?_
    have hle := boundary_strictMono.monotone (Nat.le_pred_of_lt hc)
    exact hle.trans (by decide)
  · obtain ⟨k, hk⟩ : ∃ k, c / 2 ^ 23 - 1 = k + 1 := ⟨c / 2 ^ 23 - 2, by omega⟩
    refine Or.inl ?_
    rw [boundary, gridUnits_succ, hk, pow_succ]
    omega

/-- A number strictly between two integers from 2^24 on rounds like the number halfway between them: no midpoint lies strictly within, nor is one hit. -/
theorem NearestPattern.of_half {q c : Nat} {y : ℝ} (h : NearestPattern (((2 * q + 1 : ℕ) : ℝ) / (2 : ℕ)) c)
    (hq : 2 ^ 24 ≤ q) (hlow : q < y) (hup : y < q + 1) : NearestPattern y c := by
  have hhalf : 2 * (((2 * q + 1 : ℕ) : ℝ) / (2 : ℕ)) = (2 * q + 1 : ℕ) := by push_cast; ring
  obtain ⟨hl, hu⟩ := h
  rw [hhalf] at hu
  refine ⟨fun d hd => ?_, ?_⟩
  · have hle := (hl d hd).1
    rw [hhalf, Nat.cast_le] at hle
    have : boundary d ≤ 2 * q := by have := boundary_even_or_small d; omega
    have : (boundary d : ℝ) ≤ 2 * q := by exact_mod_cast this
    exact ⟨by linarith, fun heq => by linarith⟩
  · have hle := hu.1
    rw [Nat.cast_le] at hle
    have : 2 * q + 2 ≤ boundary c := by have := boundary_even_or_small c; omega
    have : (2 * q + 2 : ℝ) ≤ boundary c := by exact_mod_cast this
    exact ⟨by linarith, fun heq => by linarith⟩

theorem sqrt32_of_pos {a : Word} (ha : isFinite a = true) (hs : signBit a = false) (h0 : magnitude a ≠ 0) :
    sqrt32 a = round32 false (rootHalves (isqrt 220 (magnitude a * 2 ^ 149)) (magnitude a * 2 ^ 149)) 2 := by
  simp [sqrt32, rootHalves, isNaN_eq_false_of_isFinite ha, isInf_eq_false_of_isFinite ha, hs, h0]

/-- The halves that sqrt32 rounds have the nearest pattern of the real root. -/
theorem nearestPattern_sqrt {n : Nat} (hn : 2 ^ 48 ≤ n) :
    NearestPattern (√n) (unboundedPattern (rootHalves (Nat.sqrt n) n) 2) := by
  have hle := Nat.sqrt_le' n
  have hlt := Nat.lt_succ_sqrt' n
  have hq : 2 ^ 24 ≤ Nat.sqrt n := Nat.le_sqrt.2 (by omega)
  have h := nearestPattern_unboundedPattern (rootHalves (Nat.sqrt n) n) Nat.two_pos
  generalize Nat.sqrt n = q at *
  rcases eq_or_ne (q * q) n with rfl | hne
  · rw [Nat.cast_mul, Real.sqrt_mul_self (Nat.cast_nonneg q)]
    simpa [rootHalves] using h
  · rw [rootHalves, if_neg hne] at h ⊢
    have hlow : (q : ℝ) ^ 2 < n := by exact_mod_cast lt_of_le_of_ne hle (by rwa [sq])
    have hup : (n : ℝ) < (q + 1) ^ 2 := by exact_mod_cast hlt
    exact h.of_half hq (Real.lt_sqrt_of_sq_lt hlow) ((Real.sqrt_lt' (by positivity)).2 hup)

/-- The root of a positive value in units: m units have the root of m·2^149 units. -/
theorem sqrt_value {a : Word} (hs : signBit a = false) :
    √(value a : ℝ) = signFactor false * (√((magnitude a * 2 ^ 149 : ℕ) : ℝ) / 2 ^ 149) := by
  have h : (value a : ℝ) = ((magnitude a * 2 ^ 149 : ℕ) : ℝ) / (2 ^ 149) ^ 2 := by
    rw [cast_value, hs, signFactor_false, one_mul, Nat.cast_mul, sq, Nat.cast_pow, Nat.cast_ofNat,
      mul_div_mul_right _ _ (by positivity)]
  rw [h, Real.sqrt_div' _ (by positivity), Real.sqrt_sq (by positivity), signFactor_false, one_mul]

theorem sqrt32_of_zero {a : Word} (h0 : magnitude a = 0) : sqrt32 a = a := by
  have hfin : isFinite a = true := (isFinite_iff a).2 (by rw [magnitude_eq_zero.1 h0]; decide)
  simp [sqrt32, isNaN_eq_false_of_isFinite hfin, h0]

theorem roundsTo_zero {a : Word} (h0 : magnitude a = 0) : RoundsTo 0 a := by
  have h := roundsTo_round32 (signBit a) 0 Nat.one_pos
  have hw : round32 (signBit a) 0 1 = a := by
    rw [round32, roundMagnitude_zero, ← magnitude_eq_zero.1 h0, packSign_self]
  rw [hw] at h
  simpa using h

/-- Settles O42: the integer root, with a half unit for its fraction, has the nearest pattern of the real root. -/
theorem sqrtIsCorrectlyRounded : Obligations.SqrtIsCorrectlyRounded := by
  refine ⟨fun a ha hv => ?_, by decide, by decide⟩
  rcases eq_or_ne (magnitude a) 0 with h0 | h0
  · rw [sqrt32_of_zero h0, value_eq_zero.2 h0, Rat.cast_zero, Real.sqrt_zero]
    exact roundsTo_zero h0
  · have hs : signBit a = false := Bool.eq_false_iff.2 fun hs => hv.not_gt (value_neg_iff.2 ⟨hs, h0⟩)
    have hlt := magnitude_lt_of_isFinite ha
    rw [sqrt32_of_pos ha hs h0, isqrt_eq_sqrt (by omega), sqrt_value hs, round32, roundMagnitude_eq]
    exact roundsTo_of_nearestPattern (Real.sqrt_nonneg _) (nearestPattern_sqrt (by omega)) false

/-! NaN results. -/

/-- A result is the canonical NaN exactly under a condition, and else no NaN at all. Each primitive is shown so branch by branch: a branch that answers the canonical NaN is on invalid operands, any other is not. -/
def CanonicalNaNExactly (p : Prop) (r : Word) : Prop := p ∧ r = canonicalNaN ∨ ¬p ∧ isNaN r = false

theorem CanonicalNaNExactly.invalid {p : Prop} (hp : p) : CanonicalNaNExactly p canonicalNaN := .inl ⟨hp, rfl⟩

theorem CanonicalNaNExactly.valid {p : Prop} {r : Word} (hp : ¬p) (hr : isNaN r = false) : CanonicalNaNExactly p r :=
  .inr ⟨hp, hr⟩

theorem CanonicalNaNExactly.isNaN_iff {p : Prop} {r : Word} (h : CanonicalNaNExactly p r) : isNaN r = true ↔ p := by
  rcases h with ⟨hp, rfl⟩ | ⟨hp, hr⟩
  · exact iff_of_true (by decide) hp
  · exact iff_of_false (by simp [hr]) hp

theorem CanonicalNaNExactly.eq_canonicalNaN {p : Prop} {r : Word} (h : CanonicalNaNExactly p r) (hr : isNaN r = true) :
    r = 0x7FC00000 := by
  rcases h with ⟨-, hr'⟩ | ⟨-, hr'⟩
  · exact hr'
  · simp [hr] at hr'

theorem add32_nanExactly (a b : Word) : CanonicalNaNExactly
    (isNaN a = true ∨ isNaN b = true ∨ (isInf a = true ∧ isInf b = true ∧ signBit a ≠ signBit b)) (add32 a b) := by
  unfold add32
  split_ifs with hnan hia hopp hib hz
  · exact .invalid (by grind)
  · exact .invalid (by grind)
  · exact .valid (by grind) (by grind)
  · exact .valid (by grind) (by grind)
  · exact .valid (by grind) (isNaN_packSign _ (Nat.zero_le _))
  · exact .valid (by grind) (isNaN_round32 ..)

theorem sub32_nanExactly (a b : Word) : CanonicalNaNExactly
    (isNaN a = true ∨ isNaN b = true ∨ (isInf a = true ∧ isInf b = true ∧ signBit a = signBit b)) (sub32 a b) := by
  have h := add32_nanExactly a (negate b)
  rw [isNaN_negate, isInf_negate, signBit_negate, Ne, Bool.eq_not, not_not] at h
  exact h

/-- Where an operand is infinite, which is no zero, a zero magnitude is that of the finite one. -/
theorem mul32_nanExactly (a b : Word) : CanonicalNaNExactly
    (isNaN a = true ∨ isNaN b = true ∨ (isInf a = true ∧ isFinite b = true ∧ value b = 0) ∨
      (isInf b = true ∧ isFinite a = true ∧ value a = 0)) (mul32 a b) := by
  have ha := magnitude_ne_zero_of_isInf (a := a)
  have hb := magnitude_ne_zero_of_isInf (a := b)
  simp only [value_eq_zero, isFinite]
  unfold mul32
  simp only
  split_ifs with hnan hinf hz
  · exact .invalid (by grind)
  · exact .invalid (by grind)
  · exact .valid (by grind) (isNaN_packSign _ le_rfl)
  · exact .valid (by grind) (isNaN_round32 ..)

theorem div32_nanExactly (a b : Word) : CanonicalNaNExactly
    (isNaN a = true ∨ isNaN b = true ∨ (isInf a = true ∧ isInf b = true) ∨
      (isFinite a = true ∧ isFinite b = true ∧ value a = 0 ∧ value b = 0)) (div32 a b) := by
  simp only [value_eq_zero, isFinite]
  unfold div32
  simp only
  split_ifs with hnan hia hib hib hb0 ha0
  · exact .invalid (by grind)
  · exact .invalid (by grind)
  · exact .valid (by grind) (isNaN_packSign _ le_rfl)
  · exact .valid (by grind) (isNaN_packSign _ (Nat.zero_le _))
  · exact .invalid (by grind)
  · exact .valid (by grind) (isNaN_packSign _ le_rfl)
  · exact .valid (by grind) (isNaN_round32 ..)

theorem sqrt32_nanExactly (a : Word) : CanonicalNaNExactly
    (isNaN a = true ∨ (isInf a = true ∧ signBit a = true) ∨ (isFinite a = true ∧ value a < 0)) (sqrt32 a) := by
  have ha := magnitude_ne_zero_of_isInf (a := a)
  simp only [value_neg_iff, isFinite]
  unfold sqrt32
  simp only
  split_ifs with hnan h0 hs hinf
  · exact .invalid (by grind)
  · exact .valid (by grind) (by grind)
  · exact .invalid (by grind)
  · exact .valid (by grind) (by grind)
  · exact .valid (by grind) (isNaN_round32 ..)
  · exact .valid (by grind) (isNaN_round32 ..)

/-- Settles O43: each primitive gives the canonical NaN on its invalid operands and no NaN on the others. -/
theorem nanResultsAreCanonical : Obligations.NanResultsAreCanonical := by
  intro a b
  refine ⟨(add32_nanExactly a b).isNaN_iff, (sub32_nanExactly a b).isNaN_iff, (mul32_nanExactly a b).isNaN_iff,
    (div32_nanExactly a b).isNaN_iff, (sqrt32_nanExactly a).isNaN_iff, ?_⟩
  simp only [List.forall_mem_cons, List.not_mem_nil, false_imp_iff, implies_true, and_true]
  exact ⟨(add32_nanExactly a b).eq_canonicalNaN, (sub32_nanExactly a b).eq_canonicalNaN,
    (mul32_nanExactly a b).eq_canonicalNaN, (div32_nanExactly a b).eq_canonicalNaN,
    (sqrt32_nanExactly a).eq_canonicalNaN⟩

end Sys2Proof.Proofs

/-! SUPPORT. What a step can do, said once with its guards: the thirteen ways a command can end, and the nine effects of a statement of the host on the block. -/

namespace Sys2Proof.Proofs

open Sys2Proof.Machine Sys2Proof.Safety Sys2Proof.Laws

/-- The state `u` that Execute of a command leaves, and the code it ends with (42_control.md R263). -/
inductive CommandEffect (s : State) : Instr → (u : State) → CmdCode → Prop
  | nop : CommandEffect s .nop s .ok
  | fftConfigBadSize (e : Bool) (hsize : fftSizeLegal s.fft.nout.toNat = false) :
      CommandEffect s (.fftConfig e) (clearFftValid s) .fftBadSize
  | fftConfigBadInput (e : Bool) (hsize : fftSizeLegal s.fft.nout.toNat = true)
      (hinput : 2 * s.fft.nout.toNat < s.fft.nin.toNat) :
      CommandEffect s (.fftConfig e) (clearFftValid s) .fftBadInput
  | fftConfigDone (e : Bool) (hsize : fftSizeLegal s.fft.nout.toNat = true)
      (hinput : s.fft.nin.toNat ≤ 2 * s.fft.nout.toNat) :
      CommandEffect s (.fftConfig e) (latchFft e (fillTables e s)) .ok
  | transformRefused (hvalid : s.status.fftValid = false) :
      CommandEffect s .fftTransform s .fftNotConfigured
  | transformDone (hvalid : s.status.fftValid = true) :
      CommandEffect s .fftTransform (storeTransform (transformed s) s) .ok
  | ltConfigBadParam
      (hparam : ltParamsBad s.lt.srate.toNat s.lt.fftSize.toNat s.lt.nbins.toNat = true) :
      CommandEffect s .ltConfig (clearLtValid s) .ltBadParam
  | ltConfigBadBands
      (hparam : ltParamsBad s.lt.srate.toNat s.lt.fftSize.toNat s.lt.nbins.toNat = false)
      (hbands : boundsGood s.lt.nbins.toNat (configuredBounds s) = false) :
      CommandEffect s .ltConfig (clearLtValid s) .ltBadBands
  | ltConfigDone
      (hparam : ltParamsBad s.lt.srate.toNat s.lt.fftSize.toNat s.lt.nbins.toNat = false)
      (hbands : boundsGood s.lt.nbins.toNat (configuredBounds s) = true) :
      CommandEffect s .ltConfig (setLtValid (levelInit (writeBands (configuredBounds s) s))) .ok
  | updateRefused (a : Bool) (hvalid : s.status.ltValid = false) :
      CommandEffect s (.ltUpdate a) s .ltNotConfigured
  | updateAbsent (hvalid : s.status.ltValid = true) : CommandEffect s (.ltUpdate true) s .ok
  | updateDone (hvalid : s.status.ltValid = true) :
      CommandEffect s (.ltUpdate false) (advanceLevel s) .ok
  | restart : CommandEffect s .ltRestart (levelInit s) .ok

theorem commandEffect_fftConfig (e : Bool) (s : State) :
    CommandEffect s (.fftConfig e) (fftConfig e s).1 (fftConfig e s).2 := by
  obtain ⟨hsize, h⟩ | ⟨hsize, hinput, h⟩ | ⟨hsize, hinput, h⟩ := fftConfig_cases e s <;> rw [h]
  · exact .fftConfigBadSize e hsize
  · exact .fftConfigBadInput e hsize hinput
  · exact .fftConfigDone e hsize hinput

theorem commandEffect_fftTransform (s : State) :
    CommandEffect s .fftTransform (fftTransform s).1 (fftTransform s).2 := by
  obtain ⟨hvalid, h⟩ | ⟨hvalid, h⟩ := fftTransform_cases s <;> rw [h]
  · exact .transformRefused hvalid
  · exact .transformDone hvalid

theorem commandEffect_ltConfig (s : State) :
    CommandEffect s .ltConfig (ltConfig s).1 (ltConfig s).2 := by
  obtain ⟨hparam, h⟩ | ⟨hparam, hbands, h⟩ | ⟨hparam, hbands, h⟩ := ltConfig_cases s <;> rw [h]
  · exact .ltConfigBadParam hparam
  · exact .ltConfigBadBands hparam hbands
  · exact .ltConfigDone hparam hbands

theorem commandEffect_ltUpdate (a : Bool) (s : State) :
    CommandEffect s (.ltUpdate a) (ltUpdate a s).1 (ltUpdate a s).2 := by
  obtain ⟨hvalid, h⟩ | ⟨hvalid, rfl, h⟩ | ⟨hvalid, rfl, h⟩ := ltUpdate_cases a s <;> rw [h]
  · exact .updateRefused a hvalid
  · exact .updateAbsent hvalid
  · exact .updateDone hvalid

/-- Every command's step is the completion of one of its effects. -/
theorem exec_cases {i : Instr} {s t : State} (h : exec i s = .next t) :
    ∃ u c, CommandEffect s i u c ∧ t = complete (u, c) := by
  cases i with
  | nop => cases h; exact ⟨_, _, .nop, rfl⟩
  | fftConfig e => cases h; exact ⟨_, _, commandEffect_fftConfig e s, rfl⟩
  | fftTransform => cases h; exact ⟨_, _, commandEffect_fftTransform s, rfl⟩
  | ltConfig => cases h; exact ⟨_, _, commandEffect_ltConfig s, rfl⟩
  | ltUpdate a => cases h; exact ⟨_, _, commandEffect_ltUpdate a s, rfl⟩
  | ltRestart => cases h; exact ⟨_, _, .restart, rfl⟩

theorem engineReady_iff {s : State} : engineReady s = true ↔ s.wait = 0 ∨ s.host = [] := by
  simp [engineReady]

/-- The effects `u` that a statement of the host can have on the block, leaving the host's own fields aside; `resets` says whether the statement resets the block. Whatever is not always accessible is guarded by BUSY (20_memory.md R88). -/
inductive HostEffect (resets : Bool) (s : State) : (u : State) → Prop
  | unchanged : HostEffect resets s s
  | busError : HostEffect resets s { s with status := busErrorStatus s.status }
  | reset (hresets : resets = true) : HostEffect resets s (resetBlock s)
  | accept (w : Word) (hidle : s.status.busy = false) : HostEffect resets s (acceptCommand w s)
  | timeWrite (i : Nat) (w : Word) (hi : i < Config.wMax) (hidle : s.status.busy = false) :
      HostEffect resets s (writeRamEntry timeBase i w s)
  | specWrite (i : Nat) (w : Word) (hi : i < Config.oMax) (hidle : s.status.busy = false) :
      HostEffect resets s (writeRamEntry specBase i w s)
  | statusWrite (w : Word) : HostEffect resets s { s with status := clearWrittenOnes w s.status }
  | irqEnWrite (ie : BitVec 3) : HostEffect resets s { s with irqEn := ie }
  | operandWrite (f : FftRegs) (l : LtRegs) (hidle : s.status.busy = false)
      (hfft : f.ninA = s.fft.ninA ∧ f.noutA = s.fft.noutA)
      (hlt : l.fpsEff = s.lt.fpsEff ∧ l.bandStart = s.lt.bandStart ∧ l.bandStop = s.lt.bandStop) :
      HostEffect resets s { s with fft := f, lt := l }

theorem accessRefused_eq_false_iff {s : State} {width : Nat} {off : Word} :
    accessRefused s width off = false ↔ width = 4 ∧ decodedOffset off % 4 = 0 ∧
      regionOf (decodedOffset off) ≠ .reserved ∧
      (s.status.busy = true → alwaysAccessible (regionOf (decodedOffset off)) = true) := by
  simp [accessRefused, and_assoc]

/-- CTRL stands at 0x0010 only (20_memory.md R83). -/
theorem regionOf_ctrl {off : Nat} (h : regionOf off = .ctrl) : off = 0x0010 := by
  unfold regionOf at h
  split at h
  · cases hl : registerMap.lookup off with
    | none => simp [hl] at h
    | some r =>
      have hm := mem_of_lookup hl
      rw [hl, Option.getD_some] at h
      simpa [h, registerMap] using hm
  · repeat' split at h
    all_goals cases h

/-- An access that is not refused and a word that is not read-only: the write has one of the effects. -/
theorem hostEffect_writeValue {data : Word} {s : State} {width : Nat} {off : Word}
    (hacc : accessRefused s width off = false) (hro : readOnly (regionOf (decodedOffset off)) = false) :
    HostEffect (softReset (.write width off data)) s
      (writeValue data s (regionOf (decodedOffset off))) := by
  obtain ⟨rfl, -, -, hbusy⟩ := accessRefused_eq_false_iff.1 hacc
  have hidle (h : alwaysAccessible (regionOf (decodedOffset off)) = false) : s.status.busy = false :=
    Bool.eq_false_iff.2 fun hb => by simp [hbusy hb] at h
  cases hr : regionOf (decodedOffset off) <;> rw [hr] at hro hidle
  case ctrl =>
    cases hd : data.getLsbD 0
    · simpa only [writeValue, hd] using .unchanged
    · have hoff : off.toNat % 0x10000 = 0x0010 := regionOf_ctrl hr
      simpa only [writeValue, hd] using .reset (by simp [softReset, hoff, hd])
  case cmd => exact .accept data (hidle rfl)
  case timeRam i => exact .timeWrite i data (regionOf_timeRam (decodedOffset_lt off) hr).1 (hidle rfl)
  case specRam i => exact .specWrite i data (regionOf_specRam (decodedOffset_lt off) hr).1 (hidle rfl)
  case status => exact .statusWrite data
  case irqEn => exact .irqEnWrite _
  case fftNin | fftNout | eqK | ltSrate | ltFftSize | ltNbins | ltFps | ltFrame =>
    exact .operandWrite _ _ (hidle rfl) ⟨rfl, rfl⟩ ⟨rfl, rfl, rfl⟩
  all_goals cases hro

theorem hostEffect_memRead (resets : Bool) (width : Nat) (off : Word) (s : State) :
    ∃ u b, HostEffect resets s u ∧ memRead width off s = { u with bus := b } := by
  obtain ⟨-, h⟩ | ⟨-, h⟩ := memRead_cases width off s
  · exact ⟨_, _, .busError, h⟩
  · exact ⟨_, _, .unchanged, h⟩

theorem hostEffect_transact (tr : Transaction) (s : State) :
    ∃ u b, HostEffect (softReset tr) s u ∧ transact tr s = { u with bus := b } := by
  cases tr with
  | read width off => exact hostEffect_memRead _ width off s
  | write width off data =>
    obtain ⟨-, h⟩ | ⟨hacc, hro, h⟩ := memWrite_cases width off data s
    · exact ⟨_, _, .busError, h⟩
    · exact ⟨_, _, hostEffect_writeValue hacc hro, h⟩

theorem hostEffect_readToD (resets : Bool) (off : Word) (s : State) :
    ∃ u d b, HostEffect resets s u ∧ readToD off s = { u with d := d, bus := b } := by
  obtain ⟨u, b, hu, h⟩ := hostEffect_memRead resets 4 off s
  exact ⟨u, busData b, b, hu, by rw [readToD, h]⟩

theorem hostEffect_runStmt (st : HostStmt) (rest : List HostStmt) (s : State) :
    ∃ u host d b, HostEffect (resetsBlock st) s u ∧
      runStmt st rest s = { u with host := host, d := d, bus := b } := by
  cases st with
  | wr off v =>
    obtain ⟨u, b, hu, h⟩ := hostEffect_transact (.write 4 off v) s
    exact ⟨u, _, _, b, hu, congrArg (fun t : State => { t with host := rest }) h⟩
  | bus tr =>
    obtain ⟨u, b, hu, h⟩ := hostEffect_transact tr s
    exact ⟨u, _, _, b, hu, congrArg (fun t : State => { t with host := rest }) h⟩
  | rd off | expect off v =>
    obtain ⟨u, d, b, hu, h⟩ := hostEffect_readToD false off s
    exact ⟨u, _, d, b, hu, congrArg (fun t : State => { t with host := rest }) h⟩
  | poll off mask val =>
    obtain ⟨u, d, b, hu, h⟩ := hostEffect_readToD false off s
    by_cases hd : (readToD off s).d &&& mask = val
    · exact ⟨u, _, d, b, hu, (if_pos hd).trans (congrArg (fun t : State => { t with host := rest }) h)⟩
    · exact ⟨u, _, d, b, hu, (if_neg hd).trans h⟩
  | rst => exact ⟨resetBlock s, _, _, _, .reset rfl, rfl⟩

/-- A turn of the host: nothing without a statement; else the effect of the statement at the head, and one transaction fewer to wait for if a command was pending. -/
theorem hostTurn_cases (s : State) :
    (s.host = [] ∧ hostTurn s = s) ∨
    ∃ st rest u host d b, s.host = st :: rest ∧ HostEffect (resetsBlock st) s u ∧
      hostTurn s = { u with
        host := host, d := d, bus := b
        wait := if s.pending.isSome then u.wait - 1 else u.wait } := by
  cases hs : s.host with
  | nil => exact .inl ⟨rfl, hostTurn_idle hs⟩
  | cons st rest =>
    obtain ⟨u, host, d, b, hu, h⟩ := hostEffect_runStmt st rest s
    refine .inr ⟨st, rest, u, host, d, b, rfl, hu, ?_⟩
    rw [hostTurn, hs]
    simp only [countTurn, h]
    cases s.pending <;> rfl

end Sys2Proof.Proofs

/-! SUPPORT. The state (10_state.md): what commands keep, what changes the level state, STATUS writes, and what reads the same constants. -/

namespace Sys2Proof.Proofs

open Sys2Proof.Machine Sys2Proof.Safety Sys2Proof.Laws

theorem CommandEffect.keeps_registers {s u : State} {i : Instr} {c : CmdCode} (h : CommandEffect s i u c) :
    u.cmd = s.cmd ∧ u.irqEn = s.irqEn ∧
    u.fft.nin = s.fft.nin ∧ u.fft.nout = s.fft.nout ∧ u.fft.eqK = s.fft.eqK ∧
    u.lt.srate = s.lt.srate ∧ u.lt.fftSize = s.lt.fftSize ∧ u.lt.nbins = s.lt.nbins ∧
    u.lt.fps = s.lt.fps ∧ u.lt.frame = s.lt.frame := by
  cases h
  case fftConfigDone e _ _ => rw [fillTables_eq]; simp
  case ltConfigDone => simp [writeBands]
  all_goals simp

theorem CommandEffect.keeps_host {s u : State} {i : Instr} {c : CmdCode} (h : CommandEffect s i u c) :
    u.host = s.host ∧ u.d = s.d ∧ u.bus = s.bus ∧ u.draws = s.draws := by
  cases h
  case fftConfigDone e _ _ => rw [fillTables_eq]; simp
  all_goals simp

/-- The RAMs that commands write stand from SPEC RAM on. -/
theorem CommandEffect.readByte_below_spec {s u : State} {i : Instr} {c : CmdCode}
    (h : CommandEffect s i u c) {a : Nat} (ha : a < specBase) : readByte u.ram a = readByte s.ram a := by
  have heq : a < eqBase := ha.trans (by decide)
  have hbitrev : a < bitrevBase := ha.trans (by decide)
  cases h
  case fftConfigDone e _ _ =>
    rw [latchFft_ram, fillTables_ram]
    split
    · rw [readByte_storeWords_outside _ _ _ _ (.inl heq), readByte_storeWords_outside _ _ _ _ (.inl hbitrev)]
    · rw [readByte_storeWords_outside _ _ _ _ (.inl hbitrev)]
  case transformDone => rw [storeTransform_ram, readByte_storeWords_outside _ _ _ _ (.inl ha)]
  all_goals rfl

/-- Settles O8: the effects of the commands leave these registers, and write RAM from SPEC RAM on only. -/
theorem commandsKeepOperandsAndTime : Obligations.CommandsKeepOperandsAndTime := by
  intro i s t h
  obtain ⟨u, c, hu, rfl⟩ := exec_cases h
  obtain ⟨hcmd, hirq, hnin, hnout, heqK, hsrate, hsize, hnbins, hfps, hframe⟩ := hu.keeps_registers
  exact ⟨hcmd, hirq, hnin, hnout, heqK, hsrate, hsize, hnbins, hfps, hframe,
    fun _ => hu.readByte_below_spec, hu.keeps_host⟩

/-- The commands that change the level state end with CODE 0. -/
theorem CommandEffect.changes_level {s u : State} {i : Instr} {c : CmdCode} (h : CommandEffect s i u c)
    (hne : u.level ≠ s.level) : c = .ok ∧ (i = .ltConfig ∨ i = .ltUpdate false ∨ i = .ltRestart) := by
  cases h
  case ltConfigDone | updateDone | restart => simp
  case fftConfigDone e _ _ => rw [fillTables_eq] at hne; exact absurd rfl hne
  all_goals exact absurd rfl hne

theorem HostEffect.changes_level {resets : Bool} {s u : State} (h : HostEffect resets s u)
    (hne : u.level ≠ s.level) : resets = true ∧ u.level = LevelRegs.initial := by
  cases h
  case reset hresets => exact ⟨hresets, rfl⟩
  all_goals exact absurd rfl hne

/-- Settles O39: an Illegal word keeps the level state, and the effects that change it are those named. -/
theorem onlyTheseChangeLevel : Obligations.OnlyTheseChangeLevel := by
  intro s t h hne
  obtain ⟨w, i, hp, hready, hd, h⟩ | ⟨w, e, -, -, -, rfl⟩ | ⟨-, rfl⟩ := step_cases h
  · obtain ⟨u, c, hu, rfl⟩ := exec_cases h
    obtain ⟨rfl, hi⟩ := hu.changes_level hne
    exact .inl ⟨w, hp, engineReady_iff.1 hready, rfl, rfl, by simpa [hd] using hi⟩
  · exact absurd rfl hne
  · obtain ⟨-, h⟩ | ⟨st, rest, u, host, d, b, hs, hu, h⟩ := hostTurn_cases s
    · exact absurd (by rw [h]) hne
    · rw [h] at hne ⊢
      exact .inr ⟨st, rest, hs, hu.changes_level hne⟩

theorem busyIffPending_complete (r : State × CmdCode) : BusyIffPending (complete r) :=
  ⟨rfl, nofun, fun _ => rfl⟩

/-- A statement of the host keeps the invariant: a reset empties it, an acceptance sets all three parts, and nothing else touches them. -/
theorem HostEffect.keeps_busyIffPending {resets : Bool} {s u : State} (h : HostEffect resets s u)
    (hs : BusyIffPending s) : BusyIffPending u := by
  cases h
  case reset => exact ⟨rfl, nofun, fun _ => rfl⟩
  case accept w _ => exact ⟨rfl, fun _ h => Option.some.inj h, nofun⟩
  all_goals exact hs

/-- Settles O57: a completion empties all three parts, and a turn of the host has one of the effects above. -/
theorem stepKeepsBusyIffPending : Obligations.StepKeepsBusyIffPending := by
  intro s t hs h
  obtain ⟨w, i, -, -, -, h⟩ | ⟨w, e, -, -, -, rfl⟩ | ⟨-, rfl⟩ := step_cases h
  · obtain ⟨u, c, -, rfl⟩ := exec_cases h
    exact busyIffPending_complete _
  · exact busyIffPending_complete _
  · obtain ⟨-, h⟩ | ⟨st, rest, u, host, d, b, -, hu, h⟩ := hostTurn_cases s
    · rwa [h]
    · obtain ⟨hbusy, hcmd, hwait⟩ := hu.keeps_busyIffPending hs
      rw [h]
      exact ⟨hbusy, hcmd, fun hp => by simp [hwait hp]⟩

/-! STATUS writes. -/

/-- The STATUS word bit by bit, as 10_state.md R34 lays it out. -/
theorem getLsbD_statusWord (st : Status) (i : Nat) :
    (statusWord st).getLsbD i =
      match i with
      | 0 => st.busy
      | 1 => st.done
      | 2 => st.err
      | 3 => st.busErr
      | 4 => st.fftValid
      | 5 => st.ltValid
      | 6 => st.valValid
      | 7 => st.fftEq
      | n + 8 => (codeByte st.code).getLsbD n := by
  simp only [statusWord, BitVec.getLsbD_append, BitVec.getLsbD_ofBool]
  match i with
  | 0 | 1 | 2 | 3 | 4 | 5 | 6 | 7 => simp
  | n + 8 =>
    by_cases hn : n < 8
    · simp [hn]
    · simp [hn, BitVec.getLsbD_of_ge _ n (not_lt.1 hn)]

theorem statusWord_clearWrittenOnes (data : Word) (st : Status) :
    statusWord (clearWrittenOnes data st) = statusWord st &&& ~~~(data &&& 0x0000000E) := by
  refine BitVec.eq_of_getLsbD_eq fun i hi => ?_
  rw [BitVec.getLsbD_and, BitVec.getLsbD_not, BitVec.getLsbD_and, decide_eq_true hi, Bool.true_and,
    getLsbD_statusWord, getLsbD_statusWord]
  match i with
  | 0 | 1 | 2 | 3 | 4 | 5 | 6 | 7 => simp [clearWrittenOnes]
  | n + 8 => simp [clearWrittenOnes, BitVec.getLsbD_ofNat, Nat.testBit_succ]

theorem memWrite_okay {s : State} {width : Nat} {off : Word} (hacc : accessRefused s width off = false)
    (hro : readOnly (regionOf (decodedOffset off)) = false) (data : Word) :
    memWrite width off data s =
      { writeValue data s (regionOf (decodedOffset off)) with bus := some (.writeDone .okay) } := by
  simp [memWrite, hacc, hro]

/-- Settles O49: STATUS is always accessible, and its write clears bits 1 to 3 of its word one by one. -/
theorem statusWriteClearsOnes : Obligations.StatusWriteClearsOnes := by
  intro s data
  have hacc : accessRefused s 4 0x00000018 = false :=
    accessRefused_eq_false_iff.2 ⟨rfl, by decide, by decide, fun _ => by decide⟩
  have h : transact (.write 4 0x00000018 data) s =
      { s with status := clearWrittenOnes data s.status, bus := some (.writeDone .okay) } :=
    memWrite_okay hacc (by decide) data
  exact ⟨_, h.symm, rfl, statusWord_clearWrittenOnes data s.status⟩

/-! Reads of constants. -/

/-- A read gets the addressed word if its offset is mapped and BUSY does not shut it out. -/
theorem bus_read_okay {s : State} {off : Word} (halign : decodedOffset off % 4 = 0)
    (hmapped : regionOf (decodedOffset off) ≠ .reserved)
    (hopen : s.status.busy = true → alwaysAccessible (regionOf (decodedOffset off)) = true) :
    (transact (.read 4 off) s).bus =
      some (.readDone (readValue s (regionOf (decodedOffset off))) .okay) := by
  simp [transact, memRead, accessRefused_eq_false_iff.2 ⟨rfl, halign, hmapped, hopen⟩]

theorem bus_read_reset {off v : Word} (halign : decodedOffset off % 4 = 0)
    (hmapped : regionOf (decodedOffset off) ≠ .reserved)
    (hv : readValue State.reset (regionOf (decodedOffset off)) = v) :
    (transact (.read 4 off) State.reset).bus = some (.readDone v .okay) := by
  rw [bus_read_okay halign hmapped fun hbusy => absurd hbusy Bool.false_ne_true, hv]

/-- Settles O54: after reset BUSY is 0, so each row of the table is the mapped word of the reset state. -/
theorem resetReadsX1 : Obligations.ResetReadsX1 := by
  simp only [Obligations.ResetReadsX1, List.forall_mem_cons, List.not_mem_nil, false_imp_iff,
    implies_true, and_true]
  and_intros <;> exact bus_read_reset (by decide) (by decide) (by decide)

/-- The twiddle ROM's two tables by offset (20_memory.md R83). -/
theorem regionOf_rom {o : Nat} (hlow : 0x0100 ≤ o) (hhigh : o < 0x0170)
    (hgap : ¬ (0x0130 ≤ o ∧ o < 0x0140)) :
    regionOf o = .twCos ((o - 0x0100) / 4) ∨ regionOf o = .twSin ((o - 0x0140) / 4) := by
  by_cases hcos : o < 0x0130
  · left
    rw [regionOf, if_neg (by omega), if_pos hcos]
  · right
    rw [regionOf, if_neg (by omega), if_neg hcos, if_neg (by omega), if_pos hhigh]

/-- Outside the BUSY window a word of the ROM reads the same in every state. -/
theorem bus_read_rom {s : State} (hidle : s.status.busy = false) {off : Word} (hlow : 0x0100 ≤ off.toNat)
    (hhigh : off.toNat ≤ 0x016C) (halign : off.toNat % 4 = 0)
    (hgap : ¬ (0x0130 ≤ off.toNat ∧ off.toNat ≤ 0x013C)) :
    (transact (.read 4 off) s).bus =
      some (.readDone (readValue State.reset (regionOf (decodedOffset off))) .okay) := by
  have ho : decodedOffset off = off.toNat := Nat.mod_eq_of_lt (by omega)
  have hrom := regionOf_rom hlow (by omega) (by omega)
  rw [← ho] at halign hrom
  have hmapped : regionOf (decodedOffset off) ≠ .reserved := by rcases hrom with h | h <;> simp [h]
  rw [bus_read_okay halign hmapped (by simp [hidle])]
  rcases hrom with h | h <;> rw [h] <;> rfl

/-- Settles O55: the identification words are always accessible, and neither they nor the ROM are fields of the state. -/
theorem constantsNeverChange : Obligations.ConstantsNeverChange := by
  refine fun s => ⟨?_, ?_, ?_, fun hidle off hlow hhigh halign hgap => ?_⟩
  · exact bus_read_okay (by decide) (by decide) fun _ => by decide
  · exact bus_read_okay (by decide) (by decide) fun _ => by decide
  · exact bus_read_okay (by decide) (by decide) fun _ => by decide
  · rw [bus_read_rom hidle hlow hhigh halign hgap, bus_read_rom rfl hlow hhigh halign hgap]
    exact ⟨rfl, rfl⟩

/-- Settles O59: nothing is pending or configured, and both memories are empty. -/
theorem resetMeetsInvariants : Obligations.ResetMeetsInvariants :=
  ⟨⟨rfl, nofun, fun _ => rfl⟩, ⟨memoryWf_reset.1, memoryWf_reset.2, rfl⟩, nofun, nofun⟩

end Sys2Proof.Proofs

/-! SUPPORT. Command words and bytes (20_memory.md R85, 30_encoding.md R110, R113, R116): the decoder inverted. -/

namespace Sys2Proof.Proofs

open Sys2Proof.Laws

/-- The byte lanes of a word made of four bytes are those bytes. -/
@[simp] theorem bytesOfWord_wordOfBytes (b0 b1 b2 b3 : Byte) :
    bytesOfWord (wordOfBytes b0 b1 b2 b3) = [b0, b1, b2, b3] := by
  have h0 : byteLane (wordOfBytes b0 b1 b2 b3) 0 = b0 := BitVec.extractLsb'_append_eq_right
  have h1 : byteLane (wordOfBytes b0 b1 b2 b3) 1 = b1 :=
    (BitVec.extractLsb'_append_eq_of_le (by decide)).trans BitVec.extractLsb'_append_eq_right
  have h2 : byteLane (wordOfBytes b0 b1 b2 b3) 2 = b2 :=
    (BitVec.extractLsb'_append_eq_of_le (by decide)).trans <|
      (BitVec.extractLsb'_append_eq_of_le (by decide)).trans BitVec.extractLsb'_append_eq_right
  have h3 : byteLane (wordOfBytes b0 b1 b2 b3) 3 = b3 :=
    (BitVec.extractLsb'_append_eq_of_le (by decide)).trans <|
      (BitVec.extractLsb'_append_eq_of_le (by decide)).trans BitVec.extractLsb'_append_eq_left
  rw [bytesOfWord, h0, h1, h2, h3]

/-- A word is its RSV, F and OPC fields side by side. -/
theorem fields_append_eq (w : Word) : rsvOf w ++ BitVec.ofBool (flagOf w) ++ opcOf w = w := by
  refine BitVec.eq_of_getLsbD_eq fun i hi => ?_
  simp only [rsvOf, opcOf, flagOf, BitVec.getLsbD_append, BitVec.getLsbD_extractLsb', BitVec.getLsbD_ofBool]
  by_cases hopc : i < 8
  · simp [hopc]
  · by_cases hflag : i = 8
    · simp [hflag]
    · simp [hopc, show ¬ i - 8 < 1 by omega, show 9 + (i - 8 - 1) = i by omega, show i - 8 - 1 < 23 by omega]

/-- With RSV zero, OPC and F determine the word. -/
theorem formatC_fields {w : Word} (hrsv : rsvOf w = 0) : formatC (opcOf w) (flagOf w) = w := by
  have h := fields_append_eq w
  rwa [hrsv] at h

theorem withoutFlag_eq_ok {f : Bool} {i j : Instr} (h : withoutFlag f i = .ok j) : f = false ∧ i = j := by
  cases f with
  | false => exact ⟨rfl, Except.ok.inj h⟩
  | true => cases h

/-- The only word of a command is its encoding. -/
theorem encode_of_decode {w : Word} {i : Instr} (h : decode w = .ok i) : encode i = w := by
  unfold decode at h
  split_ifs at h with hrsv h00 h01 h02 h10 h11 h12
  all_goals rw [← formatC_fields (not_not.1 hrsv)]
  · obtain ⟨hf, rfl⟩ := withoutFlag_eq_ok h
    rw [h00, hf, encode]
  · cases h
    rw [h01, encode]
  · obtain ⟨hf, rfl⟩ := withoutFlag_eq_ok h
    rw [h02, hf, encode]
  · obtain ⟨hf, rfl⟩ := withoutFlag_eq_ok h
    rw [h10, hf, encode]
  · cases h
    rw [h11, encode]
  · obtain ⟨hf, rfl⟩ := withoutFlag_eq_ok h
    rw [h12, hf, encode]

theorem roundTrip (i : Instr) : RoundTrip.Statement i := by
  cases i with
  | nop => exact RoundTrip.nop
  | fftConfig e => exact RoundTrip.fftConfig e
  | fftTransform => exact RoundTrip.fftTransform
  | ltConfig => exact RoundTrip.ltConfig
  | ltUpdate a => exact RoundTrip.ltUpdate a
  | ltRestart => exact RoundTrip.ltRestart

/-- Bytes that decode begin with the bytes of a word that decodes. -/
theorem decodeBytes_eq_ok {bs rest : List Byte} {i : Instr} (h : decodeBytes bs = .ok (i, rest)) :
    ∃ w, bs = bytesOfWord w ++ rest ∧ decode w = .ok i := by
  match bs with
  | [] | [_] | [_, _] | [_, _, _] => cases h
  | b0 :: b1 :: b2 :: b3 :: tail =>
    refine ⟨wordOfBytes b0 b1 b2 b3, ?_⟩
    rw [decodeBytes] at h
    cases hd : decode (wordOfBytes b0 b1 b2 b3) <;> rw [hd] at h <;> cases h
    simp

/-- Settles O2: the word of the four bytes read is the command's encoding, and the encoding decodes. -/
theorem decodeBytesInvertsEncode : Obligations.DecodeBytesInvertsEncode := by
  intro bs rest i
  constructor
  · intro h
    obtain ⟨w, rfl, hw⟩ := decodeBytes_eq_ok h
    rw [encode_of_decode hw]
  · rintro rfl
    obtain ⟨-, -, -, h⟩ := roundTrip i
    exact h rest

end Sys2Proof.Proofs

/-! SUPPORT. The two memories (20_memory.md R83, R96): every step keeps their canonical form and the RAM's window. -/

namespace Sys2Proof.Proofs

open Sys2Proof.Machine Sys2Proof.Safety Sys2Proof.Laws

/-- What `MemoryKept` says of the RAM alone. -/
def RamKept (m : Memory) : Prop := memoryWf m = true ∧ ramInWindow m = true

theorem memoryKept_iff {s : State} : MemoryKept s ↔ RamKept s.ram ∧ memoryWf s.scratch = true :=
  ⟨fun ⟨hwf, hscratch, hwin⟩ => ⟨⟨hwf, hwin⟩, hscratch⟩,
    fun ⟨⟨hwf, hwin⟩, hscratch⟩ => ⟨hwf, hscratch, hwin⟩⟩

theorem ramInWindow_iff {m : Memory} : ramInWindow m = true ↔ ∀ c ∈ m, 0x4000 ≤ c.1 ∧ c.1 < 0x10000 := by
  simp [ramInWindow]

/-- A store within the RAM regions keeps the RAM. -/
theorem ramKept_storeBytes {m : Memory} (h : RamKept m) {a : Nat} {bs : List Byte} (hlow : 0x4000 ≤ a)
    (hhigh : a + bs.length ≤ 0x10000) : RamKept (storeBytes m a bs) := by
  obtain ⟨hwf, hwin⟩ := h
  refine ⟨memoryWf_storeBytes m a bs hwf, ramInWindow_iff.2 fun c hc => ?_⟩
  rcases mem_storeBytes hc with hc | hc
  · exact ramInWindow_iff.1 hwin c hc
  · omega

theorem ramKept_storeWords {m : Memory} (h : RamKept m) {a : Nat} {ws : List Word} (hlow : 0x4000 ≤ a)
    (hhigh : a + 4 * ws.length ≤ 0x10000) : RamKept (storeWords m a ws) :=
  ramKept_storeBytes h hlow (by rwa [length_flatMap_bytesOfWord])

theorem ramKept_scramble {m : Memory} (h : RamKept m) (draw : Nat) {a n : Nat} (hlow : 0x4000 ≤ a)
    (hhigh : a + 4 * n ≤ 0x10000) : RamKept (scramble draw a n m) :=
  ramKept_storeBytes h hlow (by rwa [length_abortBytes])

/-- A write of one entry keeps the RAM if the entry lies in the window. -/
theorem memoryKept_writeRamEntry {s : State} (h : MemoryKept s) {base i : Nat} (w : Word)
    (hlow : 0x4000 ≤ base + 4 * i) (hhigh : base + 4 * i + 4 ≤ 0x10000) :
    MemoryKept (writeRamEntry base i w s) := by
  obtain ⟨hram, hscratch⟩ := memoryKept_iff.1 h
  exact memoryKept_iff.2 ⟨ramKept_storeWords hram hlow hhigh, hscratch⟩

/-- SPEC[0 .. NOUT_A − 1] lies in the window for every 13-bit NOUT_A. -/
theorem spectrum_end_le_window (s : State) : specBase + 4 * noutA s ≤ 0x10000 := by
  have := s.fft.noutA.isLt
  simp only [noutA, specBase]
  omega

theorem ramKept_fillTables {s : State} (h : RamKept s.ram) (e : Bool) : RamKept (fillTables e s).ram := by
  have hbitrev : RamKept (storeWords s.ram bitrevBase (bitrevTable (2 * s.fft.nout.toNat))) :=
    ramKept_storeWords h (by decide) (by rw [length_bitrevTable]; decide)
  rw [fillTables_ram]
  cases e with
  | false => exact hbitrev
  | true => exact ramKept_storeWords hbitrev (by decide) (by rw [length_eqTable]; decide)

/-- What an abort makes unspecified lies in the window. -/
theorem ramKept_abortedRam {s : State} (h : RamKept s.ram) : RamKept (abortedRam s) := by
  have hbitrev : RamKept (scramble s.draws bitrevBase Config.wMax s.ram) :=
    ramKept_scramble h _ (by decide) (by decide)
  unfold abortedRam
  split
  · exact ramKept_scramble h _ (by decide) (spectrum_end_le_window s)
  · exact hbitrev
  · exact ramKept_scramble hbitrev _ (by decide) (by decide)
  · exact h

theorem CommandEffect.keeps_memory {s u : State} {i : Instr} {c : CmdCode} (h : CommandEffect s i u c)
    (hs : MemoryKept s) : MemoryKept u := by
  obtain ⟨hram, hscratch⟩ := memoryKept_iff.1 hs
  cases h
  case fftConfigDone e _ _ =>
    refine memoryKept_iff.2 ⟨ramKept_fillTables hram e, ?_⟩
    rwa [latchFft_scratch, fillTables_eq]
  case transformDone =>
    refine memoryKept_iff.2 ⟨ramKept_storeWords hram (by decide) ?_, ?_⟩
    · rw [length_spectrumWords]
      exact spectrum_end_le_window s
    · exact memoryWf_storeWords _ _ _ (memoryWf_storeWords _ _ _ hscratch)
  all_goals exact hs

theorem HostEffect.keeps_memory {resets : Bool} {s u : State} (h : HostEffect resets s u)
    (hs : MemoryKept s) : MemoryKept u := by
  cases h
  case reset =>
    obtain ⟨hram, -⟩ := memoryKept_iff.1 hs
    exact memoryKept_iff.2 ⟨ramKept_abortedRam hram, rfl⟩
  case timeWrite i w hi _ =>
    simp only [Config.wMax] at hi
    exact memoryKept_writeRamEntry hs w (by simp only [timeBase]; omega) (by simp only [timeBase]; omega)
  case specWrite i w hi _ =>
    simp only [Config.oMax] at hi
    exact memoryKept_writeRamEntry hs w (by simp only [specBase]; omega) (by simp only [specBase]; omega)
  all_goals exact hs

/-- Settles O58: a completion adds nothing to its command's effect, an Illegal word touches no memory, and a turn of the host has one of the effects above. -/
theorem stepKeepsMemory : Obligations.StepKeepsMemory := by
  intro s t hs h
  obtain ⟨w, i, -, -, -, h⟩ | ⟨w, e, -, -, -, rfl⟩ | ⟨-, rfl⟩ := step_cases h
  · obtain ⟨u, c, hu, rfl⟩ := exec_cases h
    exact hu.keeps_memory hs
  · exact hs
  · obtain ⟨-, h⟩ | ⟨st, rest, u, host, d, b, -, hu, h⟩ := hostTurn_cases s
    · rwa [h]
    · rw [h]
      exact hu.keeps_memory hs

end Sys2Proof.Proofs

/-! SUPPORT. The window (20_memory.md R83 to R90): the address map against the spec's own offsets, bus errors, what each offset reads, and the BUSY window. -/

namespace Sys2Proof.Proofs

open Sys2Proof.Machine Sys2Proof.Safety Sys2Proof.Laws

/-! Bus errors. -/

/-- At an offset the address map agrees with the lists of the rules: the reserved offsets (R83), the always-accessible ones (R88), the writable ones (R87). -/
def MapAgreesAt (o : Nat) : Prop :=
  (regionOf o = .reserved ↔ reservedOffset o) ∧
  (alwaysAccessible (regionOf o) = true ↔ alwaysOffset o) ∧
  (readOnly (regionOf o) = false ↔ writableOffset o)

/-- The registers, one offset after the other. -/
theorem mapAgreesAt_register : ∀ k < 64, MapAgreesAt (4 * k) := by
  simp only [MapAgreesAt, reservedOffset, alwaysOffset, writableOffset]
  decide

/-- From 0x0100 on the map is made of intervals. -/
theorem mapAgreesAt_of_ge {o : Nat} (ho : 0x0100 ≤ o) (halign : o % 4 = 0) : MapAgreesAt o := by
  unfold MapAgreesAt regionOf reservedOffset alwaysOffset writableOffset timeBase specBase eqBase bitrevBase
  split_ifs
  · omega
  all_goals
    simp only [alwaysAccessible, readOnly, reduceCtorEq, true_iff, false_iff]
    omega

theorem mapAgreesAt {o : Nat} (halign : o % 4 = 0) : MapAgreesAt o := by
  rcases Nat.lt_or_ge o 0x0100 with ho | ho
  · obtain ⟨k, rfl⟩ := Nat.dvd_of_mod_eq_zero halign
    exact mapAgreesAt_register k (by omega)
  · exact mapAgreesAt_of_ge ho halign

theorem accessRefused_iff {s : State} {width : Nat} {off : Word} :
    accessRefused s width off = true ↔ accessError s width (decodedOffset off) := by
  rw [← not_iff_not, Bool.not_eq_true, accessRefused_eq_false_iff]
  simp only [accessError, not_or, not_and, not_not, Ne]
  by_cases halign : decodedOffset off % 4 = 0
  · obtain ⟨hreserved, halways, -⟩ := mapAgreesAt halign
    rw [hreserved, halways]
  · simp [halign]

theorem memRead_refused {s : State} {width : Nat} {off : Word}
    (h : accessError s width (decodedOffset off)) : memRead width off s = readBusError s :=
  if_pos (accessRefused_iff.2 h)

theorem memWrite_refused {s : State} {width : Nat} {off data : Word}
    (h : accessError s width (decodedOffset off) ∨ ¬ writableOffset (decodedOffset off)) :
    memWrite width off data s = writeBusError s := by
  obtain ⟨-, h'⟩ | ⟨hacc, hro, -⟩ := memWrite_cases width off data s
  · exact h'
  · obtain ⟨-, halign, -⟩ := accessRefused_eq_false_iff.1 hacc
    obtain ⟨-, -, hwritable⟩ := mapAgreesAt halign
    rcases h with h | h
    · simp [accessRefused_iff.2 h] at hacc
    · exact absurd (hwritable.1 hro) h

theorem memRead_accepted {s : State} {width : Nat} {off : Word}
    (h : ¬ accessError s width (decodedOffset off)) :
    memRead width off s =
      { s with bus := some (.readDone (readValue s (regionOf (decodedOffset off))) .okay) } :=
  if_neg (mt accessRefused_iff.1 h)

theorem memWrite_accepted {s : State} {width : Nat} {off data : Word}
    (hacc : ¬ accessError s width (decodedOffset off)) (hw : writableOffset (decodedOffset off)) :
    memWrite width off data s =
      { writeValue data s (regionOf (decodedOffset off)) with bus := some (.writeDone .okay) } := by
  have hacc' : accessRefused s width off = false := Bool.eq_false_iff.2 (mt accessRefused_iff.1 hacc)
  obtain ⟨-, halign, -⟩ := accessRefused_eq_false_iff.1 hacc'
  obtain ⟨-, -, hwritable⟩ := mapAgreesAt halign
  exact memWrite_okay hacc' (hwritable.2 hw) data

/-- Settles O45: the causes are those of the model's two checks, by the agreement of the address map. -/
theorem busErrorCausesAndEffect : Obligations.BusErrorCausesAndEffect := by
  intro s tr
  cases tr with
  | read width off =>
    refine ⟨memRead_refused, fun h => ?_⟩
    have hread := memRead_accepted h
    refine ⟨by rw [transact, hread]; rfl, fun _ _ htr => ?_⟩
    cases htr
    exact hread
  | write width off data =>
    refine ⟨memWrite_refused, fun h => ⟨?_, nofun⟩⟩
    obtain ⟨hacc, hw⟩ := not_or.1 h
    rw [transact, memWrite_accepted hacc (not_not.1 hw)]
    rfl

/-! What each offset reads. -/

/-- A read of a mapped word that BUSY does not shut out changes nothing but the response. -/
theorem transact_read_okay {s : State} {off v : Word} {r : Region} (hr : regionOf (decodedOffset off) = r)
    (halign : decodedOffset off % 4 = 0) (hmapped : r ≠ .reserved)
    (hopen : s.status.busy = true → alwaysAccessible r = true) (hv : readValue s r = v) :
    transact (.read 4 off) s = { s with bus := some (.readDone v .okay) } := by
  subst hr hv
  exact if_neg (by simp [accessRefused_eq_false_iff.2 ⟨rfl, halign, hmapped, hopen⟩])

theorem transact_read_idle {s : State} (hidle : s.status.busy = false) {off v : Word} {r : Region}
    (hr : regionOf (decodedOffset off) = r) (halign : decodedOffset off % 4 = 0) (hmapped : r ≠ .reserved)
    (hv : readValue s r = v) : transact (.read 4 off) s = { s with bus := some (.readDone v .okay) } :=
  transact_read_okay hr halign hmapped (by simp [hidle]) hv

/-- Reserved bits read 0: a 13-bit field fills its word with zeros. -/
theorem zero_append_thirteen (x : BitVec 13) : 0#19 ++ x = x.zeroExtend 32 :=
  (BitVec.setWidth_eq_append (by decide)).symm

/-- The same of the three bits of IRQ_EN. -/
theorem zero_append_three (x : BitVec 3) : 0#29 ++ x = x.zeroExtend 32 :=
  (BitVec.setWidth_eq_append (by decide)).symm

/-- The bytes of a word of RAM are its byte lanes, lane 0 lowest (20_memory.md R85). -/
theorem byteLane_readWord (m : Memory) (a : Nat) {k : Nat} (hk : k < 4) :
    byteLane (readWord m a) k = readByte m (a + k) := by
  have h : bytesOfWord (readWord m a) =
      [readByte m a, readByte m (a + 1), readByte m (a + 2), readByte m (a + 3)] := bytesOfWord_wordOfBytes ..
  simp only [bytesOfWord, List.cons.injEq, and_true] at h
  obtain ⟨h0, h1, h2, h3⟩ := h
  match k, hk with
  | 0, _ => exact h0
  | 1, _ => exact h1
  | 2, _ => exact h2
  | 3, _ => exact h3

/-- The entries of the twiddle ROM and of the four RAMs by offset (20_memory.md R83, R84). -/
theorem regionOf_entry (i : Nat) :
    (i < 12 → regionOf (0x0100 + 4 * i) = .twCos i) ∧ (i < 12 → regionOf (0x0140 + 4 * i) = .twSin i) ∧
    (i < 4096 → regionOf (0x4000 + 4 * i) = .timeRam i) ∧ (i < 2048 → regionOf (0x8000 + 4 * i) = .specRam i) ∧
    (i < 2048 → regionOf (0xA000 + 4 * i) = .eqRam i) ∧ (i < 4096 → regionOf (0xC000 + 4 * i) = .bitrevRam i) := by
  refine ⟨?_, ?_, ?_, ?_, ?_, ?_⟩ <;> intro hi <;>
    simp (disch := omega) only [regionOf, timeBase, specBase, eqBase, bitrevBase, if_neg, if_pos,
      Nat.add_sub_cancel_left, Nat.mul_div_cancel_left]

/-- A read of an entry of a table in the window, by the table's base. -/
theorem read_entry {s : State} (hidle : s.status.busy = false) {base i : Nat} {r : Region} {v : Word}
    (hr : regionOf (base + 4 * i) = r) (hbase : base % 4 = 0) (hwindow : base + 4 * i < 0x10000)
    (hmapped : r ≠ .reserved) (hv : readValue s r = v) :
    transact (.read 4 (BitVec.ofNat 32 (base + 4 * i))) s = { s with bus := some (.readDone v .okay) } := by
  have ho : decodedOffset (BitVec.ofNat 32 (base + 4 * i)) = base + 4 * i := by
    simp only [decodedOffset, windowOffset, BitVec.toNat_ofNat]
    omega
  exact transact_read_idle hidle (by rw [ho, hr]) (by omega) hmapped hv

/-- A read of an entry of a RAM gives the four bytes at its offset. -/
theorem read_ramEntry {s : State} (hidle : s.status.busy = false) {base i : Nat} {r : Region}
    (hr : regionOf (base + 4 * i) = r) (hbase : base % 4 = 0) (hwindow : base + 4 * i < 0x10000)
    (hmapped : r ≠ .reserved) (hv : readValue s r = ramEntry s base i) :
    ∃ w : Word, transact (.read 4 (BitVec.ofNat 32 (base + 4 * i))) s =
        { s with bus := some (.readDone w .okay) } ∧
      ∀ k, k < 4 → w.extractLsb' (8 * k) 8 = readByte s.ram (base + 4 * i + k) :=
  ⟨_, read_entry hidle hr hbase hwindow hmapped hv, fun _ hk => byteLane_readWord _ _ hk⟩

/-- Above its flags the STATUS word holds the code and zeros (10_state.md R34). -/
theorem upper_statusWord (st : Status) :
    (statusWord st).extractLsb' 8 8 = codeByte st.code ∧ (statusWord st).extractLsb' 16 16 = 0#16 := by
  refine ⟨BitVec.eq_of_getLsbD_eq fun i hi => ?_, BitVec.eq_of_getLsbD_eq fun i hi => ?_⟩
  · rw [BitVec.getLsbD_extractLsb', decide_eq_true hi, Bool.true_and, Nat.add_comm, getLsbD_statusWord]
  · rw [BitVec.getLsbD_extractLsb', decide_eq_true hi, Bool.true_and, show 16 + i = i + 8 + 8 by omega,
      getLsbD_statusWord, BitVec.getLsbD_zero]
    exact BitVec.getLsbD_of_ge _ _ (by omega)

/-- Settles O46: each offset names its region, by the address map, and the region's word is the field as it stands there. -/
theorem readsGiveMappedWords : Obligations.ReadsGiveMappedWords := by
  refine ⟨fun s hidle => ?registers, fun s => ⟨?ctrl, ?irqEn⟩, fun s => ?status, fun s i hidle => ?rams,
    fun s i hidle hi => ?rom⟩
  case registers =>
    simp only [zero_append_thirteen, zero_append_three, List.forall_mem_cons, List.not_mem_nil, false_imp_iff,
      implies_true, and_true]
    and_intros <;> exact transact_read_idle hidle rfl (by decide) (by decide) rfl
  case ctrl => exact transact_read_okay (r := .ctrl) rfl (by decide) (by decide) (fun _ => rfl) rfl
  case irqEn =>
    exact transact_read_okay (r := .irqEn) rfl (by decide) (by decide) (fun _ => rfl) (zero_append_three _).symm
  case status =>
    obtain ⟨hcode, htop⟩ := upper_statusWord s.status
    have hbit := getLsbD_statusWord s.status
    refine ⟨_, transact_read_okay (r := .status) rfl (by decide) (by decide) (fun _ => rfl) rfl,
      hbit 0, hbit 1, hbit 2, hbit 3, hbit 4, hbit 5, hbit 6, hbit 7, htop, hcode.trans ?_⟩
    cases s.status.code <;> rfl
  case rams =>
    obtain ⟨-, -, htime, hspec, heq, hbitrev⟩ := regionOf_entry i
    simp only [List.forall_mem_cons, List.not_mem_nil, false_imp_iff, implies_true, and_true]
    exact ⟨fun hi => read_ramEntry hidle (htime hi) rfl (by omega) nofun rfl,
      fun hi => read_ramEntry hidle (hspec hi) rfl (by omega) nofun rfl,
      fun hi => read_ramEntry hidle (heq hi) rfl (by omega) nofun rfl,
      fun hi => read_ramEntry hidle (hbitrev hi) rfl (by omega) nofun rfl⟩
  case rom =>
    obtain ⟨hcos, hsin, -⟩ := regionOf_entry i
    exact ⟨read_entry hidle (hcos hi) rfl (by omega) nofun rfl, read_entry hidle (hsin hi) rfl (by omega) nofun rfl⟩

/-! The BUSY window. -/

/-- While BUSY is 1, a statement that does not reset the block leaves everything that a command reads or writes, and of STATUS all but DONE, ERR and BUSERR (20_memory.md R88). -/
theorem HostEffect.keeps_block_while_busy {s u : State} (h : HostEffect false s u) (hbusy : s.status.busy = true) :
    u.cmd = s.cmd ∧ u.pending = s.pending ∧ u.fft = s.fft ∧ u.lt = s.lt ∧ u.level = s.level ∧
    u.ram = s.ram ∧ u.scratch = s.scratch ∧
    u.status.busy = s.status.busy ∧ u.status.code = s.status.code ∧ u.status.fftEq = s.status.fftEq ∧
    u.status.fftValid = s.status.fftValid ∧ u.status.ltValid = s.status.ltValid ∧
    u.status.valValid = s.status.valValid := by
  cases h
  case reset hresets => cases hresets
  case accept hidle | timeWrite hidle | specWrite hidle | operandWrite hidle _ _ => simp [hidle] at hbusy
  all_goals and_intros <;> rfl

/-- Settles O51: a waiting command is not completed while the host has a statement, and the statement's effects that BUSY does not shut out leave the block. -/
theorem busyWindowProtectsBlock : Obligations.BusyWindowProtectsBlock := by
  rintro s t ⟨hbusy, -, -⟩ hpending hwait hresets hhost h
  have hnotReady : engineReady s = false :=
    Bool.eq_false_iff.2 fun hready => (engineReady_iff.1 hready).elim hwait hhost
  obtain ⟨_, _, -, hready, -⟩ | ⟨_, _, -, hready, -⟩ | ⟨-, rfl⟩ := step_cases h
  · simp [hnotReady] at hready
  · simp [hnotReady] at hready
  · obtain ⟨hnil, -⟩ | ⟨st, rest, u, host, d, b, hs, hu, h⟩ := hostTurn_cases s
    · exact absurd hnil hhost
    · rw [hresets st rest hs] at hu
      rw [h]
      exact hu.keeps_block_while_busy (hbusy.trans (Option.isSome_iff_ne_none.2 hpending))

end Sys2Proof.Proofs

/-! SUPPORT. Which words decode (30_encoding.md R113, R118), and the step that completes an Illegal word (R114, 42_control.md R263). -/

namespace Sys2Proof.Proofs

open Sys2Proof.Machine Sys2Proof.Laws

/-- A word decodes to a command exactly when it is that command's encoding. -/
theorem decode_eq_ok_iff {w : Word} {i : Instr} : decode w = .ok i ↔ encode i = w := by
  refine ⟨encode_of_decode, ?_⟩
  rintro rfl
  obtain ⟨-, -, h, -⟩ := roundTrip i
  exact h

/-- Settles O1: the eight words are the encodings of the commands, each flag taken both ways. -/
theorem decodeExactlyEightWords : Obligations.DecodeExactlyEightWords := by
  intro w i
  rw [decode_eq_ok_iff]
  constructor
  · rintro rfl
    cases i with
    | nop | fftTransform | ltConfig | ltRestart => decide
    | fftConfig flag | ltUpdate flag => cases flag <;> decide
  · simp only [List.mem_cons, Prod.mk.injEq, List.not_mem_nil, or_false]
    rintro (⟨rfl, rfl⟩ | ⟨rfl, rfl⟩ | ⟨rfl, rfl⟩ | ⟨rfl, rfl⟩ | ⟨rfl, rfl⟩ | ⟨rfl, rfl⟩ | ⟨rfl, rfl⟩ |
      ⟨rfl, rfl⟩) <;> rfl

/-- Laying a word out as bytes and reading it back loses nothing: a table word decodes as a word. -/
theorem decodeTableWord_eq (nbits w : Nat) :
    decodeTableWord nbits w = (decode (wordOfTableBits nbits w)).toOption := by
  simp only [decodeTableWord, bytesOfWord, decodeBytes, wordOfBytes_byteLane]
  cases decode (wordOfTableBits nbits w) <;> rfl

/-- Settles O3: each written word decodes as the word it is, without its bytes. -/
theorem writtenWordsDecode : Obligations.WrittenWordsDecode := by
  simp only [Obligations.WrittenWordsDecode, decodeTableWord_eq]
  decide

/-- With no host transaction to wait for, the step is the completion of the pending word. -/
theorem step_of_ready {s : State} {w : Word} (hp : s.pending = some w) (hready : s.wait = 0 ∨ s.host = []) :
    step s = completePending w s := by
  simp [step, blockStep, hp, engineReady_iff.2 hready]

theorem completePending_of_error {w : Word} {e : DecodeError} (h : decode w = .error e) (s : State) :
    completePending w s = .next (illegalCommand s) := by
  simp [completePending, h]

/-- A command that only raises a code other than 0x00 changes STATUS and the pending word, and sets ERR. -/
theorem complete_raiseCode {c : CmdCode} (hc : c ≠ .ok) (s : State) :
    complete (raiseCode c s) = { s with
      pending := none, wait := 0
      status := { s.status with busy := false, done := true, err := true, code := c } } := by
  simp [complete, raiseCode, completedStatus, hc]

/-- Settles O5: an Illegal word's completion raises CODE 0x01 on the state as it stands. -/
theorem illegalWordEndsWithCode01 : Obligations.IllegalWordEndsWithCode01 := by
  intro s w e hp hready hd
  rw [step_of_ready hp hready, completePending_of_error hd, illegalCommand, complete_raiseCode (by decide)]

end Sys2Proof.Proofs

/-! SUPPORT. FFT_CONFIG (40_fft.md R140 to R153): its size check, the words of its tables, and the configuration that every step keeps. -/

namespace Sys2Proof.Proofs

open Sys2Proof.Machine Sys2Proof.Safety Sys2Proof.Laws

/-! The operand checks. -/

theorem exec_fftConfig (e : Bool) (s : State) : exec (.fftConfig e) s = .next (complete (fftConfig e s)) := rfl

theorem fftSizeLegal_two_pow {j : Nat} (hj : j ≤ 11) : fftSizeLegal (2 ^ j) = true := by
  have hle : 2 ^ j ≤ 2 ^ 11 := Nat.pow_le_pow_right (by decide) hj
  simp [fftSizeLegal, isPow2, Nat.one_le_two_pow, show 2 ^ j ≤ Config.oMax from hle]

/-- The legal sizes are the powers of two from 1 to 2048 (40_fft.md R151). -/
theorem fftSizeLegal_iff {n : Nat} : fftSizeLegal n = true ↔ ∃ j ≤ 11, n = 2 ^ j := by
  refine ⟨fun h => ?_, fun ⟨j, hj, hn⟩ => hn ▸ fftSizeLegal_two_pow hj⟩
  obtain ⟨hpow, -, hmax⟩ : n = 2 ^ Nat.log2 n ∧ 1 ≤ n ∧ n ≤ 2 ^ 11 := by
    simpa [fftSizeLegal, isPow2] using h
  exact ⟨Nat.log2 n, (Nat.pow_le_pow_iff_right (by decide)).1 (hpow ▸ hmax), hpow⟩

/-- Settles O11: a size that is no such power of two fails the first check. -/
theorem fftConfigRefusesBadSize : Obligations.FftConfigRefusesBadSize := by
  intro s e hnot
  have hbad : fftSizeLegal s.fft.nout.toNat = false :=
    Bool.eq_false_iff.2 (mt fftSizeLegal_iff.1 hnot)
  have hbody : fftConfig e s = raiseCode .fftBadSize (clearFftValid s) := by simp [fftConfig, hbad]
  rw [exec_fftConfig, hbody, complete_raiseCode (by decide)]
  rfl

/-- Settles O12: a legal size passes the first check, and NIN fails the second. -/
theorem fftConfigRefusesBadInput : Obligations.FftConfigRefusesBadInput := by
  intro s e j hj hnout hnin
  have hbody : fftConfig e s = raiseCode .fftBadInput (clearFftValid s) := by
    simp [fftConfig, hnout, fftSizeLegal_two_pow hj, hnin]
  rw [exec_fftConfig, hbody, complete_raiseCode (by decide)]
  rfl

/-! The tables. -/

theorem getElem_bitrevTable {w i : Nat} (hi : i < (bitrevTable w).length) :
    (bitrevTable w)[i] = BitVec.ofNat 32 (if i < w then bitrev (Nat.log2 w) i else 0) := by
  simp [bitrevTable]

theorem getElem_eqTable {k : Word} {n i : Nat} (hi : i < (eqTable k n).length) :
    (eqTable k n)[i] = if i < n then eqWeight k n i else 0x00000000 := by
  simp [eqTable]

/-- EQ RAM ends where BITREV RAM begins, so the second table leaves the first. -/
theorem bitrevEntry_fillTables (e : Bool) (s : State) {i : Nat} (hi : i < Config.wMax) :
    ramEntry (fillTables e s) bitrevBase i =
      BitVec.ofNat 32 (if i < 2 * s.fft.nout.toNat then bitrev (Nat.log2 (2 * s.fft.nout.toNat)) i else 0) := by
  have hfill : readWord (storeWords s.ram bitrevBase (bitrevTable (2 * s.fft.nout.toNat))) (bitrevBase + 4 * i) =
      BitVec.ofNat 32 (if i < 2 * s.fft.nout.toNat then bitrev (Nat.log2 (2 * s.fft.nout.toNat)) i else 0) := by
    rw [readWord_storeWords _ _ _ i (by rwa [length_bitrevTable]), getElem_bitrevTable]
  rw [ramEntry, fillTables_ram]
  cases e with
  | false => exact hfill
  | true =>
    refine (readWord_storeWords_outside _ _ _ _ (.inr ?_)).trans hfill
    rw [length_eqTable]
    exact Nat.le_add_right _ _

theorem eqEntry_fillTables (s : State) {i : Nat} (hi : i < Config.oMax) :
    ramEntry (fillTables true s) eqBase i =
      if i < s.fft.nout.toNat then eqWeight s.fft.eqK s.fft.nout.toNat i else 0x00000000 := by
  rw [ramEntry, fillTables_ram, if_pos rfl, readWord_storeWords _ _ _ i (by rwa [length_eqTable]), getElem_eqTable]

/-- The tables fill BITREV RAM and, with E = 1, EQ RAM, and no other byte. -/
theorem readByte_fillTables_outside {e : Bool} (s : State) {a : Nat} (hbitrev : ¬ (0xC000 ≤ a ∧ a < 0x10000))
    (heq : ¬ (e = true ∧ 0xA000 ≤ a ∧ a < 0xC000)) : readByte (fillTables e s).ram a = readByte s.ram a := by
  have hfirst : readByte (storeWords s.ram bitrevBase (bitrevTable (2 * s.fft.nout.toNat))) a = readByte s.ram a :=
    readByte_storeWords_outside _ _ _ _ (by rw [length_bitrevTable]; simp only [bitrevBase, Config.wMax]; omega)
  rw [fillTables_ram]
  cases e with
  | false => exact hfirst
  | true =>
    refine (readByte_storeWords_outside _ _ _ _ ?_).trans hfirst
    rw [length_eqTable]
    simp only [true_and] at heq
    simp only [eqBase, Config.oMax]
    omega

/-- The completion of a command that succeeds. -/
theorem complete_ok (s : State) : complete (s, .ok) = { s with
    pending := none, wait := 0
    status := { s.status with busy := false, done := true, code := .ok } } := by
  simp [complete, completedStatus]

/-- Settles O13: the operands pass both checks; what is left are the words of the two tables. -/
theorem fftConfigSucceeds : Obligations.FftConfigSucceeds := by
  intro s e j hj hnout hnin
  have hbody : fftConfig e s = (latchFft e (fillTables e s), .ok) := by
    simp [fftConfig, hnout, fftSizeLegal_two_pow hj, Nat.not_lt.2 hnin, succeed]
  refine ⟨_, by rw [exec_fftConfig, hbody], ?_, fun i hi => ?_, ?_, ?_⟩
  · rw [complete_ok, fillTables_eq]
    rfl
  · have h := bitrevEntry_fillTables e s hi
    rwa [hnout, ← pow_succ', Nat.log2_two_pow] at h
  · rintro rfl i hi
    have h := eqEntry_fillTables s hi
    rwa [hnout] at h
  · exact fun a => readByte_fillTables_outside s

/-! The configuration over every step. -/

/-- The configuration is read from FFT_VALID, the active sizes and BITREV RAM alone. -/
theorem fftConfigKept_of_agree {s u : State} (hs : FftConfigKept s)
    (hvalid : u.status.fftValid = true → s.status.fftValid = true)
    (hnin : u.fft.ninA = s.fft.ninA) (hnout : u.fft.noutA = s.fft.noutA)
    (htable : ∀ i < Config.wMax, ramEntry u bitrevBase i = ramEntry s bitrevBase i) : FftConfigKept u := by
  intro hu
  obtain ⟨hsize, hinput, hentries⟩ := hs (hvalid hu)
  simp only [workingSize, ninA, noutA, hnin, hnout] at *
  exact ⟨hsize, hinput, fun i hi => (htable i hi).trans (hentries i hi)⟩

/-- A store below BITREV RAM keeps its entries. -/
theorem bitrevEntry_storeWords {m : Memory} {a : Nat} {ws : List Word} (h : a + 4 * ws.length ≤ bitrevBase)
    (i : Nat) :
    readWord (storeWords m a ws) (bitrevBase + 4 * i) = readWord m (bitrevBase + 4 * i) :=
  readWord_storeWords_outside _ _ _ _ (.inr (h.trans (Nat.le_add_right _ _)))

theorem fftConfigKept_fillTables {e : Bool} {s : State} (hsize : fftSizeLegal s.fft.nout.toNat = true)
    (hinput : s.fft.nin.toNat ≤ 2 * s.fft.nout.toNat) : FftConfigKept (latchFft e (fillTables e s)) := by
  intro _
  rw [fillTables_eq]
  exact ⟨hsize, hinput, fun i hi => bitrevEntry_fillTables e s hi⟩

theorem fftSizeLegal_le {n : Nat} (h : fftSizeLegal n = true) : n ≤ Config.oMax := by
  obtain ⟨j, hj, rfl⟩ := fftSizeLegal_iff.1 h
  exact Nat.pow_le_pow_right (by decide) hj

theorem CommandEffect.keeps_fftConfig {s u : State} {i : Instr} {c : CmdCode} (h : CommandEffect s i u c)
    (hs : FftConfigKept s) : FftConfigKept u := by
  cases h
  case fftConfigBadSize | fftConfigBadInput => exact nofun
  case fftConfigDone e hsize hinput => exact fftConfigKept_fillTables hsize hinput
  case transformDone hvalid =>
    obtain ⟨hsize, -⟩ := hs hvalid
    refine fftConfigKept_of_agree hs id rfl rfl fun i _ => bitrevEntry_storeWords ?_ i
    have := fftSizeLegal_le hsize
    simp only [length_spectrumWords, specBase, bitrevBase, Config.oMax] at *
    omega
  all_goals exact hs

theorem HostEffect.keeps_fftConfig {resets : Bool} {s u : State} (h : HostEffect resets s u)
    (hs : FftConfigKept s) : FftConfigKept u := by
  cases h
  case reset => exact nofun
  case timeWrite i w hi _ =>
    refine fftConfigKept_of_agree hs id rfl rfl fun i _ => bitrevEntry_storeWords ?_ i
    simp only [List.length_singleton, timeBase, bitrevBase, Config.wMax] at *
    omega
  case specWrite i w hi _ =>
    refine fftConfigKept_of_agree hs id rfl rfl fun i _ => bitrevEntry_storeWords ?_ i
    simp only [List.length_singleton, specBase, bitrevBase, Config.oMax] at *
    omega
  case operandWrite f l _ hfft _ => exact fftConfigKept_of_agree hs id hfft.1 hfft.2 fun _ _ => rfl
  all_goals exact hs

/-- Settles O14: FFT_CONFIG establishes the configuration or clears FFT_VALID, and no other effect reaches the active sizes or BITREV RAM. -/
theorem stepKeepsFftConfig : Obligations.StepKeepsFftConfig := by
  intro s t hs h
  obtain ⟨w, i, -, -, -, h⟩ | ⟨w, e, -, -, -, rfl⟩ | ⟨-, rfl⟩ := step_cases h
  · obtain ⟨u, c, hu, rfl⟩ := exec_cases h
    exact hu.keeps_fftConfig hs
  · exact hs
  · obtain ⟨-, h⟩ | ⟨st, rest, u, host, d, b, -, hu, h⟩ := hostTurn_cases s
    · rwa [h]
    · rw [h]
      exact hu.keeps_fftConfig hs

/-! The bit-reversal table of a valid configuration. -/

/-- A valid configuration by its exponent: the working size is a power of two up to 4096, and BITREV RAM holds its reversal. -/
theorem exists_exponent_of_fftConfigKept {s : State} (hs : FftConfigKept s) (hvalid : s.status.fftValid = true) :
    ∃ j ≤ 11, noutA s = 2 ^ j ∧ workingSize s = 2 ^ (j + 1) ∧
      ∀ i < 2 ^ (j + 1), bitrevEntry s i = bitrev (j + 1) i := by
  obtain ⟨hsize, -, hentries⟩ := hs hvalid
  obtain ⟨j, hj, hnout⟩ := fftSizeLegal_iff.1 hsize
  have hw : workingSize s = 2 ^ (j + 1) := by rw [workingSize, hnout, pow_succ']
  have hmax : 2 ^ (j + 1) ≤ 2 ^ 12 := Nat.pow_le_pow_right (by decide) (by omega)
  refine ⟨j, hj, hnout, hw, fun i hi => ?_⟩
  have hlt := bitrev_lt_two_pow (j + 1) i
  rw [bitrevEntry, hentries i (hi.trans_le hmax), hw, if_pos hi, Nat.log2_two_pow, BitVec.toNat_ofNat,
    Nat.mod_eq_of_lt (by omega)]

/-- Settles O15: the reversal stays within the working size and is its own inverse, so it lists each index once. -/
theorem bitrevTableIsPermutation : Obligations.BitrevTableIsPermutation := by
  intro s hs hvalid
  obtain ⟨j, -, -, hw, hentries⟩ := exists_exponent_of_fftConfigKept hs hvalid
  have hmap : (List.range (workingSize s)).map (bitrevEntry s) = (List.range (2 ^ (j + 1))).map (bitrev (j + 1)) := by
    rw [hw]
    exact List.map_congr_left fun i hi => hentries i (List.mem_range.1 hi)
  have hnodup : ((List.range (2 ^ (j + 1))).map (bitrev (j + 1))).Nodup :=
    List.Nodup.map_on (fun a ha b hb hab => by
      rw [← bitrev_bitrev (List.mem_range.1 ha), hab, bitrev_bitrev (List.mem_range.1 hb)]) List.nodup_range
  have hsub : (List.range (2 ^ (j + 1))).map (bitrev (j + 1)) ⊆ List.range (2 ^ (j + 1)) := by
    intro x hx
    obtain ⟨i, -, rfl⟩ := List.mem_map.1 hx
    exact List.mem_range.2 (bitrev_lt_two_pow _ _)
  rw [hmap, hw]
  exact (List.subperm_of_subset hnodup hsub).perm_of_length_le (by simp)

end Sys2Proof.Proofs

/-! SUPPORT. FFT_TRANSFORM (40_fft.md R160 to R165): the scatter, the butterflies of one half-stage position, the order of the stages, and what a transform reads and writes. -/

namespace Sys2Proof.Proofs

open Sys2Proof.Machine Sys2Proof.Safety Sys2Proof.Laws

theorem exec_fftTransform (s : State) : exec .fftTransform s = .next (complete (fftTransform s)) := rfl

/-- Settles O16: without a configuration the body raises CODE 0x04 on the state as it stands. -/
theorem transformRefusedUnconfigured : Obligations.TransformRefusedUnconfigured := by
  intro s hvalid
  have hbody : fftTransform s = raiseCode .fftNotConfigured s := by simp [fftTransform, hvalid]
  rw [exec_fftTransform, hbody, complete_raiseCode (by decide)]

/-! What a transform writes. -/

theorem exec_fftTransform_of_valid {s : State} (hvalid : s.status.fftValid = true) :
    exec .fftTransform s = .next (complete (storeTransform (transformed s) s, .ok)) := by
  simp [exec_fftTransform, fftTransform, hvalid, succeed]

theorem specWord_storeTransform (b : Buffers) (s : State) {i : Nat} (hi : i < noutA s) :
    specWord (storeTransform b s) i = spectrumWord s b i := by
  rw [specWord, ramEntry, storeTransform_ram, readWord_storeWords _ _ _ i (by rwa [length_spectrumWords])]
  simp [spectrumWords]

/-- SPEC[i] after a configured transform. -/
theorem specWord_of_transform {s t : State} (hvalid : s.status.fftValid = true)
    (h : exec .fftTransform s = .next t) {i : Nat} (hi : i < noutA s) :
    specWord t i = spectrumWord s (transformed s) i := by
  rw [exec_fftTransform_of_valid hvalid] at h
  cases h
  exact specWord_storeTransform _ _ hi

/-- Settles O17: the completion adds nothing to the words of SPEC RAM that the transform stores. -/
theorem transformWritesSpectrum : Obligations.TransformWritesSpectrum := by
  intro s hvalid
  refine ⟨_, exec_fftTransform_of_valid hvalid, ?_, fun i hi => specWord_storeTransform _ _ hi, fun a ha => ?_⟩
  · rw [complete_ok]
    rfl
  · refine readByte_storeWords_outside _ _ _ _ ?_
    simp only [length_spectrumWords, specBase]
    omega

/-! The scatter (40_fft.md R161). -/

/-- Settles O18: both buffers are lists of W_A entries given index by index. -/
theorem scatterPlacesSamples : Obligations.ScatterPlacesSamples := by
  intro s i hi
  refine ⟨?_, ?_, ?_, ?_⟩ <;> simp [scattered, bufferAt, hi]

/-! One butterfly. -/

theorem bufferAt_setIfInBounds {a : Array Word} {i : Nat} (hi : i < a.size) (x : Word) (k : Nat) :
    bufferAt (a.setIfInBounds i x) k = if k = i then x else bufferAt a k := by
  rw [bufferAt, Array.getD_eq_getD_getElem?, Array.getElem?_setIfInBounds, bufferAt, Array.getD_eq_getD_getElem?]
  by_cases h : k = i
  · simp [h, hi]
  · simp [h, Ne.symm h]

/-- Two pairs of buffers agree at an index. -/
def SameAt (k : Nat) (b c : Buffers) : Prop :=
  bufferAt c.re k = bufferAt b.re k ∧ bufferAt c.im k = bufferAt b.im k

theorem SameAt.trans {k : Nat} {b c d : Buffers} (h : SameAt k b c) (h' : SameAt k c d) : SameAt k b d :=
  ⟨h'.1.trans h.1, h'.2.trans h.2⟩

/-- At (i, j) the buffers `c` hold what the butterfly of R160 makes of the entries of `b`. -/
structure Combined (f : Twiddle) (i j : Nat) (b c : Buffers) : Prop where
  re_fst : bufferAt c.re i = add32 (bufferAt b.re i) (butterflyRe f.wr f.wi (bufferAt b.re j) (bufferAt b.im j))
  im_fst : bufferAt c.im i = add32 (bufferAt b.im i) (butterflyIm f.wr f.wi (bufferAt b.re j) (bufferAt b.im j))
  re_snd : bufferAt c.re j = sub32 (bufferAt b.re i) (butterflyRe f.wr f.wi (bufferAt b.re j) (bufferAt b.im j))
  im_snd : bufferAt c.im j = sub32 (bufferAt b.im i) (butterflyIm f.wr f.wi (bufferAt b.re j) (bufferAt b.im j))

theorem Combined.of_same_before {f : Twiddle} {i j : Nat} {b b' c : Buffers} (h : Combined f i j b' c)
    (hi : SameAt i b b') (hj : SameAt j b b') : Combined f i j b c := by
  obtain ⟨hri, hii⟩ := hi
  obtain ⟨hrj, hij⟩ := hj
  obtain ⟨h1, h2, h3, h4⟩ := h
  rw [hri, hrj, hij] at h1 h3
  rw [hii, hrj, hij] at h2 h4
  exact ⟨h1, h2, h3, h4⟩

theorem Combined.of_same_after {f : Twiddle} {i j : Nat} {b c c' : Buffers} (h : Combined f i j b c)
    (hi : SameAt i c c') (hj : SameAt j c c') : Combined f i j b c' :=
  ⟨hi.1.trans h.re_fst, hi.2.trans h.im_fst, hj.1.trans h.re_snd, hj.2.trans h.im_snd⟩

section
variable {f : Twiddle} {i j : Nat} {b : Buffers}

theorem size_butterfly :
    (butterfly f.wr f.wi i j b).re.size = b.re.size ∧ (butterfly f.wr f.wi i j b).im.size = b.im.size := by
  simp [butterfly]

theorem combined_butterfly (hij : i ≠ j) (hre : i < b.re.size ∧ j < b.re.size)
    (him : i < b.im.size ∧ j < b.im.size) : Combined f i j b (butterfly f.wr f.wi i j b) := by
  constructor <;> simp [butterfly, bufferAt_setIfInBounds, hij.symm, hre, him]

theorem sameAt_butterfly (hre : i < b.re.size ∧ j < b.re.size) (him : i < b.im.size ∧ j < b.im.size) {k : Nat}
    (hi : k ≠ i) (hj : k ≠ j) : SameAt k b (butterfly f.wr f.wi i j b) := by
  constructor <;> simp [butterfly, bufferAt_setIfInBounds, hi, hj, hre, him]

end

/-! One half-stage position (40_fft.md R162). -/

/-- The lower index of pair q of half-stage position m of stage n; the upper one is 2^n above. -/
def lowerIndex (n m q : Nat) : Nat := m + q * 2 ^ (n + 1)

/-- Both indices of pair q lie in block q of size 2^(n+1), so the pairs of a position are disjoint. -/
theorem block_of_pair {n m : Nat} (hm : m < 2 ^ n) (q : Nat) :
    lowerIndex n m q / 2 ^ (n + 1) = q ∧ (lowerIndex n m q + 2 ^ n) / 2 ^ (n + 1) = q := by
  have hsize : 2 ^ (n + 1) = 2 * 2 ^ n := pow_succ' ..
  have hpos : 0 < 2 ^ (n + 1) := by positivity
  unfold lowerIndex
  rw [Nat.add_right_comm, Nat.add_mul_div_right _ _ hpos, Nat.add_mul_div_right _ _ hpos,
    Nat.div_eq_of_lt (by omega), Nat.div_eq_of_lt (by omega), Nat.zero_add]
  exact ⟨rfl, rfl⟩

/-- Their places in the block are m and m + 2^n. -/
theorem place_of_pair {n m : Nat} (hm : m < 2 ^ n) (q : Nat) :
    lowerIndex n m q % 2 ^ (n + 1) = m ∧ (lowerIndex n m q + 2 ^ n) % 2 ^ (n + 1) = m + 2 ^ n := by
  have hsize : 2 ^ (n + 1) = 2 * 2 ^ n := pow_succ' ..
  unfold lowerIndex
  rw [Nat.add_right_comm, Nat.add_mul_mod_self_right, Nat.add_mul_mod_self_right]
  exact ⟨Nat.mod_eq_of_lt (by omega), Nat.mod_eq_of_lt (by omega)⟩

/-- The first `count` butterflies of half-stage position m of stage n. -/
def passUpTo (n : Nat) (f : Twiddle) (m : Nat) (b : Buffers) (count : Nat) : Buffers :=
  (List.range count).foldl
    (fun b q => butterfly f.wr f.wi (m + q * 2 ^ (n + 1)) (m + q * 2 ^ (n + 1) + 2 ^ (n + 1) / 2) b) b

theorem positionPass_eq (w n : Nat) (f : Twiddle) (m : Nat) (b : Buffers) :
    positionPass w (2 ^ (n + 1)) f m b = passUpTo n f m b (pairCount w (2 ^ (n + 1)) m) := rfl

theorem passUpTo_succ (n : Nat) (f : Twiddle) (m : Nat) (b : Buffers) (count : Nat) :
    passUpTo n f m b (count + 1) =
      butterfly f.wr f.wi (lowerIndex n m count) (lowerIndex n m count + 2 ^ n) (passUpTo n f m b count) := by
  simp [passUpTo, List.range_succ, lowerIndex, pow_succ]

/-- The buffers `c` come from `b` by combining the first `count` pairs, all of them from entries of `b`. -/
structure Passed (n : Nat) (f : Twiddle) (m count : Nat) (b c : Buffers) : Prop where
  re_size : c.re.size = b.re.size
  im_size : c.im.size = b.im.size
  combined : ∀ q < count, Combined f (lowerIndex n m q) (lowerIndex n m q + 2 ^ n) b c
  same : ∀ k, (∀ q < count, k ≠ lowerIndex n m q ∧ k ≠ lowerIndex n m q + 2 ^ n) → SameAt k b c

/-- A pair's butterfly meets none of the pairs before it, so it takes old entries and leaves the earlier results. -/
theorem Passed.butterfly {n m count : Nat} (hm : m < 2 ^ n) {f : Twiddle} {b d : Buffers}
    (h : Passed n f m count b d) (hre : (count + 1) * 2 ^ (n + 1) ≤ b.re.size)
    (him : (count + 1) * 2 ^ (n + 1) ≤ b.im.size) :
    Passed n f m (count + 1) b
      (butterfly f.wr f.wi (lowerIndex n m count) (lowerIndex n m count + 2 ^ n) d) := by
  obtain ⟨hres, hims, hdone, hsame⟩ := h
  obtain ⟨hlow, hhigh⟩ := block_of_pair hm count
  have hne : lowerIndex n m count ≠ lowerIndex n m count + 2 ^ n := (Nat.lt_add_of_pos_right (by positivity)).ne
  have hlast : lowerIndex n m count + 2 ^ n < (count + 1) * 2 ^ (n + 1) := by
    have : (count + 1) * 2 ^ (n + 1) = count * 2 ^ (n + 1) + 2 * 2 ^ n := by ring
    unfold lowerIndex; omega
  have hbre : lowerIndex n m count < d.re.size ∧ lowerIndex n m count + 2 ^ n < d.re.size := by omega
  have hbim : lowerIndex n m count < d.im.size ∧ lowerIndex n m count + 2 ^ n < d.im.size := by omega
  have hold {k : Nat} (hk : k / 2 ^ (n + 1) = count) : SameAt k b d := hsame k fun q hq => by
    obtain ⟨hlowq, hhighq⟩ := block_of_pair hm q
    constructor <;> rintro rfl <;> omega
  have hfresh {k : Nat} (hk : k / 2 ^ (n + 1) ≠ count) :
      SameAt k d (Machine.butterfly f.wr f.wi (lowerIndex n m count) (lowerIndex n m count + 2 ^ n) d) :=
    sameAt_butterfly hbre hbim (by rintro rfl; exact hk hlow) (by rintro rfl; exact hk hhigh)
  refine ⟨size_butterfly.1.trans hres, size_butterfly.2.trans hims, fun q hq => ?_, fun k hk => ?_⟩
  · rcases Nat.lt_succ_iff_lt_or_eq.1 hq with hlt | rfl
    · obtain ⟨hlowq, hhighq⟩ := block_of_pair hm q
      exact (hdone q hlt).of_same_after (hfresh (by rw [hlowq]; exact hlt.ne)) (hfresh (by rw [hhighq]; exact hlt.ne))
    · exact (combined_butterfly hne hbre hbim).of_same_before (hold hlow) (hold hhigh)
  · obtain ⟨hlowk, hhighk⟩ := hk count (Nat.lt_succ_self _)
    exact (hsame k fun q hq => hk q (Nat.lt_succ_of_lt hq)).trans (sameAt_butterfly hbre hbim hlowk hhighk)

theorem passed_passUpTo {n m : Nat} (hm : m < 2 ^ n) (f : Twiddle) {b : Buffers} {count : Nat}
    (hre : count * 2 ^ (n + 1) ≤ b.re.size) (him : count * 2 ^ (n + 1) ≤ b.im.size) :
    Passed n f m count b (passUpTo n f m b count) := by
  induction count with
  | zero => exact ⟨rfl, rfl, nofun, fun _ _ => ⟨rfl, rfl⟩⟩
  | succ count ih =>
    have hle : count * 2 ^ (n + 1) ≤ (count + 1) * 2 ^ (n + 1) := Nat.mul_le_mul_right _ (Nat.le_succ _)
    rw [passUpTo_succ]
    exact (ih (hle.trans hre) (hle.trans him)).butterfly hm hre him

/-- Every block of the buffers holds one pair of the position. -/
theorem pairCount_two_pow {l n m : Nat} (hn : n < l) (hm : m < 2 ^ n) :
    pairCount (2 ^ l) (2 ^ (n + 1)) m = 2 ^ (l - (n + 1)) := by
  have hw : 2 ^ l = 2 ^ (n + 1) * 2 ^ (l - (n + 1)) := by rw [← pow_add]; congr 1; omega
  have hsize : 2 ^ (n + 1) = 2 * 2 ^ n := pow_succ' ..
  have hle : 2 ^ (n + 1) ≤ 2 ^ l := Nat.pow_le_pow_right (by decide) hn
  rw [pairCount, show 2 ^ l - m + 2 ^ (n + 1) - 1 = 2 ^ (n + 1) - 1 - m + 2 ^ l by omega, hw,
    Nat.add_mul_div_left _ _ (by positivity), Nat.div_eq_of_lt (by omega), Nat.zero_add]

/-- Settles O19: the pass is its butterflies, one in each block, and an index's place in its block says which pair it is of. -/
theorem positionPassCombinesPairs : Obligations.PositionPassCombinesPairs := by
  intro l n m f b hn hm hre him k hk
  have hcount := pairCount_two_pow hn hm
  have hw : 2 ^ (l - (n + 1)) * 2 ^ (n + 1) = 2 ^ l := by rw [← pow_add]; congr 1; omega
  have hsize : 2 ^ (n + 1) = 2 * 2 ^ n := pow_succ' ..
  have hblock : k / 2 ^ (n + 1) < 2 ^ (l - (n + 1)) := Nat.div_lt_of_lt_mul (by rwa [Nat.mul_comm, hw])
  have hsplit : k % 2 ^ (n + 1) + k / 2 ^ (n + 1) * 2 ^ (n + 1) = k := Nat.mod_add_div' _ _
  intro h c tr ti
  obtain ⟨hres, hims, hdone, hsame⟩ : Passed n f m (2 ^ (l - (n + 1))) b c := by
    rw [show c = passUpTo n f m b (2 ^ (l - (n + 1))) from hcount ▸ positionPass_eq _ n f m b]
    exact passed_passUpTo hm f (by rw [hw, hre]) (by rw [hw, him])
  obtain ⟨hrefst, himfst, hresnd, himsnd⟩ := hdone _ hblock
  refine ⟨hres.trans hre, hims.trans him, fun hmod => ?_, fun hmod => ?_, fun hlow hhigh => hsame k fun q _ => ?_⟩
  · have hkeq : lowerIndex n m (k / 2 ^ (n + 1)) = k := by rw [lowerIndex, ← hmod, hsplit]
    rw [hkeq] at hrefst himfst
    exact ⟨hrefst, himfst⟩
  · have hkeq : lowerIndex n m (k / 2 ^ (n + 1)) + 2 ^ n = k := by unfold lowerIndex; omega
    rw [hkeq, Nat.eq_sub_of_add_eq hkeq] at hresnd himsnd
    exact ⟨hresnd, himsnd⟩
  · obtain ⟨hlowq, hhighq⟩ := place_of_pair hm q
    exact ⟨fun hkq => hlow (hkq ▸ hlowq), fun hkq => hhigh (hkq ▸ hhighq)⟩

/-! The order of the stages (40_fft.md R162, R163). -/

/-- The buffers before stage n. -/
def stagesUpTo (w : Nat) (b : Buffers) (n : Nat) : Buffers :=
  (List.range n).foldl (fun b s => stagePass w s b) b

theorem stagesUpTo_succ (w : Nat) (b : Buffers) (n : Nat) :
    stagesUpTo w b (n + 1) = stagePass w n (stagesUpTo w b n) := by
  simp [stagesUpTo, List.range_succ]

/-- The factor and the buffers before half-stage position m of stage n. -/
def positionsUpTo (w n : Nat) (b : Buffers) (m : Nat) : Twiddle × Buffers :=
  (List.range m).foldl (fun p m => (rotate n p.1, positionPass w (2 ^ (n + 1)) p.1 m p.2)) (Twiddle.start, b)

theorem positionsUpTo_succ (w n : Nat) (b : Buffers) (m : Nat) :
    positionsUpTo w n b (m + 1) =
      (rotate n (positionsUpTo w n b m).1,
        positionPass w (2 ^ (n + 1)) (positionsUpTo w n b m).1 m (positionsUpTo w n b m).2) := by
  simp [positionsUpTo, List.range_succ]

theorem stagePass_eq (w n : Nat) (b : Buffers) : stagePass w n b = (positionsUpTo w n b (2 ^ n)).2 := rfl

/-- With NOUT_A = 2^j the working size is 2^(j+1), so that the stages are 0 to j. -/
theorem transformed_eq {s : State} {j : Nat} (hnout : noutA s = 2 ^ j) :
    transformed s = stagesUpTo (2 ^ (j + 1)) (scattered s) (j + 1) := by
  rw [transformed, workingSize, hnout, ← pow_succ', allStages, Nat.log2_two_pow, stagesUpTo]

/-- Settles O20: the stages and the positions are the states of the two loops. -/
theorem transformRunsStages : Obligations.TransformRunsStages := by
  intro s j hnout
  refine ⟨stagesUpTo (2 ^ (j + 1)) (scattered s), rfl, (transformed_eq hnout).symm, fun n _ => ?_⟩
  have hsucc := positionsUpTo_succ (2 ^ (j + 1)) n (stagesUpTo (2 ^ (j + 1)) (scattered s) n)
  refine ⟨fun m => (positionsUpTo _ n _ m).2, fun m => (positionsUpTo _ n _ m).1, rfl, ?_, rfl,
    fun m _ => ⟨congrArg Prod.snd (hsucc m), congrArg Prod.fst (hsucc m)⟩⟩
  exact (stagesUpTo_succ ..).symm

/-! What a transform reads (40_fft.md R165). -/

/-- The scattered buffers depend on the active sizes, BITREV RAM and the samples alone. -/
theorem scattered_congr {s1 s2 : State} (hnin : ninA s1 = ninA s2) (hw : workingSize s1 = workingSize s2)
    (hbitrev : ∀ i < workingSize s1, bitrevEntry s1 i = bitrevEntry s2 i)
    (htime : ∀ i < ninA s1, timeWord s1 i = timeWord s2 i) : scattered s1 = scattered s2 := by
  have hre : ∀ i ∈ List.range (workingSize s1),
      (if bitrevEntry s1 i < ninA s1 then timeWord s1 (bitrevEntry s1 i) else 0x00000000) =
        if bitrevEntry s2 i < ninA s2 then timeWord s2 (bitrevEntry s2 i) else 0x00000000 := by
    intro i hi
    rw [hbitrev i (List.mem_range.1 hi), hnin]
    exact ite_congr rfl (fun hlt => htime _ (hnin ▸ hlt)) fun _ => rfl
  simp only [scattered, ← hw, List.map_congr_left hre]

/-- Settles O21: the scattered buffers agree, so all that the stages make of them does. -/
theorem transformIsDeterministic : Obligations.TransformIsDeterministic := by
  intro s1 s2 t1 t2 hvalid1 hvalid2 hnin hnout heqA hbitrev heq htime h1 h2 i hi
  have hw : workingSize s1 = workingSize s2 := by rw [workingSize, hnout, workingSize]
  have hscatter := scattered_congr hnin hw (fun i hi => congrArg BitVec.toNat (hbitrev i hi)) htime
  rw [specWord_of_transform hvalid1 h1 hi, specWord_of_transform hvalid2 h2 (hnout ▸ hi), spectrumWord, spectrumWord,
    heqA, heq i hi, transformed, transformed, hw, hscatter]

end Sys2Proof.Proofs

/-! SUPPORT. A transform of zeros (40_fft.md R166 (a)): the rotating factors stay finite, so that every product with a zero is a zero. -/

namespace Sys2Proof.Proofs

open Sys2Proof.Machine Sys2Proof.Safety Sys2Proof.Laws

/-! The growth of rounded sums and products. -/

/-- Rounding adds at most one part in 2^24, or half a unit where no bit is dropped. -/
theorem gridUnits_unboundedPattern_le (num : Nat) {den : Nat} (hden : 0 < den) :
    2 ^ 24 * (gridUnits (unboundedPattern num den) * den) ≤ (2 ^ 24 + 1) * num + 2 ^ 23 * den := by
  obtain ⟨hr24, hnorm⟩ := significand_bounds (num := num) hden
  obtain ⟨-, hlow⟩ := Laws.roundHalfEven_bounds num (den * 2 ^ dropBits (num / den)) (by positivity)
  unfold unboundedPattern
  rw [gridUnits_binade hr24 (hnorm.imp_right And.right)]
  generalize dropBits (num / den) = k at *
  generalize roundHalfEven num (den * 2 ^ k) = r at *
  have hgrid : r * 2 ^ k * den = r * (den * 2 ^ k) := by ring
  rw [mul_assoc] at hlow
  rcases hnorm with rfl | ⟨hnum, -⟩ <;> omega

/-- A finite word of absolute value at most B. -/
def Within (B : ℝ) (a : Word) : Prop := isFinite a = true ∧ |(value a : ℝ)| ≤ B

theorem abs_value (a : Word) : |(value a : ℝ)| = magnitude a / 2 ^ 149 := by
  rw [cast_value, abs_mul, abs_signFactor, one_mul, abs_of_nonneg (by positivity)]

theorem Within.negate {B : ℝ} {a : Word} (h : Within B a) : Within B (negate a) :=
  ⟨(isFinite_negate a).trans h.1, by rw [value_negate, Rat.cast_neg, abs_neg]; exact h.2⟩

/-- The error of one rounding, relative and absolute. -/
noncomputable def roundingError : ℝ := 1 / 2 ^ 24

theorem within_round32 (s : Bool) (num : Nat) {den : Nat} (hden : 0 < den) {x B : ℝ}
    (hx : (num : ℝ) / den / 2 ^ 149 ≤ x) (hB : x * (1 + roundingError) + roundingError ≤ B) (hmax : B ≤ 2 ^ 127) :
    Within B (round32 s num den) := by
  have hpos : (0 : ℝ) < den := Nat.cast_pos.2 hden
  have hgrid : (gridUnits (unboundedPattern num den) : ℝ) ≤ B * 2 ^ 149 := by
    have h : (2 ^ 24 * (gridUnits (unboundedPattern num den) * den) : ℝ) ≤ (2 ^ 24 + 1) * num + 2 ^ 23 * den := by
      exact_mod_cast gridUnits_unboundedPattern_le num hden
    rw [div_div, div_le_iff₀ (by positivity)] at hx
    unfold roundingError at hB
    have hBden := mul_le_mul_of_nonneg_right hB hpos.le
    exact le_of_mul_le_mul_right (by linarith) hpos
  have hlt : unboundedPattern num den < 0x7F800000 := by
    have hinf : gridUnits 0x7F800000 = 2 ^ 253 * 2 ^ 24 := by decide
    rw [← gridUnits_strictMono.lt_iff_lt, hinf]
    exact_mod_cast hgrid.trans_lt (by linarith : B * 2 ^ 149 < (2 : ℝ) ^ 253 * 2 ^ 24)
  have hpat : patternOf (round32 s num den) = unboundedPattern num den := by
    rw [round32, roundMagnitude_eq, min_eq_left hlt.le, patternOf_packSign s (by omega)]
  refine ⟨(isFinite_iff _).2 (hpat ▸ hlt), ?_⟩
  rw [abs_value, magnitude_eq_gridUnits, hpat, div_le_iff₀ (by positivity)]
  exact hgrid

theorem Within.mul {A B C : ℝ} {a b : Word} (ha : Within A a) (hb : Within B b)
    (hC : A * B * (1 + roundingError) + roundingError ≤ C) (hmax : C ≤ 2 ^ 127) : Within C (mul32 a b) := by
  obtain ⟨hfa, hva⟩ := ha
  obtain ⟨hfb, hvb⟩ := hb
  rw [mul32_finite hfa hfb]
  refine within_round32 _ _ (by positivity) ?_ hC hmax
  calc ((magnitude a * magnitude b : ℕ) : ℝ) / (2 ^ 149 : ℕ) / 2 ^ 149
      = |(value a : ℝ)| * |(value b : ℝ)| := by rw [abs_value, abs_value]; push_cast; ring
    _ ≤ A * B := mul_le_mul hva hvb (abs_nonneg _) ((abs_nonneg _).trans hva)

theorem Within.add {A B C : ℝ} {a b : Word} (ha : Within A a) (hb : Within B b)
    (hC : (A + B) * (1 + roundingError) + roundingError ≤ C) (hmax : C ≤ 2 ^ 127) : Within C (add32 a b) := by
  obtain ⟨hfa, hva⟩ := ha
  obtain ⟨hfb, hvb⟩ := hb
  rw [add32_finite hfa hfb]
  refine within_round32 _ _ Nat.one_pos ?_ hC hmax
  calc ((units a + units b).natAbs : ℝ) / (1 : ℕ) / 2 ^ 149
      = |((value a + value b : ℚ) : ℝ)| := by
        rw [cast_value_add, abs_mul, abs_signFactor, one_mul, abs_of_nonneg (by positivity)]
    _ ≤ A + B := by
        rw [Rat.cast_add]
        exact (abs_add_le _ _).trans (add_le_add hva hvb)

/-! Zeros. -/

/-- A zero of either sign. -/
def IsZero (a : Word) : Prop := isFinite a = true ∧ value a = 0

theorem isZero_iff {a : Word} : IsZero a ↔ magnitude a = 0 := by
  refine ⟨fun h => value_eq_zero.1 h.2, fun h => ⟨?_, value_eq_zero.2 h⟩⟩
  rw [isFinite_iff, magnitude_eq_zero.1 h]
  decide

theorem isZero_zero : IsZero 0x00000000 := isZero_iff.2 (by decide)

theorem IsZero.negate {a : Word} (h : IsZero a) : IsZero (negate a) :=
  ⟨(isFinite_negate a).trans h.1, by rw [value_negate, h.2, neg_zero]⟩

theorem IsZero.mul_left {a b : Word} (hb : IsZero b) (ha : isFinite a = true) : IsZero (mul32 a b) := by
  rw [mul32_finite ha hb.1, isZero_iff.1 hb, Nat.mul_zero, isZero_iff]
  cases signBit a != signBit b <;> decide

theorem IsZero.add {a b : Word} (ha : IsZero a) (hb : IsZero b) : IsZero (add32 a b) := by
  rw [add32_zero ha.1 hb.1 (by rw [ha.2, hb.2, add_zero]), isZero_iff]
  split <;> decide

/-- +0.0 plus a zero of either sign is +0.0 (00_scope.md R10). -/
theorem IsZero.add32_posZero {a : Word} (h : IsZero a) : add32 0x00000000 a = 0x00000000 := by
  rw [add32_zero isZero_zero.1 h.1 (by rw [isZero_zero.2, h.2, add_zero]), if_neg (by simp)]

theorem IsZero.within {a : Word} (h : IsZero a) : Within 1 a := ⟨h.1, by simp [h.2]⟩

/-! The rotating factors (40_fft.md R163). -/

/-- The twiddle ROM: the sum of the absolute values of a seed's parts exceeds 1 by at most four parts in 2^n. -/
theorem seed_sum_le : ∀ n < 12, isFinite (twCos n) = true ∧ isFinite (twSin n) = true ∧
    (magnitude (twCos n) + magnitude (twSin n)) * 2 ^ n ≤ 2 ^ 149 * (2 ^ n + 4) := by
  decide

theorem abs_seed_sum_le {n : Nat} (hn : n < 12) :
    |(value (twCos n) : ℝ)| + |(value (twSin n) : ℝ)| ≤ 1 + 4 / 2 ^ n := by
  obtain ⟨-, -, hseed⟩ := seed_sum_le n hn
  have h : ((magnitude (twCos n) + magnitude (twSin n)) * 2 ^ n : ℝ) ≤ 2 ^ 149 * (2 ^ n + 4) := by
    exact_mod_cast hseed
  rw [abs_value, abs_value, ← add_div, div_le_iff₀ (by positivity),
    ← mul_le_mul_iff_left₀ (by positivity : (0 : ℝ) < 2 ^ n)]
  exact h.trans_eq (by field_simp)

/-- One part of a rotation: where the seed's parts sum to at most 1 + d, the three roundings stay within another d. -/
theorem within_weighted_sum {B d : ℝ} {a b c e : Word} (hd : 1 / 2 ^ 9 ≤ d) (hd4 : d ≤ 4) (hone : 1 ≤ B)
    (hmax : B * (1 + 2 * d) ≤ 2 ^ 127) (ha : Within B a) (hb : Within B b) (hc : isFinite c = true)
    (he : isFinite e = true) (hsum : |(value c : ℝ)| + |(value e : ℝ)| ≤ 1 + d) :
    Within (B * (1 + 2 * d)) (add32 (mul32 a c) (mul32 b e)) ∧
      Within (B * (1 + 2 * d)) (sub32 (mul32 a c) (mul32 b e)) := by
  have hweights : B * (|(value c : ℝ)| + |(value e : ℝ)|) ≤ B * (1 + d) := by gcongr
  have hBd : B * (1 / 2 ^ 9) ≤ B * d := by gcongr
  have hBd4 : B * d ≤ B * 4 := by gcongr
  have hcpos : 0 ≤ B * |(value c : ℝ)| := by positivity
  have hepos : 0 ≤ B * |(value e : ℝ)| := by positivity
  have hp : Within (B * |(value c : ℝ)| * (1 + roundingError) + roundingError) (mul32 a c) :=
    ha.mul ⟨hc, le_rfl⟩ le_rfl (by unfold roundingError; linarith)
  have hq : Within (B * |(value e : ℝ)| * (1 + roundingError) + roundingError) (mul32 b e) :=
    hb.mul ⟨he, le_rfl⟩ le_rfl (by unfold roundingError; linarith)
  have hbound := add_le_add hweights hone
  exact ⟨hp.add hq (by unfold roundingError; linarith) hmax,
    hp.add hq.negate (by unfold roundingError; linarith) hmax⟩

/-- A rotation of stage n lets the parts of the factor grow by at most eight parts in 2^n. -/
theorem within_rotate {n : Nat} (hn : n < 12) {B : ℝ} {t : Twiddle} (hone : 1 ≤ B)
    (hmax : B * (1 + 8 / 2 ^ n) ≤ 2 ^ 127) (hwr : Within B t.wr) (hwi : Within B t.wi) :
    Within (B * (1 + 8 / 2 ^ n)) (rotate n t).wr ∧ Within (B * (1 + 8 / 2 ^ n)) (rotate n t).wi := by
  obtain ⟨hcos, hsin, -⟩ := seed_sum_le n hn
  have hsum := abs_seed_sum_le hn
  have hlow : (1 : ℝ) / 2 ^ 9 ≤ 4 / 2 ^ n := by
    rw [div_le_div_iff₀ (by positivity) (by positivity)]
    have : (2 : ℝ) ^ n ≤ 2 ^ 11 := pow_le_pow_right₀ one_le_two (by omega)
    linarith
  have hhigh : (4 : ℝ) / 2 ^ n ≤ 4 := div_le_self (by norm_num) (one_le_pow₀ one_le_two)
  rw [show (8 : ℝ) / 2 ^ n = 2 * (4 / 2 ^ n) by ring] at *
  exact ⟨(within_weighted_sum hlow hhigh hone hmax hwr hwi hcos hsin hsum).2,
    (within_weighted_sum hlow hhigh hone hmax hwr hwi hsin hcos (by rwa [add_comm])).1⟩

/-- Over the 2^n positions of stage n the factor grows by less than exp 8. -/
theorem growth_le {n m : Nat} (hm : m ≤ 2 ^ n) : (1 + 8 / 2 ^ n : ℝ) ^ m ≤ 2 ^ 127 := by
  calc (1 + 8 / 2 ^ n : ℝ) ^ m ≤ (1 + 8 / 2 ^ n) ^ 2 ^ n := pow_le_pow_right₀ (le_add_of_nonneg_right (by positivity)) hm
    _ ≤ Real.exp (8 / 2 ^ n) ^ 2 ^ n := by
      gcongr
      rw [add_comm]
      exact Real.add_one_le_exp _
    _ = Real.exp 1 ^ 8 := by
      rw [← Real.exp_nat_mul, ← Real.exp_nat_mul]
      congr 1
      push_cast
      field_simp
    _ ≤ 3 ^ 8 := by gcongr; exact Real.exp_one_lt_three.le
    _ ≤ 2 ^ 127 := by norm_num

theorem within_one : Within 1 0x3F800000 := by
  refine ⟨by decide, ?_⟩
  rw [abs_value, show magnitude 0x3F800000 = 2 ^ 149 by decide, Nat.cast_pow, Nat.cast_ofNat, div_self (by positivity)]

/-- The factor before half-stage position m has grown m times; so it is finite. -/
theorem within_factor {w n : Nat} (hn : n < 12) (b : Buffers) {m : Nat} (hm : m ≤ 2 ^ n) :
    Within ((1 + 8 / 2 ^ n) ^ m) (positionsUpTo w n b m).1.wr ∧
      Within ((1 + 8 / 2 ^ n) ^ m) (positionsUpTo w n b m).1.wi := by
  induction m with
  | zero => exact ⟨within_one, isZero_zero.within⟩
  | succ m ih =>
    obtain ⟨hwr, hwi⟩ := ih (by omega)
    have hmax := growth_le hm
    rw [pow_succ] at hmax ⊢
    rw [positionsUpTo_succ]
    exact within_rotate hn (one_le_pow₀ (le_add_of_nonneg_right (by positivity))) hmax hwr hwi

/-! Zeros through the stages. -/

/-- Every entry of both buffers is +0.0. -/
def Zeroed (b : Buffers) : Prop := ∀ k, bufferAt b.re k = 0x00000000 ∧ bufferAt b.im k = 0x00000000

theorem bufferAt_setIfInBounds_eq {a : Array Word} {x : Word} {k : Nat} (h : bufferAt a k = x) (i : Nat) :
    bufferAt (a.setIfInBounds i x) k = x := by
  by_cases hi : i < a.size
  · rw [bufferAt_setIfInBounds hi, h, ite_self]
  · rwa [Array.setIfInBounds_eq_of_size_le (not_lt.1 hi)]

/-- A finite factor times zeros is a zero, and +0.0 plus or minus that is +0.0. -/
theorem Zeroed.butterfly {b : Buffers} (h : Zeroed b) {wr wi : Word} (hwr : isFinite wr = true)
    (hwi : isFinite wi = true) (i j : Nat) : Zeroed (butterfly wr wi i j b) := by
  have hre : IsZero (butterflyRe wr wi 0x00000000 0x00000000) :=
    (isZero_zero.mul_left hwr).add (isZero_zero.mul_left hwi).negate
  have him : IsZero (butterflyIm wr wi 0x00000000 0x00000000) :=
    (isZero_zero.mul_left hwr).add (isZero_zero.mul_left hwi)
  intro k
  obtain ⟨hrei, himi⟩ := h i
  obtain ⟨hrej, himj⟩ := h j
  obtain ⟨hrek, himk⟩ := h k
  simp only [Machine.butterfly, hrei, himi, hrej, himj, sub32, hre.add32_posZero, hre.negate.add32_posZero,
    him.add32_posZero, him.negate.add32_posZero]
  exact ⟨bufferAt_setIfInBounds_eq (bufferAt_setIfInBounds_eq hrek _) _,
    bufferAt_setIfInBounds_eq (bufferAt_setIfInBounds_eq himk _) _⟩

theorem Zeroed.positionPass {b : Buffers} (h : Zeroed b) {f : Twiddle} (hwr : isFinite f.wr = true)
    (hwi : isFinite f.wi = true) (w size m : Nat) : Zeroed (positionPass w size f m b) :=
  List.foldlRecOn _ _ h fun _ hb _ _ => hb.butterfly hwr hwi _ _

theorem Zeroed.positionsUpTo {b : Buffers} (h : Zeroed b) {n : Nat} (hn : n < 12) (w : Nat) {m : Nat}
    (hm : m ≤ 2 ^ n) : Zeroed (positionsUpTo w n b m).2 := by
  induction m with
  | zero => exact h
  | succ m ih =>
    obtain ⟨hwr, hwi⟩ := within_factor (w := w) hn b (by omega : m ≤ 2 ^ n)
    rw [positionsUpTo_succ]
    exact (ih (by omega)).positionPass hwr.1 hwi.1 _ _ _

theorem Zeroed.stagesUpTo {b : Buffers} (h : Zeroed b) (w : Nat) {n : Nat} (hn : n ≤ 12) :
    Zeroed (stagesUpTo w b n) := by
  induction n with
  | zero => exact h
  | succ n ih =>
    rw [stagesUpTo_succ, stagePass_eq]
    exact (ih (by omega)).positionsUpTo (by omega) w le_rfl

/-- Zero samples and zero padding scatter to zeros. -/
theorem zeroed_scattered {s : State} (htime : ∀ n, n < ninA s → timeWord s n = 0x00000000) :
    Zeroed (scattered s) := by
  intro k
  by_cases hk : k < workingSize s
  · obtain ⟨-, -, him, hre⟩ := scatterPlacesSamples s k hk
    refine ⟨hre.trans ?_, him⟩
    split
    · exact htime _ ‹_›
    · rfl
  · simp [scattered, bufferAt, hk]

/-- Settles O22: the stages keep the zeros of the scattered buffers, and the magnitude of a zero bin is +0.0. -/
theorem zeroInputGivesZeroSpectrum : Obligations.ZeroInputGivesZeroSpectrum := by
  intro s t hs hvalid heqA htime h i hi
  obtain ⟨j, hj, hnout, -, -⟩ := exists_exponent_of_fftConfigKept hs hvalid
  have hzero : Zeroed (transformed s) := by
    rw [transformed_eq hnout]
    exact (zeroed_scattered htime).stagesUpTo _ (by omega)
  obtain ⟨hre, him⟩ := hzero i
  rw [specWord_of_transform hvalid h hi, spectrumWord, heqA, if_neg Bool.false_ne_true, magnitudeOf, hre, him]
  decide

end Sys2Proof.Proofs

/-! SUPPORT. The equalization weights (40_fft.md R145, R146): the enclosure of the logarithm holds the real value, and a word that both of its ends round to is the rounded value. -/

namespace Sys2Proof.Proofs

open Sys2Proof.Machine Sys2Proof.Safety Sys2Proof.Laws

/-! Rounding between two numbers of one word. -/

theorem abs_sub_le_abs_sub_iff_mul {x v c : ℝ} : |x - v| ≤ |x - c| ↔ 2 * x * (c - v) ≤ c ^ 2 - v ^ 2 := by
  rw [← sq_le_sq]
  constructor <;> intro h <;> linarith

section
variable {x y z v c : ℝ}

/-- The points that are no farther from v than from c form a half line. -/
theorem abs_sub_le_of_between (hx : |x - v| ≤ |x - c|) (hz : |z - v| ≤ |z - c|) (hxy : x ≤ y) (hyz : y ≤ z) :
    |y - v| ≤ |y - c| := by
  rw [abs_sub_le_abs_sub_iff_mul] at *
  rcases le_total v c with h | h
  · linarith [mul_le_mul_of_nonneg_right hyz (sub_nonneg.2 h)]
  · linarith [mul_le_mul_of_nonpos_right hxy (sub_nonpos.2 h)]

/-- The point of equal distance is its end. -/
theorem abs_sub_eq_of_between (hx : |x - v| ≤ |x - c|) (hz : |z - v| ≤ |z - c|) (hxy : x ≤ y) (hyz : y ≤ z)
    (hy : |y - c| = |y - v|) : |x - c| = |x - v| ∨ |z - c| = |z - v| := by
  have hle : |y - c| ≤ |y - v| := hy.le
  rw [abs_sub_le_abs_sub_iff_mul] at hle
  rcases le_total v c with h | h
  · refine .inr (le_antisymm ?_ hz)
    rw [abs_sub_le_abs_sub_iff_mul]
    linarith [mul_le_mul_of_nonneg_right hyz (sub_nonneg.2 h)]
  · refine .inl (le_antisymm ?_ hx)
    rw [abs_sub_le_abs_sub_iff_mul]
    linarith [mul_le_mul_of_nonpos_right hxy (sub_nonpos.2 h)]

/-- The numbers that round to one word form an interval. -/
theorem roundsTo_of_between {w : Word} (hx : RoundsTo x w) (hz : RoundsTo z w) (hxy : x ≤ y) (hyz : y ≤ z) :
    RoundsTo y w := by
  cases hw : isInf w with
  | true =>
    simp only [RoundsTo, hw, if_true] at hx hz
    obtain ⟨hxover, hxsign⟩ := hx
    obtain ⟨hzover, hzsign⟩ := hz
    rcases lt_or_ge z 0 with hneg | hpos
    · rw [abs_of_neg hneg] at hzover
      refine roundsTo_of_isInf hw (by rw [abs_of_neg (by linarith)]; linarith) ?_
      exact hzsign.trans (iff_of_true hneg (by linarith))
    · have hxpos : ¬ x < 0 := fun h => hpos.not_gt (hzsign.1 (hxsign.2 h))
      rw [abs_of_nonneg (by linarith)] at hxover
      refine roundsTo_of_isInf hw (by rw [abs_of_nonneg (by linarith)]; linarith) ?_
      exact hxsign.trans (iff_of_false hxpos (by linarith))
  | false =>
    simp only [RoundsTo, hw, Bool.false_eq_true, if_false] at hx hz
    obtain ⟨hfin, hxbound, hxnear⟩ := hx
    obtain ⟨-, hzbound, hznear⟩ := hz
    refine roundsTo_of_isFinite hfin (abs_le_max_abs_abs hxy hyz |>.trans_lt (max_lt hxbound hzbound)) fun b hb => ?_
    obtain ⟨hxle, hxtie⟩ := hxnear b hb
    obtain ⟨hzle, hztie⟩ := hznear b hb
    refine ⟨abs_sub_le_of_between hxle hzle hxy hyz, fun hy hne => ?_⟩
    rcases abs_sub_eq_of_between hxle hzle hxy hyz hy with h | h
    · exact hxtie h hne
    · exact hztie h hne

end

/-- Where two fractions round to one word, so does every real number between them. -/
theorem roundsTo_round32_between {s : Bool} {num num' den : Nat} {y : ℝ} (hden : 0 < den)
    (hlow : (num : ℝ) / den ≤ y) (hhigh : y ≤ (num' : ℝ) / den) (h : round32 s num den = round32 s num' den) :
    RoundsTo (signFactor s * (y / 2 ^ 149)) (round32 s num den) := by
  have hl := roundsTo_round32 s num hden
  have hu := roundsTo_round32 s num' hden
  rw [← h] at hu
  have hl' : (num : ℝ) / den / 2 ^ 149 ≤ y / 2 ^ 149 := by gcongr
  have hu' : y / 2 ^ 149 ≤ (num' : ℝ) / den / 2 ^ 149 := by gcongr
  cases s with
  | false => exact roundsTo_of_between hl hu (by simpa using hl') (by simpa using hu')
  | true => exact roundsTo_of_between hu hl (by simpa using hu') (by simpa using hl')

/-! The enclosures of the logarithm. -/

/-- The real number x lies in the enclosure of precision p. -/
def Encloses (p : Nat) (e : Enclosure) (x : ℝ) : Prop := (e.lo : ℝ) ≤ 2 ^ p * x ∧ 2 ^ p * x ≤ e.hi

theorem div_le_natDiv_add_one (m n : Nat) : (m : ℝ) / n ≤ ((m / n : ℕ) : ℝ) + 1 := by
  have h := Nat.lt_floor_add_one ((m : ℝ) / n)
  rw [Nat.floor_div_eq_div] at h
  exact h.le

/-- Terms lose less than three units each: t, rounded down from T, stays within 9/8 of it, as the error shrinks ninefold from term to term. -/
theorem artanhTerms_bounds {a b : Nat} {q : ℝ} (hq : q = (a * a : ℕ) / (b * b : ℕ)) (hq9 : q ≤ 1 / 9) (fuel k t : Nat)
    {T : ℝ} (hlow : (t : ℝ) ≤ T) (hhigh : T ≤ t + 9 / 8) :
    (artanhTerms a b fuel k t : ℝ) ≤ ∑ i ∈ Finset.range fuel, T * q ^ i / (2 * (k + i : ℕ) + 1) ∧
      ∑ i ∈ Finset.range fuel, T * q ^ i / (2 * (k + i : ℕ) + 1) ≤ artanhTerms a b fuel k t + 3 * fuel := by
  induction fuel generalizing k t T with
  | zero => simp [artanhTerms]
  | succ fuel ih =>
    have hq0 : 0 ≤ q := hq ▸ by positivity
    have hnext : ((t * (a * a) : ℕ) : ℝ) / (b * b : ℕ) = t * q := by rw [hq]; push_cast; ring
    have hnext_low := (Nat.cast_div_le (α := ℝ)).trans_eq hnext
    have hnext_high := hnext.symm.trans_le (div_le_natDiv_add_one (t * (a * a)) (b * b))
    have hterm_low := Nat.cast_div_le (α := ℝ) (m := t) (n := 2 * k + 1)
    have hterm_high := div_le_natDiv_add_one t (2 * k + 1)
    have hshift : ∑ i ∈ Finset.range fuel, T * q ^ (i + 1) / (2 * (k + (i + 1) : ℕ) + 1 : ℝ) =
        ∑ i ∈ Finset.range fuel, T * q * q ^ i / (2 * (k + 1 + i : ℕ) + 1) :=
      Finset.sum_congr rfl fun i _ => by rw [pow_succ', mul_assoc, Nat.add_right_comm k 1 i, Nat.add_assoc]
    have hTlow := mul_le_mul_of_nonneg_right hlow hq0
    have hThigh := mul_le_mul_of_nonneg_right hhigh hq0
    obtain ⟨ihlow, ihhigh⟩ := ih (k + 1) (t * (a * a) / (b * b)) (T := T * q) (by linarith) (by linarith)
    have hodd : (1 : ℝ) ≤ 2 * k + 1 := by linarith [Nat.cast_nonneg (α := ℝ) k]
    have hfirst_low : (t : ℝ) / (2 * k + 1) ≤ T / (2 * k + 1) := by gcongr
    have hfirst_high : T / (2 * k + 1) ≤ t / (2 * k + 1) + 9 / 8 := by
      rw [div_le_iff₀ (by linarith), add_mul, div_mul_cancel₀ _ (by linarith)]
      linarith
    rw [Finset.sum_range_succ', hshift, artanhTerms]
    push_cast at *
    simp only [pow_zero, mul_one, add_zero]
    exact ⟨by linarith, by linarith⟩

/-- The terms left out are less than two units together. -/
theorem artanh_tail_le {x : ℝ} (h0 : 0 ≤ x) (h3 : x ≤ 1 / 3) (p : Nat) :
    2 ^ p * (x ^ (2 * artanhCount p + 1) / (1 - x ^ 2)) ≤ 2 := by
  have hsq : x ^ 2 ≤ (1 / 3) ^ 2 := by gcongr
  have hpow : x ^ (2 * artanhCount p + 1) ≤ (1 / 2) ^ p := by
    calc x ^ (2 * artanhCount p + 1) ≤ (1 / 3) ^ (2 * artanhCount p + 1) := by gcongr
      _ ≤ (1 / 3) ^ (2 * artanhCount p) := pow_le_pow_of_le_one (by norm_num) (by norm_num) (Nat.le_succ _)
      _ = (1 / 9) ^ artanhCount p := by rw [pow_mul]; norm_num
      _ ≤ ((1 / 2) ^ 3) ^ artanhCount p := by gcongr; norm_num
      _ = (1 / 2) ^ (3 * artanhCount p) := (pow_mul ..).symm
      _ ≤ (1 / 2) ^ p := pow_le_pow_of_le_one (by norm_num) (by norm_num) (by unfold artanhCount; omega)
  have hone : (2 : ℝ) ^ p * (1 / 2) ^ p = 1 := by rw [← mul_pow]; norm_num
  rw [← mul_div_assoc, div_le_iff₀ (by linarith)]
  calc 2 ^ p * x ^ (2 * artanhCount p + 1) ≤ 2 ^ p * (1 / 2) ^ p := by gcongr
    _ ≤ 2 * (1 - x ^ 2) := by rw [hone]; linarith

/-- The series of 1/2·log((1 + x)/(1 − x)), x = a/b, is enclosed. -/
theorem encloses_artanh (p : Nat) {a b : Nat} (hb : 0 < b) (hab : 3 * a ≤ b) :
    Encloses p (artanhEnclosure p a b) (1 / 2 * Real.log ((1 + a / b) / (1 - a / b))) := by
  have hbpos : (0 : ℝ) < b := Nat.cast_pos.2 hb
  have h0 : (0 : ℝ) ≤ a / b := by positivity
  have h3 : (a / b : ℝ) ≤ 1 / 3 := by
    rw [div_le_div_iff₀ hbpos (by norm_num)]
    exact_mod_cast (by omega : a * 3 ≤ 1 * b)
  have hq : (a / b : ℝ) ^ 2 = (a * a : ℕ) / (b * b : ℕ) := by rw [div_pow]; push_cast; ring
  have hq9 : (a / b : ℝ) ^ 2 ≤ 1 / 9 := by nlinarith
  have hstart : ((2 ^ p * a : ℕ) : ℝ) / b = 2 ^ p * (a / b) := by push_cast; ring
  obtain ⟨hlow, hhigh⟩ := artanhTerms_bounds hq hq9 (artanhCount p) 0 (2 ^ p * a / b) (T := 2 ^ p * (a / b))
    (hstart ▸ Nat.cast_div_le) (by have := div_le_natDiv_add_one (2 ^ p * a) b; linarith)
  have hsum : ∑ i ∈ Finset.range (artanhCount p), 2 ^ p * (a / b : ℝ) * ((a / b) ^ 2) ^ i / (2 * (0 + i : ℕ) + 1) =
      2 ^ p * ∑ i ∈ Finset.range (artanhCount p), (a / b : ℝ) ^ (2 * i + 1) / (2 * i + 1) := by
    rw [Finset.mul_sum]
    exact Finset.sum_congr rfl fun i _ => by rw [Nat.zero_add, ← pow_mul, mul_assoc, ← pow_succ', mul_div_assoc]
  rw [hsum] at hlow hhigh
  have hseries_low := Real.sum_range_le_log_div h0 (by linarith) (artanhCount p)
  have hseries_high := Real.log_div_le_sum_range_add h0 (by linarith) (artanhCount p)
  have htail := artanh_tail_le h0 h3 p
  refine ⟨hlow.trans (by gcongr), (mul_le_mul_of_nonneg_left hseries_high (by positivity)).trans ?_⟩
  rw [mul_add, artanhEnclosure]
  push_cast
  linarith

/-- The logarithm of a ratio u/v from 1 to 2: twice the series at (u − v)/(u + v). -/
theorem encloses_log_ratio (p : Nat) {u v : Nat} (hv : 0 < v) (hvu : v ≤ u) (huv : u ≤ 2 * v) :
    Encloses p ⟨2 * (artanhEnclosure p (u - v) (u + v)).lo, 2 * (artanhEnclosure p (u - v) (u + v)).hi⟩
      (Real.log (u / v)) := by
  obtain ⟨hlow, hhigh⟩ := encloses_artanh p (a := u - v) (b := u + v) (by omega) (by omega)
  have hvpos : (0 : ℝ) < v := Nat.cast_pos.2 hv
  have hupos : (0 : ℝ) < u := Nat.cast_pos.2 (by omega)
  have hratio : (1 + ((u - v : ℕ) : ℝ) / (u + v : ℕ)) / (1 - ((u - v : ℕ) : ℝ) / (u + v : ℕ)) = u / v := by
    rw [Nat.cast_sub hvu, Nat.cast_add, one_add_div (by positivity), one_sub_div (by positivity),
      div_div_div_cancel_right₀ (by positivity)]
    rw [show (u + v + (u - v) : ℝ) = 2 * u by ring, show (u + v - (u - v) : ℝ) = 2 * v by ring,
      mul_div_mul_left _ _ two_ne_zero]
  rw [hratio] at hlow hhigh
  simp only [Encloses]
  push_cast
  exact ⟨by linarith, by linarith⟩

theorem encloses_ln2 (p : Nat) : Encloses p (ln2Enclosure p) (Real.log 2) := by
  have h := encloses_log_ratio p (u := 2) (v := 1) (by decide) (by decide) (by decide)
  rwa [Nat.cast_one, div_one, Nat.cast_ofNat] at h

theorem encloses_lnMantissa (p : Nat) {m : Nat} (hm : 0 < m) :
    Encloses p (lnMantissa p m) (Real.log (m / 2 ^ Nat.log2 m)) := by
  have hlow := Nat.log2_self_le hm.ne'
  have hhigh : m < 2 ^ (Nat.log2 m + 1) := Nat.lt_log2_self
  have h := encloses_log_ratio p (by positivity) hlow (by rw [pow_succ'] at hhigh; exact hhigh.le)
  rwa [Nat.cast_pow, Nat.cast_ofNat] at h

/-- −ln(m/2^j) is a multiple of ln 2 less the logarithm of the mantissa. -/
theorem neg_log_eq {m j : Nat} (hm : 0 < m) (hj : Nat.log2 m ≤ j) :
    -Real.log (m / 2 ^ j) = (j - Nat.log2 m : ℕ) * Real.log 2 - Real.log (m / 2 ^ Nat.log2 m) := by
  have hmpos : (m : ℝ) ≠ 0 := Nat.cast_ne_zero.2 hm.ne'
  rw [Real.log_div hmpos (by positivity), Real.log_div hmpos (by positivity), Real.log_pow, Real.log_pow,
    Nat.cast_sub hj]
  ring

/-- The enclosure of −ln(m/2^j) is a difference of two; where it is cut off at 0, the number is positive. -/
theorem encloses_negLn (p : Nat) {m j : Nat} (hm : 0 < m) (hmj : m < 2 ^ j) :
    Encloses p (negLnEnclosure p m j) (-Real.log (m / 2 ^ j)) := by
  have hj : Nat.log2 m < j := (Nat.log2_lt hm.ne').2 hmj
  obtain ⟨hllow, hlhigh⟩ := encloses_ln2 p
  obtain ⟨hflow, hfhigh⟩ := encloses_lnMantissa p hm
  have hlow := mul_le_mul_of_nonneg_left hllow (Nat.cast_nonneg (α := ℝ) (j - Nat.log2 m))
  have hhigh := mul_le_mul_of_nonneg_left hlhigh (Nat.cast_nonneg (α := ℝ) (j - Nat.log2 m))
  have hpos : 0 ≤ -Real.log (m / 2 ^ j) := by
    refine neg_nonneg.2 (Real.log_nonpos (by positivity) ((div_le_one (by positivity)).2 ?_))
    exact_mod_cast hmj.le
  have hscaled : 0 ≤ 2 ^ p * -Real.log (m / 2 ^ j) := by positivity
  have hexact : 2 ^ p * -Real.log (m / 2 ^ j) = (j - Nat.log2 m : ℕ) * (2 ^ p * Real.log 2) -
      2 ^ p * Real.log (m / 2 ^ Nat.log2 m) := by rw [neg_log_eq hm hj.le]; ring
  rw [Encloses, negLnEnclosure]
  constructor
  · rcases le_total ((j - Nat.log2 m) * (ln2Enclosure p).lo) (lnMantissa p m).hi with h | h
    · rwa [Nat.sub_eq_zero_of_le h, Nat.cast_zero]
    · rw [Nat.cast_sub h, Nat.cast_mul]
      linarith
  · have hsub : (((j - Nat.log2 m) * (ln2Enclosure p).hi : ℕ) : ℝ) ≤
        ((j - Nat.log2 m) * (ln2Enclosure p).hi - (lnMantissa p m).lo : ℕ) + (lnMantissa p m).lo := by
      exact_mod_cast le_tsub_add
    rw [Nat.cast_mul] at hsub
    linarith

/-! The weights. -/

/-- A word that both ends of the enclosure round to is the rounded weight. -/
theorem roundsTo_weight {p j m : Nat} {k : Word} (hm : 0 < m) (hmj : m < 2 ^ j)
    (h : round32 (signBit k) (magnitude k * (negLnEnclosure p m j).lo) (2 ^ p) =
      round32 (signBit k) (magnitude k * (negLnEnclosure p m j).hi) (2 ^ p)) :
    RoundsTo (-(value k : ℝ) * Real.log (m / 2 ^ j))
      (round32 (signBit k) (magnitude k * (negLnEnclosure p m j).lo) (2 ^ p)) := by
  obtain ⟨hlow, hhigh⟩ := encloses_negLn p hm hmj
  have hscaled_low := mul_le_mul_of_nonneg_left hlow (Nat.cast_nonneg (α := ℝ) (magnitude k))
  have hscaled_high := mul_le_mul_of_nonneg_left hhigh (Nat.cast_nonneg (α := ℝ) (magnitude k))
  have hexact : -(value k : ℝ) * Real.log (m / 2 ^ j) =
      signFactor (signBit k) * (magnitude k * -Real.log (m / 2 ^ j) / 2 ^ 149) := by rw [cast_value]; ring
  rw [hexact]
  refine roundsTo_round32_between (by positivity) ?_ ?_ h
  · rw [div_le_iff₀ (by positivity)]
    push_cast
    linarith
  · rw [le_div_iff₀ (by positivity)]
    push_cast
    linarith

theorem eqWeight_of_pos {k : Word} {j i : Nat} (hi : 0 < i) (hk : isFinite k = true) (hk0 : magnitude k ≠ 0) :
    eqWeight k (2 ^ j) i =
      round32 (signBit k) (magnitude k * (negLnEnclosure precision (2 ^ j - i) j).lo) (2 ^ precision) := by
  simp [eqWeight, hi.ne', isNaN_eq_false_of_isFinite hk, isInf_eq_false_of_isFinite hk, hk0]

/-- Settles O23: the special operands are the branches of the definition; for the others the enclosure of 96 bits decides. -/
theorem weightIsCorrectlyRounded : Obligations.WeightIsCorrectlyRounded := by
  refine ⟨fun j i k hj hij => ⟨?_, ?_, ?_, ?_, ?_⟩, fun p j i k hj hi hij hk hk0 h => ?_⟩
  · rintro rfl; rfl
  · intro hi hnan
    simp [eqWeight, hi.ne', hnan, canonicalNaN]
  · intro hi hinf
    simp [eqWeight, hi.ne', hinf, isNaN_eq_false_of_isInf hinf]
  · intro hi hfin hv
    simp [eqWeight, hi.ne', isNaN_eq_false_of_isFinite hfin, isInf_eq_false_of_isFinite hfin, value_eq_zero.1 hv]
  · intro hi hfin hv
    have hk0 : magnitude k ≠ 0 := mt value_eq_zero.2 hv
    rw [eqWeight_of_pos hi hfin hk0, signBit_round32]
    exact ⟨roundsTo_weight (by omega) (by omega) (weight_ends_agree k hj (by omega) (by omega) hk0), id⟩
  · exact roundsTo_weight (by omega) (by omega) h

end Sys2Proof.Proofs

/-! SUPPORT. LT_CONFIG and LT_RESTART (41_level.md R200 to R206, R240): the operand checks, the band registers, and the bands that every step keeps. -/

namespace Sys2Proof.Proofs

open Sys2Proof.Machine Sys2Proof.Safety Sys2Proof.Laws

/-! The band registers. -/

theorem boundsGood_iff {nb : Nat} {b : Bounds} :
    boundsGood nb b = true ↔ 1 ≤ b.b0 ∧ b.b0 < b.b1 ∧ b.b1 < b.b2 ∧ b.b2 < b.b3 ∧ b.b3 ≤ nb - 1 :=
  decide_eq_true_iff

theorem ltParamsBad_iff {sr f nb : Nat} : ltParamsBad sr f nb = true ↔ sr = 0 ∨ f = 0 ∨ nb < 2 ∨ 2048 < nb :=
  decide_eq_true_iff

theorem nbins_le_of_paramsGood {sr f nb : Nat} (h : ltParamsBad sr f nb = false) : nb ≤ Config.oMax := by
  by_contra hnb
  exact Bool.eq_false_iff.1 h (ltParamsBad_iff.2 (.inr (.inr (.inr (Nat.not_le.1 hnb)))))

/-- A band register has room for every bin of SPEC RAM. -/
theorem toNat_bandRegister {n : Nat} (h : n ≤ Config.oMax - 1) : (BitVec.ofNat 13 n).toNat = n := by
  rw [BitVec.toNat_ofNat, Nat.mod_eq_of_lt (by simp only [Config.oMax] at h; omega)]

/-- Bounds that keep the band invariant stand in the band registers as numbers. -/
theorem toNat_writeBands {nb : Nat} (hnb : nb ≤ Config.oMax) {b : Bounds} (hb : boundsGood nb b = true) (s : State) :
    (writeBands b s).lt.bandStart.bass.toNat = b.b0 ∧ (writeBands b s).lt.bandStop.bass.toNat = b.b1 ∧
    (writeBands b s).lt.bandStart.mid.toNat = b.b1 ∧ (writeBands b s).lt.bandStop.mid.toNat = b.b2 ∧
    (writeBands b s).lt.bandStart.treble.toNat = b.b2 ∧ (writeBands b s).lt.bandStop.treble.toNat = b.b3 := by
  obtain ⟨-, h01, h12, h23, h3⟩ := boundsGood_iff.1 hb
  have h3max : b.b3 ≤ Config.oMax - 1 := by omega
  have h0 : (BitVec.ofNat 13 b.b0).toNat = b.b0 := toNat_bandRegister (by omega)
  have h1 : (BitVec.ofNat 13 b.b1).toNat = b.b1 := toNat_bandRegister (by omega)
  have h2 : (BitVec.ofNat 13 b.b2).toNat = b.b2 := toNat_bandRegister (by omega)
  exact ⟨h0, h1, h1, h2, h2, toNat_bandRegister h3max⟩

/-! The bands over every step. -/

theorem bandsKept_writeBands {nb : Nat} (hnb : nb ≤ Config.oMax) {b : Bounds} (hb : boundsGood nb b = true)
    (s : State) : BandsKept (setLtValid (levelInit (writeBands b s))) := by
  intro _
  obtain ⟨hpos, h01, h12, h23, h3⟩ := boundsGood_iff.1 hb
  obtain ⟨h0, h1, h1', h2, h2', h3'⟩ := toNat_writeBands hnb hb s
  rw [setLtValid_lt, levelInit_lt, h0, h1, h1', h2, h2', h3']
  exact ⟨hpos, h01, rfl, h12, rfl, h23, by omega⟩

theorem CommandEffect.keeps_bands {s u : State} {i : Instr} {c : CmdCode} (h : CommandEffect s i u c)
    (hs : BandsKept s) : BandsKept u := by
  cases h
  case fftConfigDone e _ _ => rw [fillTables_eq]; exact hs
  case ltConfigBadParam | ltConfigBadBands => exact nofun
  case ltConfigDone hparam hbands => exact bandsKept_writeBands (nbins_le_of_paramsGood hparam) hbands s
  all_goals exact hs

theorem HostEffect.keeps_bands {resets : Bool} {s u : State} (h : HostEffect resets s u) (hs : BandsKept s) :
    BandsKept u := by
  cases h
  case reset => exact nofun
  case operandWrite f l _ _ hlt =>
    obtain ⟨-, hstart, hstop⟩ := hlt
    simpa only [BandsKept, hstart, hstop] using hs
  all_goals exact hs

/-- Settles O28: LT_CONFIG establishes the bands or clears LT_VALID, and no other effect reaches the band registers. -/
theorem stepKeepsBands : Obligations.StepKeepsBands := by
  intro s t hs h
  obtain ⟨w, i, -, -, -, h⟩ | ⟨w, e, -, -, -, rfl⟩ | ⟨-, rfl⟩ := step_cases h
  · obtain ⟨u, c, hu, rfl⟩ := exec_cases h
    exact hu.keeps_bands hs
  · exact hs
  · obtain ⟨-, h⟩ | ⟨st, rest, u, host, d, b, -, hu, h⟩ := hostTurn_cases s
    · rwa [h]
    · rw [h]
      exact hu.keeps_bands hs

/-! LT_CONFIG and LT_RESTART. -/

theorem exec_ltConfig (s : State) : exec .ltConfig s = .next (complete (ltConfig s)) := rfl

/-- Settles O27: the bounds of a successful LT_CONFIG fit the registers, and a failed one clears LT_VALID only. -/
theorem bandRegistersHoldBounds : Obligations.BandRegistersHoldBounds := by
  intro s t h
  rw [exec_ltConfig] at h
  cases h
  obtain ⟨-, h⟩ | ⟨-, -, h⟩ | ⟨hparam, hbands, h⟩ := ltConfig_cases s <;> rw [h]
  · exact ⟨nofun, fun _ => ⟨rfl, rfl⟩⟩
  · exact ⟨nofun, fun _ => ⟨rfl, rfl⟩⟩
  · exact ⟨fun _ => toNat_writeBands (nbins_le_of_paramsGood hparam) hbands s, fun hne => absurd rfl hne⟩

/-- The parameter check of the operand registers. -/
theorem operandsBad_iff (s : State) :
    ltParamsBad s.lt.srate.toNat s.lt.fftSize.toNat s.lt.nbins.toNat = true ↔
      s.lt.srate = 0 ∨ s.lt.fftSize = 0 ∨ s.lt.nbins.toNat < 2 ∨ 2048 < s.lt.nbins.toNat := by
  rw [ltParamsBad_iff, BitVec.toNat_eq, BitVec.toNat_eq]
  rfl

/-- Settles O25: the two checks in their order; a failure raises its code on the state without LT_VALID. -/
theorem ltConfigRefusesBadOperands : Obligations.LtConfigRefusesBadOperands := by
  intro s
  refine ⟨fun hbad => ?_, fun hgood hbounds => ?_⟩
  · have hbody : ltConfig s = raiseCode .ltBadParam (clearLtValid s) := by
      rw [ltConfig, if_pos ((operandsBad_iff s).2 hbad)]
    rw [exec_ltConfig, hbody, complete_raiseCode (by decide)]
    rfl
  · have hbands : boundsGood s.lt.nbins.toNat (configuredBounds s) = false :=
      Bool.eq_false_iff.2 (mt boundsGood_iff.1 hbounds)
    have hbody : ltConfig s = raiseCode .ltBadBands (clearLtValid s) := by
      rw [ltConfig, if_neg (mt (operandsBad_iff s).1 hgood), if_pos (by rw [hbands]; rfl)]
    rw [exec_ltConfig, hbody, complete_raiseCode (by decide)]
    rfl

/-- Settles O26: both checks pass; the completion adds nothing to the band registers and the level initialisation. -/
theorem ltConfigSucceeds : Obligations.LtConfigSucceeds := by
  intro s hsrate hsize hlow hhigh bnd h0 h01 h12 h23 h3
  have hgood : ¬ ltParamsBad s.lt.srate.toNat s.lt.fftSize.toNat s.lt.nbins.toNat = true := by
    rw [operandsBad_iff]
    rintro (h | h | h | h)
    · exact hsrate h
    · exact hsize h
    · exact hlow.not_gt h
    · exact hhigh.not_gt h
  have hbands : boundsGood s.lt.nbins.toNat (configuredBounds s) = true := boundsGood_iff.2 ⟨h0, h01, h12, h23, h3⟩
  have hbody : ltConfig s = (setLtValid (levelInit (writeBands (configuredBounds s) s)), .ok) := by
    rw [ltConfig, if_neg hgood, if_neg (by rw [hbands]; decide), succeed]
  rw [exec_ltConfig, hbody, complete_ok]
  rfl

/-- Settles O38: LT_RESTART has no checks; its completion adds CODE 0. -/
theorem restartInitialisesLevel : Obligations.RestartInitialisesLevel :=
  ⟨by decide, fun s => congrArg Host.Outcome.next (complete_ok (levelInit s))⟩

end Sys2Proof.Proofs

/-! SUPPORT. LT_UPDATE (41_level.md R220 to R228, R242): the effective fps, the lanes of an update, NaN words and silence. -/

namespace Sys2Proof.Proofs

open Sys2Proof.Machine Sys2Proof.Safety Sys2Proof.Laws

/-! The effective fps (41_level.md R221). -/

theorem value_fifteen : value 0x41700000 = 15 := by
  rw [value, show units 0x41700000 = 15 * 2 ^ 149 by decide]
  norm_num

theorem value_oneFortyFour : value 0x43100000 = 144 := by
  rw [value, show units 0x43100000 = 144 * 2 ^ 149 by decide]
  norm_num

theorem lt32_fifteen {f : Word} (hf : isFinite f = true) : lt32 f 0x41700000 = true ↔ value f < 15 := by
  rw [lt32_finite hf (by decide), value_fifteen]

theorem gt32_oneFortyFour {f : Word} (hf : isFinite f = true) : gt32 f 0x43100000 = true ↔ 144 < value f := by
  rw [gt32, lt32_finite (by decide) hf, value_oneFortyFour]

theorem effFps_of_not_finite {f : Word} (hf : isFinite f = false) : effFps f = 0x41700000 := by
  simp [effFps, hf]

theorem effFps_of_low {f : Word} (hf : isFinite f = true) (h : value f < 15) : effFps f = 0x41700000 := by
  rw [effFps, if_pos (by rw [(lt32_fifteen hf).2 h, Bool.or_true])]

theorem effFps_of_high {f : Word} (hf : isFinite f = true) (h : 144 < value f) : effFps f = 0x43100000 := by
  have hlow : ¬ lt32 f 0x41700000 = true := by rw [lt32_fifteen hf]; linarith
  rw [effFps, if_neg (by rw [hf]; exact hlow), if_pos ((gt32_oneFortyFour hf).2 h)]

theorem effFps_of_between {f : Word} (hf : isFinite f = true) (hlow : 15 ≤ value f) (hhigh : value f ≤ 144) :
    effFps f = f := by
  have hlt : ¬ lt32 f 0x41700000 = true := by rw [lt32_fifteen hf]; exact hlow.not_gt
  have hgt : ¬ gt32 f 0x43100000 = true := by rw [gt32_oneFortyFour hf]; exact hhigh.not_gt
  rw [effFps, if_neg (by rw [hf]; exact hlt), if_neg hgt]

/-- Settles O32: the comparisons of the clamp are those of the exact values; each of the four cases lies in the range. -/
theorem effectiveFpsIsClamped : Obligations.EffectiveFpsIsClamped := by
  intro f
  refine ⟨effFps_of_not_finite, effFps_of_low, effFps_of_high, effFps_of_between, ?_⟩
  have hfifteen : isFinite 0x41700000 = true ∧ 15 ≤ value 0x41700000 ∧ value 0x41700000 ≤ 144 := by
    rw [value_fifteen]; exact ⟨by decide, by norm_num, by norm_num⟩
  have hceiling : isFinite 0x43100000 = true ∧ 15 ≤ value 0x43100000 ∧ value 0x43100000 ≤ 144 := by
    rw [value_oneFortyFour]; exact ⟨by decide, by norm_num, by norm_num⟩
  cases hf : isFinite f with
  | false => rwa [effFps_of_not_finite hf]
  | true =>
    rcases lt_or_ge (value f) 15 with hlow | hlow
    · rwa [effFps_of_low hf hlow]
    · rcases lt_or_ge 144 (value f) with hhigh | hhigh
      · rwa [effFps_of_high hf hhigh]
      · rw [effFps_of_between hf hlow hhigh]
        exact ⟨hf, hlow, hhigh⟩

/-! The body of LT_UPDATE. -/

theorem exec_ltUpdate (a : Bool) (s : State) : exec (.ltUpdate a) s = .next (complete (ltUpdate a s)) := rfl

/-- Settles O29: LT_VALID is checked before A. -/
theorem updateRefusedUnconfigured : Obligations.UpdateRefusedUnconfigured := by
  intro s a hvalid
  have hbody : ltUpdate a s = raiseCode .ltNotConfigured s := by simp [ltUpdate, hvalid]
  rw [exec_ltUpdate, hbody, complete_raiseCode (by decide)]

/-- Settles O30: the body succeeds on the state as it stands. -/
theorem absentUpdateIsNoop : Obligations.AbsentUpdateIsNoop := by
  intro s hvalid
  have hbody : ltUpdate true s = (s, .ok) := by simp [ltUpdate, hvalid, succeed]
  rw [exec_ltUpdate, hbody, complete_ok]

theorem exec_ltUpdate_of_valid {s : State} (hvalid : s.status.ltValid = true) :
    exec (.ltUpdate false) s = .next (complete (advanceLevel s, .ok)) := by
  simp [exec_ltUpdate, ltUpdate, hvalid, succeed]

/-- The rates of an update of the state s. -/
def updateRates (s : State) : Rates := ratesOf (effFps s.lt.fps) s.lt.frame

/-- Lane b of the level registers is the lane l. -/
def HoldsLane (r : LevelRegs) (b : Band) (l : Lane) : Prop :=
  r.imm.get b = l.imm ∧ r.avg.get b = l.avg ∧ r.lavg.get b = l.lavg ∧ r.val.get b = l.val ∧ r.att.get b = l.att

theorem holdsLane_advanceLevel (s : State) (b : Band) :
    HoldsLane (advanceLevel s).level b (laneAfter s (updateRates s) b) := by
  cases b <;> exact ⟨rfl, rfl, rfl, rfl, rfl⟩

/-- What a configured update leaves in lane b. -/
theorem holdsLane_of_update {s t : State} (hvalid : s.status.ltValid = true)
    (h : exec (.ltUpdate false) s = .next t) (b : Band) : HoldsLane t.level b (laneAfter s (updateRates s) b) := by
  rw [exec_ltUpdate_of_valid hvalid] at h
  cases h
  exact holdsLane_advanceLevel s b

theorem updateRates_attack (s : State) : (updateRates s).attack = perFrame 0x3E4CCCCD (effFps s.lt.fps) := by
  rw [updateRates, ratesOf]

theorem updateRates_decay (s : State) : (updateRates s).decay = perFrame 0x3F000000 (effFps s.lt.fps) := by
  rw [updateRates, ratesOf]

theorem updateRates_slow (s : State) : (updateRates s).slow =
    if s.lt.frame.toNat < 50 then perFrame 0x3F666666 (effFps s.lt.fps) else perFrame 0x3F7DF3B6 (effFps s.lt.fps) :=
  apply_ite (perFrame · (effFps s.lt.fps)) _ _ _

/-- Settles O31: the lane of the model is the statement's, but for where the slow rate's case split stands. -/
theorem updateAdvancesLanes : Obligations.UpdateAdvancesLanes := by
  intro s hvalid
  refine ⟨_, exec_ltUpdate_of_valid hvalid, ?_, fun b => ?_⟩
  · rw [complete_ok]
    rfl
  · have h := holdsLane_of_update hvalid (exec_ltUpdate_of_valid hvalid) b
    simp only [HoldsLane, laneAfter, updateLane, emaStep, fastRate, guarded, updateRates_attack, updateRates_decay,
      updateRates_slow] at h
    exact h

/-! Lanes are independent (41_level.md R242). -/

/-- The sum of a band depends on its SPEC words alone. -/
theorem bandSum_congr {s1 s2 : State} {start stop : Nat}
    (h : ∀ j, start ≤ j → j < stop → specWord s1 j = specWord s2 j) : bandSum s1 start stop = bandSum s2 start stop := by
  refine List.foldl_ext _ _ _ fun acc j hj => ?_
  obtain ⟨hlow, hhigh⟩ := List.mem_range'_1.1 hj
  rw [h j hlow (by omega)]

/-- Settles O33: all that the lane's update reads agrees. -/
theorem lanesAreIndependent : Obligations.LanesAreIndependent := by
  intro s1 s2 t1 t2 b hvalid1 hvalid2 hfps hframe hstart hstop havg hlavg hspec h1 h2
  have himm : bandImm s1 b = bandImm s2 b := by
    rw [bandImm, bandSum_congr hspec, hstart, hstop, bandImm]
  have hlane : laneAfter s1 (updateRates s1) b = laneAfter s2 (updateRates s2) b := by
    simp only [laneAfter, updateRates, himm, havg, hlavg, hfps, hframe]
  obtain ⟨himm1, havg1, hlavg1, hval1, hatt1⟩ := holdsLane_of_update hvalid1 h1 b
  obtain ⟨himm2, havg2, hlavg2, hval2, hatt2⟩ := holdsLane_of_update hvalid2 h2 b
  rw [himm1, havg1, hlavg1, hval1, hatt1, himm2, havg2, hlavg2, hval2, hatt2, hlane]
  exact ⟨rfl, rfl, rfl, rfl, rfl⟩

/-! NaN words (41_level.md R228 (c)). -/

theorem add32_of_isNaN {a b : Word} (h : isNaN a = true ∨ isNaN b = true) : add32 a b = canonicalNaN := by
  simp [add32, h]

theorem mul32_of_isNaN {a b : Word} (h : isNaN a = true ∨ isNaN b = true) : mul32 a b = canonicalNaN := by
  simp [mul32, h]

theorem div32_of_isNaN {a b : Word} (h : isNaN a = true ∨ isNaN b = true) : div32 a b = canonicalNaN := by
  simp [div32, h]

theorem isNaN_canonicalNaN : isNaN canonicalNaN = true := by decide

/-- NaN never leaves a sum. -/
theorem foldl_add32_canonicalNaN (f : Nat → Word) (l : List Nat) :
    l.foldl (fun acc j => add32 acc (f j)) canonicalNaN = canonicalNaN :=
  List.foldl_fixed' (fun j => add32_of_isNaN (b := f j) (.inl isNaN_canonicalNaN)) l

theorem foldl_add32_of_isNaN {f : Nat → Word} {l : List Nat} {j : Nat} (hj : j ∈ l) (hnan : isNaN (f j) = true)
    (x : Word) : l.foldl (fun acc j => add32 acc (f j)) x = canonicalNaN := by
  obtain ⟨before, after, rfl⟩ := List.append_of_mem hj
  rw [List.foldl_append, List.foldl_cons, add32_of_isNaN (.inr hnan), foldl_add32_canonicalNaN]

theorem emaStep_canonicalNaN (avg rate : Word) : emaStep avg canonicalNaN rate = canonicalNaN := by
  rw [emaStep, mul32_of_isNaN (.inl isNaN_canonicalNaN), add32_of_isNaN (.inr isNaN_canonicalNaN)]

/-- A NaN average is not below the threshold, so that the quotient is taken. -/
theorem guarded_canonicalNaN (x : Word) : guarded x canonicalNaN = canonicalNaN := by
  rw [guarded, if_neg (by simp [lt32, isNaN_canonicalNaN]), div32_of_isNaN (.inr isNaN_canonicalNaN)]

/-- A NaN sum fills its lane. -/
theorem updateLane_canonicalNaN (r : Rates) (avg lavg : Word) : updateLane r canonicalNaN avg lavg =
    ⟨canonicalNaN, canonicalNaN, canonicalNaN, canonicalNaN, canonicalNaN⟩ := by
  rw [updateLane, emaStep_canonicalNaN, emaStep_canonicalNaN, guarded_canonicalNaN]

/-- Settles O34: NaN never leaves the band's sum, and a NaN sum fills the lane. -/
theorem nanWordFillsItsLane : Obligations.NanWordFillsItsLane := by
  intro s t b j hvalid hlow hhigh hnan h
  have himm : bandImm s b = canonicalNaN :=
    foldl_add32_of_isNaN (List.mem_range'_1.2 ⟨hlow, by omega⟩) hnan _
  have hlane := holdsLane_of_update hvalid h b
  rw [laneAfter, himm, updateLane_canonicalNaN] at hlane
  exact hlane

/-! Silence (41_level.md R226, R228 (a)). -/

/-- A finite value is below the bound of overflow. -/
theorem abs_value_lt_overflowBound {a : Word} (ha : isFinite a = true) : |(value a : ℝ)| < (overflowBound : ℚ) := by
  have hmax : gridUnits 0x7F7FFFFF = (2 ^ 24 - 1) * 2 ^ 253 := by decide
  have hle : magnitude a ≤ (2 ^ 24 - 1) * 2 ^ 253 := by
    rw [magnitude_eq_gridUnits, ← hmax]
    exact gridUnits_strictMono.monotone (Nat.le_of_lt_succ ((isFinite_iff a).1 ha))
  rw [abs_value, overflowBound, div_lt_iff₀ (by positivity)]
  refine (Nat.cast_le.2 hle).trans_lt ?_
  norm_num

/-- A number from 0 to a finite value rounds to a finite value in the same range. -/
theorem value_le_of_roundsTo {x : ℝ} {w c : Word} (h : RoundsTo x w) (hc : isFinite c = true) (h0 : 0 ≤ x)
    (hx : x ≤ value c) : isFinite w = true ∧ 0 ≤ value w ∧ value w ≤ value c := by
  unfold RoundsTo at h
  split_ifs at h with hinf
  · have := abs_value_lt_overflowBound hc
    rw [abs_of_nonneg h0] at h
    exact absurd (h.1.trans (hx.trans (le_abs_self _))) this.not_ge
  · obtain ⟨hfin, -, hnear⟩ := h
    refine ⟨hfin, ?_, ?_⟩
    · have hle := (hnear 0x00000000 (by decide)).1
      rw [isZero_zero.2, Rat.cast_zero, sub_zero, abs_of_nonneg h0] at hle
      by_contra hneg
      have hcast : (value w : ℝ) < 0 := by exact_mod_cast not_le.1 hneg
      rw [abs_of_nonneg (by linarith)] at hle
      linarith
    · have hle := (hnear c hc).1
      rw [abs_of_nonpos (sub_nonpos.2 hx)] at hle
      have : (value w : ℝ) ≤ value c := by linarith [neg_abs_le (x - value w)]
      exact_mod_cast this

theorem value_one32 : value one32 = 1 := by
  rw [value, show units one32 = 2 ^ 149 by decide]
  norm_num

/-- The weight of the sum, 1 − rate, is finite. -/
theorem isFinite_one_sub {r : Word} (hr : isFinite r = true) (h0 : 0 ≤ value r) (h1 : value r ≤ 1) :
    isFinite (sub32 one32 r) = true := by
  have hround := (addIsCorrectlyRounded.1 one32 r (by decide) hr).2.1
  rw [value_one32] at hround
  refine (value_le_of_roundsTo hround (c := one32) (by decide) ?_ ?_).1
  · exact_mod_cast sub_nonneg.2 h1
  · rw [value_one32]
    exact_mod_cast sub_le_self 1 h0

theorem IsZero.mul_right {a b : Word} (ha : IsZero a) (hb : isFinite b = true) : IsZero (mul32 a b) := by
  rw [mul32_finite ha.1 hb, isZero_iff.1 ha, Nat.zero_mul, isZero_iff]
  cases signBit a != signBit b <;> decide

/-- A silent step of an average at a rate in [0, 1] does not raise it. -/
theorem emaStep_silent {avg rate : Word} (hr : isFinite rate = true) (hr0 : 0 ≤ value rate) (hr1 : value rate ≤ 1)
    (ha : isFinite avg = true) (ha0 : 0 ≤ value avg) :
    isFinite (emaStep avg 0x00000000 rate) = true ∧ 0 ≤ value (emaStep avg 0x00000000 rate) ∧
      value (emaStep avg 0x00000000 rate) ≤ value avg := by
  have hzero : IsZero (mul32 0x00000000 (sub32 one32 rate)) := isZero_zero.mul_right (isFinite_one_sub hr hr0 hr1)
  obtain ⟨hmfin, hm0, hmle⟩ := value_le_of_roundsTo (roundsTo_mul32 ha hr) ha (by exact_mod_cast mul_nonneg ha0 hr0)
    (by exact_mod_cast mul_le_of_le_one_right ha0 hr1)
  have hsum := roundsTo_add32 hmfin hzero.1
  rw [hzero.2, add_zero] at hsum
  obtain ⟨hfin, h0, hle⟩ := value_le_of_roundsTo hsum hmfin (by exact_mod_cast hm0) le_rfl
  exact ⟨hfin, h0, hle.trans hmle⟩

/-- Settles O35: the silent step keeps the slow average below the threshold, so that the guard gives 1.0 twice. -/
theorem silenceStaysNeutral : Obligations.SilenceStaysNeutral := by
  intro r avg lavg hr hr0 hr1 hfin h0 hbelow
  obtain ⟨hfin', h0', hle⟩ := emaStep_silent hr hr0.le hr1.le hfin h0
  have hthreshold : isFinite silenceThreshold = true := by decide
  have hbelow' : lt32 (emaStep lavg 0x00000000 r.slow) silenceThreshold = true :=
    (lt32_finite hfin' hthreshold).2 (hle.trans_lt ((lt32_finite hfin hthreshold).1 hbelow))
  have hguard (x : Word) : guarded x (emaStep lavg 0x00000000 r.slow) = one32 := if_pos hbelow'
  exact ⟨hguard _, hguard _, hfin', h0', hbelow'⟩

end Sys2Proof.Proofs

/-! SUPPORT. The per-frame rates (41_level.md R222): the enclosure of the exponential holds the real value, and the exact comparisons find the rounded root where the enclosure does not decide. -/

namespace Sys2Proof.Proofs

open Sys2Proof.Machine Sys2Proof.Safety Sys2Proof.Laws

/-! The exponential series. -/

/-- The term of index k of the series of exp x. -/
noncomputable def expTerm (x : ℝ) (k : Nat) : ℝ := x ^ k / k.factorial

theorem expTerm_nonneg {x : ℝ} (hx : 0 ≤ x) (k : Nat) : 0 ≤ expTerm x k := by
  unfold expTerm; positivity

/-- A term is the one before it times x/(k + 1), here with both factors scaled by 2^p. -/
theorem scaled_expTerm_succ (p : Nat) (x : ℝ) (k : Nat) :
    2 ^ p * expTerm x k * (2 ^ p * x) / (2 ^ p * (k + 1) : ℕ) = 2 ^ p * expTerm x (k + 1) := by
  rw [expTerm, expTerm, Nat.factorial_succ]
  push_cast
  field_simp
  exact (pow_succ x k).symm

/-- From a term and an argument that are too small, every quotient rounded down, the sum is too small. -/
theorem expTerms_le_sum {p u : Nat} {x : ℝ} (hx : 0 ≤ x) (hu : (u : ℝ) ≤ 2 ^ p * x) (fuel k t : Nat)
    (ht : (t : ℝ) ≤ 2 ^ p * expTerm x k) :
    (expTerms p u 0 fuel k t : ℝ) ≤ 2 ^ p * ∑ i ∈ Finset.range fuel, expTerm x (k + i) := by
  induction fuel generalizing k t with
  | zero => simp [expTerms]
  | succ fuel ih =>
    have hnext : ((t * u / (2 ^ p * (k + 1)) : ℕ) : ℝ) ≤ 2 ^ p * expTerm x (k + 1) := by
      have hterm := expTerm_nonneg hx k
      refine Nat.cast_div_le.trans ?_
      rw [← scaled_expTerm_succ, Nat.cast_mul]
      gcongr
    have hrest := ih (k + 1) _ hnext
    rw [Finset.sum_range_succ', expTerms, Nat.cast_add]
    simp only [Nat.add_zero, Nat.add_assoc, Nat.add_comm 1] at hrest ⊢
    linarith

/-- From a term and an argument that are too great, every quotient raised by one, the sum is too great, and twice its last term beside. -/
theorem sum_le_expTerms {p u : Nat} {x : ℝ} (hx : 0 ≤ x) (hu : 2 ^ p * x ≤ u) (fuel k t : Nat)
    (ht : 2 ^ p * expTerm x k ≤ t) :
    2 ^ p * (∑ i ∈ Finset.range fuel, expTerm x (k + i) + 2 * expTerm x (k + fuel)) ≤ expTerms p u 1 fuel k t := by
  induction fuel generalizing k t with
  | zero =>
    rw [expTerms]
    push_cast
    simp only [Finset.range_zero, Finset.sum_empty, Nat.add_zero]
    linarith
  | succ fuel ih =>
    have hnext : 2 ^ p * expTerm x (k + 1) ≤ ((t * u / (2 ^ p * (k + 1)) + 1 : ℕ) : ℝ) := by
      have hterm := expTerm_nonneg hx k
      rw [Nat.cast_add, Nat.cast_one]
      refine le_trans ?_ (div_le_natDiv_add_one _ _)
      rw [← scaled_expTerm_succ, Nat.cast_mul t u]
      gcongr
    have hrest := ih (k + 1) _ hnext
    rw [Finset.sum_range_succ', expTerms, Nat.cast_add]
    simp only [Nat.add_zero, Nat.add_assoc, Nat.add_comm 1] at hrest ⊢
    linarith

/-- Where the terms at least halve from index n on, they sum to at most twice the first of them. -/
theorem exp_le_sum_add {x : ℝ} (hx : 0 ≤ x) {n : Nat} (hn : 2 * x ≤ n + 1) :
    Real.exp x ≤ ∑ i ∈ Finset.range n, expTerm x i + 2 * expTerm x n := by
  have hhalf : ‖(x : ℂ)‖ / n.succ ≤ 1 / 2 := by
    rw [Complex.norm_real, Real.norm_of_nonneg hx, div_le_iff₀ (by positivity)]
    push_cast
    linarith
  have h := Complex.exp_bound' hhalf
  have hcast : Complex.exp x - ∑ m ∈ Finset.range n, (x : ℂ) ^ m / m.factorial =
      ((Real.exp x - ∑ i ∈ Finset.range n, expTerm x i : ℝ) : ℂ) := by simp [expTerm]
  rw [hcast, Complex.norm_real, Complex.norm_real, Real.norm_of_nonneg hx] at h
  have hle := (le_abs_self _).trans h
  unfold expTerm at hle ⊢
  linarith

theorem le_expCount (p : Nat) : 32 ≤ expCount p := Nat.le_add_left _ _

/-- The exponential of an enclosed number is enclosed. -/
theorem encloses_exp {p : Nat} {u : Enclosure} {x : ℝ} (hx : 0 ≤ x) (hx16 : x ≤ 16) (hu : Encloses p u x) :
    Encloses p (expEnclosure p u) (Real.exp x) := by
  obtain ⟨hlow, hhigh⟩ := hu
  have hone : ((2 ^ p : ℕ) : ℝ) = 2 ^ p * expTerm x 0 := by simp [expTerm]
  have hsum_low := expTerms_le_sum hx hlow (expCount p) 0 (2 ^ p) hone.le
  have hsum_high := sum_le_expTerms hx hhigh (expCount p) 0 (2 ^ p) hone.ge
  simp only [Nat.zero_add] at hsum_low hsum_high
  have hcount : (32 : ℝ) ≤ expCount p := by exact_mod_cast le_expCount p
  refine ⟨hsum_low.trans ?_, le_trans ?_ hsum_high⟩
  · exact mul_le_mul_of_nonneg_left (Real.sum_le_exp_of_nonneg hx _) (by positivity)
  · exact mul_le_mul_of_nonneg_left (exp_le_sum_add hx (by linarith)) (by positivity)

/-- The first term alone makes the lower end positive. -/
theorem expEnclosure_lo_pos (p : Nat) (u : Enclosure) : 0 < (expEnclosure p u).lo := by
  obtain ⟨n, hn⟩ : ∃ n, expCount p = n + 1 := ⟨expCount p - 1, by have := le_expCount p; omega⟩
  rw [expEnclosure, hn, expTerms]
  positivity

/-! Roots by enclosure. -/

/-- A positive value is its magnitude. -/
theorem cast_value_of_pos {a : Word} (h : 0 < value a) : (value a : ℝ) = magnitude a / 2 ^ 149 := by
  have hpos : (0 : ℝ) < value a := by exact_mod_cast h
  rw [← abs_of_pos hpos, abs_value]

theorem magnitude_pos_of_pos {a : Word} (h : 0 < value a) : 0 < magnitude a :=
  Nat.pos_of_ne_zero (mt value_eq_zero.2 h.ne')

theorem encloses_quotient {p m : Nat} {l : Enclosure} {y : ℝ} (hm : 0 < m) (h : Encloses p l y) :
    Encloses p ⟨l.lo * 2 ^ 149 / m, l.hi * 2 ^ 149 / m + 1⟩ (y / (m / 2 ^ 149)) := by
  obtain ⟨hlow, hhigh⟩ := h
  have hmpos : (0 : ℝ) < m := Nat.cast_pos.2 hm
  have hquot : 2 ^ p * (y / (m / 2 ^ 149)) = 2 ^ p * y * 2 ^ 149 / m := by field_simp
  rw [Encloses, hquot]
  constructor
  · refine Nat.cast_div_le.trans ?_
    rw [Nat.cast_mul, Nat.cast_pow, Nat.cast_ofNat]
    gcongr
  · rw [Nat.cast_add, Nat.cast_one]
    refine le_trans ?_ (div_le_natDiv_add_one _ _)
    rw [Nat.cast_mul, Nat.cast_pow, Nat.cast_ofNat]
    gcongr

/-- The exponent of the reciprocal root, −ln(q)/fe. -/
noncomputable def rootExponent (q fe : Word) : ℝ := -Real.log (value q) / value fe

theorem rpow_eq_inv_exp {q : Word} (hq0 : 0 < value q) (fe : Word) :
    (value q : ℝ) ^ (1 / (value fe : ℝ)) = (Real.exp (rootExponent q fe))⁻¹ := by
  rw [Real.rpow_def_of_pos (by exact_mod_cast hq0), ← Real.exp_neg, rootExponent, neg_div, neg_neg, mul_one_div]

section
variable {q fe : Word} (hq0 : 0 < value q) (hfe : 15 ≤ value fe)
include hq0 hfe

theorem rootExponent_nonneg (hq1 : value q < 1) : 0 ≤ rootExponent q fe := by
  have hlog : Real.log (value q) ≤ 0 := Real.log_nonpos (by exact_mod_cast hq0.le) (by exact_mod_cast hq1.le)
  have hfpos : (0 : ℝ) ≤ value fe := by exact_mod_cast (by norm_num : (0 : ℚ) ≤ 15).trans hfe
  exact div_nonneg (neg_nonneg.2 hlog) hfpos

/-- The least positive value is 2^-149, so that the exponent is at most 149/15. -/
theorem rootExponent_le : rootExponent q fe ≤ 16 := by
  have hm : (1 : ℝ) ≤ magnitude q := by exact_mod_cast magnitude_pos_of_pos hq0
  have hlog2 : Real.log 2 ≤ 1 := by linarith [Real.log_le_sub_one_of_pos (zero_lt_two (α := ℝ))]
  have hlogm := Real.log_nonneg hm
  have hlog : -Real.log (value q) ≤ 149 := by
    rw [cast_value_of_pos hq0, Real.log_div (by positivity) (by positivity), Real.log_pow]
    push_cast
    linarith
  have hf : (15 : ℝ) ≤ value fe := by exact_mod_cast hfe
  rw [rootExponent, div_le_iff₀ (by linarith)]
  linarith

theorem encloses_rootEnclosure (hq1 : value q < 1) (p : Nat) :
    Encloses p (rootEnclosure p q fe) (Real.exp (rootExponent q fe)) := by
  have hf0 : 0 < value fe := lt_of_lt_of_le (by norm_num) hfe
  have hm : magnitude q < 2 ^ 149 := by
    have h : (value q : ℝ) < 1 := by exact_mod_cast hq1
    rw [cast_value_of_pos hq0, div_lt_one (by positivity)] at h
    exact_mod_cast h
  have h := encloses_quotient (magnitude_pos_of_pos hf0) (encloses_negLn p (magnitude_pos_of_pos hq0) hm)
  rw [← cast_value_of_pos hq0, ← cast_value_of_pos hf0] at h
  exact encloses_exp (rootExponent_nonneg hq0 hfe hq1) (rootExponent_le hq0 hfe) h

end

/-- Where the reciprocals of both ends round to one word, so does that of the enclosed number. -/
theorem roundsTo_of_roundReciprocal {p : Nat} {e : Enclosure} {z : ℝ} {w : Word} (hlo : 0 < e.lo)
    (he : Encloses p e z) (h : roundReciprocal p e = some w) : RoundsTo z⁻¹ w := by
  obtain ⟨hlow, hhigh⟩ := he
  have hlopos : (0 : ℝ) < e.lo := Nat.cast_pos.2 hlo
  have hscaled : 0 < 2 ^ p * z := hlopos.trans_le hlow
  have hhi : 0 < e.hi := Nat.cast_pos.1 (hscaled.trans_le hhigh)
  have hend (d : Nat) : signFactor false * (((2 ^ (149 + p) : ℕ) : ℝ) / d / 2 ^ 149) = 2 ^ p / d := by
    rw [signFactor_false, one_mul, pow_add, Nat.cast_mul, Nat.cast_pow, Nat.cast_pow, Nat.cast_ofNat, mul_div_assoc,
      mul_div_cancel_left₀ _ (by positivity)]
  have hz : z⁻¹ = 2 ^ p / (2 ^ p * z) := by
    rw [div_mul_eq_div_div, div_self (by positivity), one_div]
  have hround_lo := roundsTo_round32 false (2 ^ (149 + p)) hlo
  have hround_hi := roundsTo_round32 false (2 ^ (149 + p)) hhi
  rw [hend] at hround_lo hround_hi
  unfold roundReciprocal at h
  split_ifs at h with hends
  rw [← hends] at hround_hi
  obtain rfl := Option.some.inj h
  rw [hz]
  exact roundsTo_of_between hround_hi hround_lo (by gcongr) (by gcongr)

theorem roundsTo_root_of_enclosure {p : Nat} {q fe w : Word} (hq0 : 0 < value q) (hq1 : value q < 1)
    (hfe : 15 ≤ value fe) (h : roundReciprocal p (rootEnclosure p q fe) = some w) :
    RoundsTo ((value q : ℝ) ^ (1 / (value fe : ℝ))) w := by
  rw [rpow_eq_inv_exp hq0]
  exact roundsTo_of_roundReciprocal (expEnclosure_lo_pos _ _) (encloses_rootEnclosure hq0 hfe hq1 p) h

/-! Roots by exact comparisons. -/

/-- The real number (m/2^149)^(s/p). -/
noncomputable def unitRoot (m p s : Nat) : ℝ := (((m : ℝ) / 2 ^ 149) ^ s) ^ (p : ℝ)⁻¹

theorem unitRoot_nonneg (m p s : Nat) : 0 ≤ unitRoot m p s := by
  unfold unitRoot; positivity

/-- num/2^k against the root: the p-th power of the one against the s-th of m/2^149, in whole numbers. -/
theorem powerAtMost_iff {p : Nat} (m s num k : Nat) (hp : 0 < p) :
    powerAtMost m p s num (2 ^ k) = true ↔ (num : ℝ) ≤ unitRoot m p s * 2 ^ k := by
  rw [unitRoot, ← div_le_iff₀ (by positivity), Real.le_rpow_inv_iff_of_pos (by positivity) (by positivity)
    (Nat.cast_pos.2 hp), Real.rpow_natCast, div_pow, div_pow, div_le_div_iff₀ (by positivity) (by positivity),
    powerAtMost, decide_eq_true_iff]
  exact_mod_cast Iff.rfl

theorem powerBelow_iff {p : Nat} (m s num k : Nat) (hp : 0 < p) :
    powerBelow m p s num (2 ^ k) = true ↔ (num : ℝ) < unitRoot m p s * 2 ^ k := by
  rw [unitRoot, ← div_lt_iff₀ (by positivity), Real.lt_rpow_inv_iff_of_pos (by positivity) (by positivity)
    (Nat.cast_pos.2 hp), Real.rpow_natCast, div_pow, div_pow, div_lt_div_iff₀ (by positivity) (by positivity),
    powerBelow, decide_eq_true_iff]
  exact_mod_cast Iff.rfl

/-- With s/p = 2^149/m in lowest terms the comparisons are with the root of a positive fe. -/
theorem unitRoot_eq_rpow {q fe : Word} (hq0 : 0 < value q) (hf0 : 0 < value fe) :
    unitRoot (magnitude q) (magnitude fe / Nat.gcd (magnitude fe) (2 ^ 149)) (2 ^ 149 / Nat.gcd (magnitude fe) (2 ^ 149)) =
      (value q : ℝ) ^ (1 / (value fe : ℝ)) := by
  have hg : (Nat.gcd (magnitude fe) (2 ^ 149) : ℝ) ≠ 0 := by
    exact_mod_cast (Nat.gcd_pos_of_pos_left _ (magnitude_pos_of_pos hf0)).ne'
  rw [unitRoot, ← cast_value_of_pos hq0, ← Real.rpow_natCast, ← Real.rpow_mul (by exact_mod_cast hq0.le),
    ← div_eq_mul_inv, Nat.cast_div (Nat.gcd_dvd_right _ _) hg, Nat.cast_div (Nat.gcd_dvd_left _ _) hg,
    div_div_div_cancel_right₀ hg, cast_value_of_pos hf0, one_div_div,
    Nat.cast_pow, Nat.cast_ofNat]

/-- The search keeps a number that the condition admits, and has refused the number after it. -/
theorem greatestFrom_spec {f : Nat → Bool} (bits : Nat) {c : Nat} (hc : f c = true) :
    f (greatestFrom f bits c) = true ∧ greatestFrom f bits c < c + 2 ^ bits ∧
      (greatestFrom f bits c + 1 < c + 2 ^ bits → f (greatestFrom f bits c + 1) = false) := by
  induction bits generalizing c with
  | zero => exact ⟨hc, Nat.lt_succ_self c, fun h => absurd h (Nat.lt_irrefl _)⟩
  | succ bits ih =>
    rw [greatestFrom, pow_succ]
    cases hbit : f (c + 2 ^ bits) with
    | true =>
      obtain ⟨hf, hlt, hnext⟩ := ih hbit
      exact ⟨hf, by rw [if_pos rfl]; omega, fun h => hnext (by rw [if_pos rfl] at h; omega)⟩
    | false =>
      obtain ⟨hf, hlt, hnext⟩ := ih hc
      rw [if_neg Bool.false_ne_true]
      refine ⟨hf, by omega, fun _ => ?_⟩
      rcases (Nat.succ_le_of_lt hlt).lt_or_eq with h | h
      · exact hnext h
      · rwa [← h] at hbit

theorem ofNat_eq_packSign (c : Nat) : BitVec.ofNat 32 c = packSign false c := by simp [packSign]

theorem patternUnits_eq {c : Nat} (hc : c < 2 ^ 31) : patternUnits c = gridUnits c := by
  rw [patternUnits, magnitude_eq_gridUnits, ofNat_eq_packSign, patternOf_packSign false hc]

/-- Between two neighbouring patterns the midpoint tells the nearer one. -/
theorem nearestPattern_of_mem_Ico {y : ℝ} {c : Nat} (hlow : gridUnits c ≤ y) (hup : y < gridUnits (c + 1)) :
    (boundary c < 2 * y → NearestPattern y (c + 1)) ∧ (2 * y = boundary c → NearestPattern y (c + c % 2)) ∧
      (2 * y < boundary c → NearestPattern y c) := by
  have hbelow (d : Nat) (hd : d + 1 = c) : (boundary d : ℝ) < 2 * y := by
    have h : (gridUnits d : ℝ) < gridUnits c := by exact_mod_cast gridUnits_strictMono (by omega : d < c)
    rw [boundary, hd, Nat.cast_add]
    linarith
  have habove : 2 * y < boundary (c + 1) := by
    have h : (gridUnits (c + 1) : ℝ) < gridUnits (c + 1 + 1) := by exact_mod_cast gridUnits_strictMono (Nat.lt_succ_self _)
    rw [boundary, Nat.cast_add]
    linarith
  have hnext (hle : (boundary c : ℝ) ≤ 2 * y) (heven : 2 * y = boundary c → (c + 1) % 2 = 0) :
      NearestPattern y (c + 1) := by
    refine ⟨fun d hd => ?_, habove.le, fun h => absurd h habove.ne⟩
    obtain rfl := Nat.succ.inj hd
    exact ⟨hle, heven⟩
  have hsame (hle : 2 * y ≤ boundary c) (heven : 2 * y = boundary c → c % 2 = 0) : NearestPattern y c :=
    ⟨fun d hd => ⟨(hbelow d hd).le, fun h => absurd h (hbelow d hd).ne'⟩, hle, heven⟩
  refine ⟨fun h => hnext h.le fun h' => absurd h' h.ne', fun h => ?_, fun h => hsame h.le fun h' => absurd h' h.ne⟩
  rcases Nat.mod_two_eq_zero_or_one c with heven | hodd
  · rw [heven]
    exact hsame h.le fun _ => heven
  · rw [hodd]
    exact hnext h.ge fun _ => by omega

/-- The pattern that exactRoot finds: the greatest one at or below the root. -/
def rootPattern (m p s : Nat) : Nat := greatestFrom (fun c => powerAtMost m p s (patternUnits c) (2 ^ 149)) 31 0

/-- The root lies between that pattern and the next; being below 1, it leaves room for the next among 31 bits. -/
theorem rootPattern_spec {m p s : Nat} (hp : 0 < p) (hroot : unitRoot m p s < 1) :
    rootPattern m p s < 0x3F800000 ∧ gridUnits (rootPattern m p s) ≤ unitRoot m p s * 2 ^ 149 ∧
      unitRoot m p s * 2 ^ 149 < gridUnits (rootPattern m p s + 1) := by
  have hadmit {c : Nat} (hc : c < 2 ^ 31) : powerAtMost m p s (patternUnits c) (2 ^ 149) = true ↔
      (gridUnits c : ℝ) ≤ unitRoot m p s * 2 ^ 149 := by rw [powerAtMost_iff _ _ _ _ hp, patternUnits_eq hc]
  have hzero : (gridUnits 0 : ℝ) ≤ unitRoot m p s * 2 ^ 149 := by
    rw [gridUnits_zero, Nat.cast_zero]
    exact mul_nonneg (unitRoot_nonneg m p s) (by positivity)
  have hspec := greatestFrom_spec (f := fun c => powerAtMost m p s (patternUnits c) (2 ^ 149)) 31
    ((hadmit (by decide)).2 hzero)
  rw [← rootPattern, Nat.zero_add] at hspec
  obtain ⟨hmem, hbits, hnext⟩ := hspec
  have hlow := (hadmit hbits).1 hmem
  have hone : rootPattern m p s < 0x3F800000 := by
    have hgrid : gridUnits 0x3F800000 = 2 ^ 149 := by decide
    rw [← gridUnits_strictMono.lt_iff_lt, hgrid, ← Nat.cast_lt (α := ℝ), Nat.cast_pow, Nat.cast_ofNat]
    exact hlow.trans_lt (mul_lt_of_lt_one_left (by positivity) hroot)
  refine ⟨hone, hlow, ?_⟩
  rw [← not_le, ← hadmit (by omega)]
  exact Bool.eq_false_iff.1 (hnext (by omega))

/-- The pattern that exactRoot answers is that of the root, in units. -/
theorem exists_nearestPattern_exactRoot {q fe : Word} (hq0 : 0 < value q) (hq1 : value q < 1) (hf0 : 0 < value fe) :
    ∃ c, c < 0x7F800000 ∧ exactRoot q fe = BitVec.ofNat 32 c ∧
      NearestPattern ((value q : ℝ) ^ (1 / (value fe : ℝ)) * 2 ^ 149) c := by
  have hlt_one : (value q : ℝ) ^ (1 / (value fe : ℝ)) < 1 :=
    Real.rpow_lt_one (by exact_mod_cast hq0.le) (by exact_mod_cast hq1) (by rw [one_div_pos]; exact_mod_cast hf0)
  have hp : 0 < magnitude fe / Nat.gcd (magnitude fe) (2 ^ 149) :=
    Nat.div_pos (Nat.gcd_le_left _ (magnitude_pos_of_pos hf0)) (Nat.gcd_pos_of_pos_left _ (magnitude_pos_of_pos hf0))
  rw [← unitRoot_eq_rpow hq0 hf0] at hlt_one ⊢
  unfold exactRoot
  simp only
  generalize magnitude fe / Nat.gcd (magnitude fe) (2 ^ 149) = p at *
  generalize 2 ^ 149 / Nat.gcd (magnitude fe) (2 ^ 149) = s at *
  obtain ⟨hc, hlow, hup⟩ := rootPattern_spec hp hlt_one
  obtain ⟨habove, htie, hbelow⟩ := nearestPattern_of_mem_Ico hlow hup
  unfold rootPattern at hc habove htie hbelow
  generalize greatestFrom _ 31 0 = c at *
  rw [patternUnits_eq (by omega), patternUnits_eq (by omega), ← boundary]
  simp only [powerBelow_iff _ _ _ _ hp, powerAtMost_iff _ _ _ _ hp]
  split_ifs with hlt hle
  · exact ⟨c + 1, by omega, rfl, habove (by linarith)⟩
  · exact ⟨c + c % 2, by omega, rfl, htie (by linarith)⟩
  · exact ⟨c, by omega, rfl, hbelow (by linarith)⟩

theorem roundsTo_exactRoot {q fe : Word} (hq0 : 0 < value q) (hq1 : value q < 1) (hf0 : 0 < value fe) :
    RoundsTo ((value q : ℝ) ^ (1 / (value fe : ℝ))) (exactRoot q fe) := by
  obtain ⟨c, hc, hword, hnear⟩ := exists_nearestPattern_exactRoot hq0 hq1 hf0
  have hnonneg : 0 ≤ (value q : ℝ) ^ (1 / (value fe : ℝ)) := Real.rpow_nonneg (by exact_mod_cast hq0.le) _
  have h := roundsTo_of_nearestPattern (by positivity) hnear false
  rwa [min_eq_left hc.le, ← ofNat_eq_packSign, ← hword, signFactor_false, one_mul,
    mul_div_cancel_right₀ _ (by positivity)] at h

/-! The rates. -/

theorem rootWord_eq (q fe : Word) :
    rootWord q fe = (roundReciprocal precision (rootEnclosure precision q fe)).getD (exactRoot q fe) := rfl

theorem roundsTo_rootWord {q fe : Word} (hq0 : 0 < value q) (hq1 : value q < 1) (hfe : 15 ≤ value fe) :
    RoundsTo ((value q : ℝ) ^ (1 / (value fe : ℝ))) (rootWord q fe) := by
  cases h : roundReciprocal precision (rootEnclosure precision q fe) with
  | some w =>
    rw [rootWord_eq, h, Option.getD_some]
    exact roundsTo_root_of_enclosure hq0 hq1 hfe h
  | none =>
    rw [rootWord_eq, h, Option.getD_none]
    exact roundsTo_exactRoot hq0 hq1 (lt_of_lt_of_le (by norm_num) hfe)

/-- The values of perSecond lie in (0, 1). -/
theorem perSecond_mem_Ioo {r : Word} (hr : r ∈ [(0x3E4CCCCD : Word), 0x3F000000, 0x3F666666, 0x3F7DF3B6]) :
    0 < value (powInt32 r 30) ∧ value (powInt32 r 30) < 1 := by
  have hall : ∀ r ∈ [(0x3E4CCCCD : Word), 0x3F000000, 0x3F666666, 0x3F7DF3B6],
      0 < units (powInt32 r 30) ∧ units (powInt32 r 30) < units one32 := by
    simp only [List.forall_mem_cons, List.not_mem_nil, false_imp_iff, implies_true, and_true]
    decide +kernel
  obtain ⟨hpos, hlt⟩ := hall r hr
  exact ⟨div_pos (Int.cast_pos.2 hpos) (by positivity), value_one32 ▸ value_lt_value.2 hlt⟩

/-- Settles O36: by evaluation at the four base rates. -/
theorem ratesAtBaseFps : Obligations.RatesAtBaseFps := by
  unfold Obligations.RatesAtBaseFps
  simp only [List.forall_mem_cons, List.not_mem_nil, false_imp_iff, implies_true, and_true]
  decide +kernel

/-- Settles O37: a rate comes from the enclosure where it decides, else from the exact comparisons, and both are right. -/
theorem rateIsCorrectlyRounded : Obligations.RateIsCorrectlyRounded := by
  refine ⟨fun r hr fe _ hlow _ => ?_, fun p q fe w _ hq0 hq1 _ hlow _ h => roundsTo_root_of_enclosure hq0 hq1 hlow h⟩
  obtain ⟨hq0, hq1⟩ := perSecond_mem_Ioo hr
  exact roundsTo_rootWord hq0 hq1 hlow

end Sys2Proof.Proofs

/-! SUPPORT. Writes of the host (42_control.md R262): what a register or RAM word keeps of a written word, and the acceptance of a command. -/

namespace Sys2Proof.Proofs

open Sys2Proof.Machine Sys2Proof.Safety Sys2Proof.Laws

/-- A write to a writable word that BUSY does not shut out has the effect of its region. -/
theorem transact_write_okay {s : State} {off : Word} {r : Region} (hr : regionOf (decodedOffset off) = r)
    (halign : decodedOffset off % 4 = 0) (hro : readOnly r = false)
    (hopen : s.status.busy = true → alwaysAccessible r = true) (data : Word) :
    transact (.write 4 off data) s = { writeValue data s r with bus := some (.writeDone .okay) } := by
  subst hr
  have hmapped : regionOf (decodedOffset off) ≠ .reserved := fun h => by simp [h, readOnly] at hro
  exact memWrite_okay (accessRefused_eq_false_iff.2 ⟨rfl, halign, hmapped, hopen⟩) hro data

theorem transact_write_idle {s : State} (hidle : s.status.busy = false) {off : Word} {r : Region}
    (hr : regionOf (decodedOffset off) = r) (halign : decodedOffset off % 4 = 0) (hro : readOnly r = false)
    (data : Word) :
    transact (.write 4 off data) s = { writeValue data s r with bus := some (.writeDone .okay) } :=
  transact_write_okay hr halign hro (by simp [hidle]) data

/-- A write with no cause of a bus error, by the offset that the block decodes. -/
theorem accepted_write {s : State} {off data : Word} (h : ¬ causesBusError s (.write 4 off data)) :
    ¬ accessError s 4 (decodedOffset off) ∧ writableOffset (decodedOffset off) ∧ decodedOffset off % 4 = 0 := by
  obtain ⟨hacc, hwritable⟩ := not_or.1 h
  exact ⟨hacc, not_not.1 hwritable, by_contra fun halign => hacc (.inr (.inl halign))⟩

/-- Settles O50: CMD is writable while BUSY is 0, and its write is the acceptance. -/
theorem commandWriteIsAccepted : Obligations.CommandWriteIsAccepted :=
  fun _ w hidle => transact_write_idle (r := .cmd) hidle rfl (by decide) rfl w

/-! TIME RAM and SPEC RAM, the words of RAM that the host writes (20_memory.md R83, R84). -/

/-- Their addresses are the offsets of their entries. -/
theorem regionOf_hostRam {o : Nat} (hlow : 0x4000 ≤ o) (hhigh : o < 0xA000) (halign : o % 4 = 0) :
    (∃ i, regionOf o = .timeRam i ∧ timeBase + 4 * i = o) ∨
    (∃ i, regionOf o = .specRam i ∧ specBase + 4 * i = o) := by
  by_cases htime : o < 0x8000
  · obtain ⟨i, rfl⟩ : ∃ i, o = 0x4000 + 4 * i := ⟨(o - 0x4000) / 4, by omega⟩
    obtain ⟨-, -, htimeRam, -⟩ := regionOf_entry i
    exact .inl ⟨i, htimeRam (by omega), rfl⟩
  · obtain ⟨i, rfl⟩ : ∃ i, o = 0x8000 + 4 * i := ⟨(o - 0x8000) / 4, by omega⟩
    obtain ⟨-, -, -, hspecRam, -⟩ := regionOf_entry i
    exact .inr ⟨i, hspecRam (by omega), rfl⟩

theorem readValue_hostRam {o : Nat} (hlow : 0x4000 ≤ o) (hhigh : o < 0xA000) (halign : o % 4 = 0) (s : State) :
    readValue s (regionOf o) = readWord s.ram o := by
  obtain ⟨i, hr, rfl⟩ | ⟨i, hr, rfl⟩ := regionOf_hostRam hlow hhigh halign <;> rw [hr] <;> rfl

theorem writeValue_hostRam {o : Nat} (hlow : 0x4000 ≤ o) (hhigh : o < 0xA000) (halign : o % 4 = 0)
    (data : Word) (s : State) :
    writeValue data s (regionOf o) = { s with ram := storeWords s.ram o [data] } := by
  obtain ⟨i, hr, rfl⟩ | ⟨i, hr, rfl⟩ := regionOf_hostRam hlow hhigh halign <;> rw [hr] <;> rfl

theorem readWord_storeWords_singleton (m : Memory) (a : Nat) (w : Word) : readWord (storeWords m a [w]) a = w :=
  readWord_storeWords m a [w] 0 Nat.one_pos

/-- Settles O48: from 0x4000 on only TIME RAM and SPEC RAM are writable, and a write stores one word there. -/
theorem ramWriteChangesOneEntry : Obligations.RamWriteChangesOneEntry := by
  intro s off data hok hlow
  obtain ⟨hacc, hwritable, halign⟩ := accepted_write hok
  change 0x4000 ≤ decodedOffset off at hlow
  have hhigh : decodedOffset off < 0xA000 := by
    unfold writableOffset at hwritable
    omega
  have hwrite : transact (.write 4 off data) s =
      { s with ram := storeWords s.ram (decodedOffset off) [data], bus := some (.writeDone .okay) } := by
    rw [transact, memWrite_accepted hacc hwritable, writeValue_hostRam hlow hhigh halign]
  refine ⟨_, hwrite.symm, rfl, readWord_storeWords_singleton _ _ _, fun a ha => ?_⟩
  exact readByte_storeWords_outside _ _ _ _ ((not_and_or.1 ha).imp not_le.1 not_lt.1)

/-! Reading back (10_state.md R35 to R40, R46, R47). -/

/-- The region keeps the bits `m` of a written word and reads the others as 0, and its write leaves STATUS. -/
def KeepsBits (r : Region) (m : Word) : Prop :=
  ∀ (s : State) (data : Word),
    readValue (writeValue data s r) r = data &&& m ∧ (writeValue data s r).status = s.status

/-- The low n bits of a word, extended by zeros, are the word under the mask of n ones. -/
theorem zeroExtend_extractLsb'_eq_and (w : Word) (n : Nat) :
    (w.extractLsb' 0 n).zeroExtend 32 = w &&& BitVec.ofNat 32 (2 ^ n - 1) := by
  refine BitVec.eq_of_getLsbD_eq fun i hi => ?_
  rw [BitVec.getLsbD_and, BitVec.getLsbD_ofNat, Nat.testBit_two_pow_sub_one]
  simp [hi, Bool.and_comm]

/-- The regions that the address map gives the storing words keep those words' bits. -/
theorem keepsBits_of_storedBits {o : Nat} {m : Word} (halign : o % 4 = 0) (h : storedBits o = some m) :
    KeepsBits (regionOf o) m := by
  intro s data
  have hallOnes : data &&& 0xFFFFFFFF = data := BitVec.and_allOnes
  unfold storedBits at h
  split_ifs at h with hirqEn hnarrow hfull hram <;> cases h
  · subst hirqEn
    exact ⟨zeroExtend_extractLsb'_eq_and data 3, rfl⟩
  · rcases hnarrow with rfl | rfl | rfl <;>
      exact ⟨zeroExtend_extractLsb'_eq_and data 13, rfl⟩
  · rw [hallOnes]
    rcases hfull with rfl | rfl | rfl | rfl | rfl <;> exact ⟨rfl, rfl⟩
  · obtain ⟨hlow, hhigh⟩ := hram
    rw [hallOnes, readValue_hostRam hlow hhigh halign, writeValue_hostRam hlow hhigh halign]
    exact ⟨readWord_storeWords_singleton _ _ _, rfl⟩

/-- No word of the window shows the response. -/
theorem readValue_bus (s : State) (b : Option BusResponse) (r : Region) :
    readValue { s with bus := b } r = readValue s r := by
  cases r <;> rfl

/-- The words that are neither read-only nor refused read back what they keep. -/
theorem bus_read_after_write {s : State} {off data m : Word} (hok : ¬ causesBusError s (.write 4 off data))
    (hkeeps : KeepsBits (regionOf (decodedOffset off)) m) :
    (transact (.read 4 off) (transact (.write 4 off data) s)).bus = some (.readDone (data &&& m) .okay) := by
  obtain ⟨hacc, hwritable, -⟩ := accepted_write hok
  obtain ⟨hread, hstatus⟩ := hkeeps s data
  rw [transact, transact, memWrite_accepted hacc hwritable, memRead_accepted ?hopen, readValue_bus, hread]
  case hopen => simpa only [accessError, hstatus] using hacc

/-- Settles O47: a stored word reads back what its region keeps, and each register's write is its region's. -/
theorem writeReadsBackMasked : Obligations.WriteReadsBackMasked := by
  refine ⟨fun s off data m hok hm => ?readBack, fun s data hidle => ?operands, fun s data => ⟨?irqEn, fun hd => ?ctrl⟩⟩
  case readBack =>
    obtain ⟨-, -, halign⟩ := accepted_write hok
    exact bus_read_after_write hok (keepsBits_of_storedBits halign hm)
  case operands =>
    simp only [List.forall_mem_cons, List.not_mem_nil, false_imp_iff, implies_true, and_true]
    and_intros <;> exact transact_write_idle hidle rfl (by decide) (by decide) data
  case irqEn => exact transact_write_okay (r := .irqEn) rfl (by decide) rfl (fun _ => rfl) data
  case ctrl =>
    rw [transact_write_okay (r := .ctrl) rfl (by decide) rfl (fun _ => rfl), writeValue, hd]
    rfl

end Sys2Proof.Proofs

/-! SUPPORT. The step (42_control.md R260, R263 to R265, R270): what every completion does, NOP, the host's statements, and that a pending command finishes. -/

namespace Sys2Proof.Proofs

open Sys2Proof.Machine Sys2Proof.Safety Sys2Proof.Laws

/-- No command writes ERR or BUSERR itself. -/
theorem CommandEffect.keeps_errors {s u : State} {i : Instr} {c : CmdCode} (h : CommandEffect s i u c) :
    u.status.err = s.status.err ∧ u.status.busErr = s.status.busErr := by
  cases h
  case fftConfigDone e _ _ => rw [fillTables_eq]; exact ⟨rfl, rfl⟩
  all_goals exact ⟨rfl, rfl⟩

/-- Settles O7: a command's effect leaves ERR and BUSERR to the completion, which writes the rest. -/
theorem completionSetsFlags : Obligations.CompletionSetsFlags := by
  intro i s
  obtain ⟨r, hexec⟩ := exec_is_completion i s
  obtain ⟨u, c, hu, h⟩ := exec_cases hexec
  obtain ⟨herr, hbusErr⟩ := hu.keeps_errors
  refine ⟨complete (u, c), by rw [hexec, h], rfl, rfl, rfl, rfl, ?_, hbusErr⟩
  rw [← herr]
  rfl

theorem exec_nop (s : State) : exec .nop s = .next { s with
    pending := none, wait := 0
    status := { s.status with busy := false, done := true, code := .ok } } :=
  congrArg Host.Outcome.next (complete_ok s)

/-- Settles O6: NOP is the completion alone. -/
theorem nopOnlyCompletes : Obligations.NopOnlyCompletes := by
  refine ⟨by decide, exec_nop, fun t h => ?_⟩
  rw [exec_nop] at h
  cases h
  decide

/-! The host's turn. -/

/-- A step that completes nothing is a turn of the host. -/
theorem step_of_not_ready {s : State} (h : s.pending = none ∨ engineReady s = false) :
    step s = .next (hostTurn s) := by
  rcases h with h | h
  · simp [step, blockStep, h]
  · cases hp : s.pending <;> simp [step, blockStep, hp, h]

theorem hostTurn_cons {s : State} {st : HostStmt} {rest : List HostStmt} (h : s.host = st :: rest) :
    hostTurn s = countTurn s (runStmt st rest s) := by
  rw [hostTurn, h]

theorem countTurn_eq (s t : State) :
    countTurn s t = { t with wait := if s.pending = none then t.wait else t.wait - 1 } := by
  cases h : s.pending <;> simp [countTurn, h, countTransaction]

/-- A read answers with data, which RD takes to d, and leaves the host's program. -/
theorem readToD_answers (off : Word) (s : State) :
    ∃ w r, (transact (.read 4 off) s).bus = some (.readDone w r) ∧ (transact (.read 4 off) s).host = s.host ∧
      readToD off s = { transact (.read 4 off) s with d := w } := by
  simp only [transact, readToD]
  obtain ⟨-, h⟩ | ⟨-, h⟩ := memRead_cases 4 off s <;> rw [h]
  · exact ⟨_, _, rfl, rfl, rfl⟩
  · exact ⟨_, _, rfl, rfl, rfl⟩

/-- A POLL leaves the program only when its condition holds of the word read. -/
theorem runStmt_poll {s t : State} {rest : List HostStmt} {off mask val w : Word}
    (hs : s.host = .poll off mask val :: rest) (hkept : t.host = s.host)
    (hread : readToD off s = { t with d := w }) :
    runStmt (.poll off mask val) rest s =
      { t with host := if w &&& mask = val then rest else .poll off mask val :: rest, d := w } := by
  rw [runStmt, hread]
  by_cases hc : w &&& mask = val
  · rw [if_pos hc, if_pos hc]
  · rw [if_neg hc, if_neg hc, ← hs, ← hkept]

/-- Settles O4: a ready word is completed by exec; else the turn is one transaction of the statement at the head. -/
theorem stepRunsDecodedCommand : Obligations.StepRunsDecodedCommand := by
  refine ⟨fun s w i hp hready hd => ?completes, fun s st rest hs hturn => ?turn, fun s hp hs => ?idle⟩
  case completes => simp [step_of_ready hp hready, completePending, hd]
  case idle => rw [step_of_not_ready (.inl hp), hostTurn_idle hs]
  case turn =>
    have hnotReady : s.pending = none ∨ engineReady s = false :=
      hturn.imp_right fun hwait => Bool.eq_false_iff.2 fun hready =>
        (engineReady_iff.1 hready).elim hwait (by simp [hs])
    refine ⟨runStmt st rest s, by rw [step_of_not_ready hnotReady, hostTurn_cons hs, countTurn_eq],
      ?wr, ?bus, ?rd, ?expect, ?poll, ?rst⟩
    case wr => rintro off v rfl; rfl
    case bus => rintro tr rfl; rfl
    case rst => rintro rfl; rfl
    case rd =>
      rintro off rfl
      obtain ⟨w, r, hbus, -, hread⟩ := readToD_answers off s
      exact ⟨w, r, hbus, by rw [runStmt, hread]⟩
    case expect =>
      rintro off v rfl
      obtain ⟨w, r, hbus, -, hread⟩ := readToD_answers off s
      exact ⟨w, r, hbus, by rw [runStmt, hread]⟩
    case poll =>
      rintro off mask val rfl
      obtain ⟨w, r, hbus, hkept, hread⟩ := readToD_answers off s
      exact ⟨w, r, hbus, runStmt_poll hs hkept hread⟩

/-! Progress (42_control.md R270). -/

/-- While BUSY is 1, a statement aborts the pending command or leaves it and its wait. -/
theorem HostEffect.pending_while_busy {resets : Bool} {s u : State} (h : HostEffect resets s u)
    (hbusy : s.status.busy = true) : u.pending = none ∨ u.wait = s.wait := by
  cases h
  case reset => exact .inl rfl
  case accept hidle => simp [hidle] at hbusy
  all_goals exact .inr rfl

/-- A step with a command pending ends it, or takes one off its wait. -/
theorem step_progress {s t : State} (hs : BusyIffPending s) (hp : s.pending ≠ none) (h : step s = .next t) :
    t.pending = none ∨ t.wait + 1 = s.wait := by
  obtain ⟨w, i, -, -, -, h⟩ | ⟨w, e, -, -, -, rfl⟩ | ⟨hturn, rfl⟩ := step_cases h
  · obtain ⟨u, c, -, rfl⟩ := exec_cases h
    exact .inl rfl
  · exact .inl rfl
  · have hsome : s.pending.isSome = true := Option.isSome_iff_ne_none.2 hp
    have hnotReady : ¬ (s.wait = 0 ∨ s.host = []) := by
      rw [← engineReady_iff, hturn.resolve_left hp]
      exact Bool.false_ne_true
    obtain ⟨hwait, hhost⟩ := not_or.1 hnotReady
    obtain ⟨hnil, -⟩ | ⟨st, rest, u, host, d, b, -, hu, heffect⟩ := hostTurn_cases s
    · exact absurd hnil hhost
    · obtain ⟨hbusy, -, -⟩ := hs
      rw [heffect]
      refine (hu.pending_while_busy (hbusy.trans hsome)).imp_right fun h => ?_
      rw [if_pos hsome, h]
      exact Nat.sub_one_add_one hwait

theorem run_succ_of_step {M : Host.Core} {s t : M.State} (h : M.step s = .next t) (n : Nat) :
    M.run (n + 1) s = M.run n t := by
  simp only [Host.Core.run, h]

/-- Settles O60: by induction on the wait, which each step that does not end the command lowers. -/
theorem pendingCommandFinishes : Obligations.PendingCommandFinishes := by
  intro s
  induction hk : s.wait using Nat.strong_induction_on generalizing s with
  | _ k ih =>
    intro hs hp
    obtain ⟨t, h⟩ := step_answers s
    by_cases hgone : t.pending = none
    · exact ⟨1, by omega, t, run_succ_of_step h 0, hgone⟩
    · have hless := (step_progress hs hp h).resolve_left hgone
      obtain ⟨n, hn, t', hrun, hgone'⟩ := ih t.wait (by omega) t rfl (stepKeepsBusyIffPending s t hs h) hgone
      exact ⟨n + 1, by omega, t', (run_succ_of_step h n).trans hrun, hgone'⟩

end Sys2Proof.Proofs

/-! SUPPORT. Exceptions (60_exceptions.md R283, R295): what a failed command leaves, and the interrupt output in the words the host reads. -/

namespace Sys2Proof.Proofs

open Sys2Proof.Machine Sys2Proof.Safety Sys2Proof.Laws

/-- Settles O9: an effect that ends with a code other than 0x00 writes at most the VALID bit of its engine's configuration. -/
theorem failedCommandChangesOnlyStatus : Obligations.FailedCommandChangesOnlyStatus := by
  intro s t w hp hready h hcode
  cases hd : decode w with
  | error e =>
    rw [illegalWordEndsWithCode01 s w e hp hready hd] at h
    cases h
    rfl
  | ok i =>
    rw [stepRunsDecodedCommand.1 s w i hp hready hd] at h
    obtain ⟨u, c, hu, rfl⟩ := exec_cases h
    have hfailed : complete (u, c) = _ := complete_raiseCode hcode u
    rw [hfailed]
    cases hu
    case fftConfigBadSize | fftConfigBadInput | ltConfigBadParam | ltConfigBadBands => rfl
    case transformRefused | updateRefused => rfl
    all_goals exact absurd rfl hcode

/-- The word STATUS >> 1 masked by IRQ_EN, bit by bit: DONE, ERR and BUSERR, each with its enable (10_state.md R34, R35). -/
theorem getLsbD_enabledStatus (s : State) (i : Nat) :
    ((statusWord s.status >>> 1) &&& readValue s .irqEn).getLsbD i =
      match i with
      | 0 => s.status.done && s.irqEn.getLsbD 0
      | 1 => s.status.err && s.irqEn.getLsbD 1
      | 2 => s.status.busErr && s.irqEn.getLsbD 2
      | _ => false := by
  rw [BitVec.getLsbD_and, BitVec.getLsbD_ushiftRight, getLsbD_statusWord]
  match i with
  | 0 | 1 | 2 => simp [readValue]
  | n + 3 => simp [readValue, BitVec.getLsbD_of_ge]

/-- Settles O56: a word is not 0 when one of its bits is 1, and only the three flag bits can be. -/
theorem irqFollowsReadableBits : Obligations.IrqFollowsReadableBits := by
  intro s
  rw [ne_eq, BitVec.ofNat_eq_ofNat, BitVec.zero_iff_eq_false, not_forall]
  simp only [getLsbD_enabledStatus, Bool.not_eq_false, irq, Bool.or_eq_true]
  constructor
  · rintro ((hdone | herr) | hbusErr)
    · exact ⟨0, hdone⟩
    · exact ⟨1, herr⟩
    · exact ⟨2, hbusErr⟩
  · rintro ⟨i, hi⟩
    match i, hi with
    | 0, hdone => exact .inl (.inl hdone)
    | 1, herr => exact .inl (.inr herr)
    | 2, hbusErr => exact .inr hbusErr

end Sys2Proof.Proofs

/-! SUPPORT. Reset (70_reset_and_hazards.md R321 to R323): what an aborted command leaves in the RAMs, and the registers after a soft reset. -/

namespace Sys2Proof.Proofs

open Sys2Proof.Machine Sys2Proof.Laws

/-! What a reset does to the RAMs, by the pending word (70_reset_and_hazards.md R322). -/

theorem abortedRam_of_idle {s : State} (hp : s.pending = none) : abortedRam s = s.ram := by
  simp [abortedRam, hp]

theorem abortedRam_of_fftTransform {s : State} {w : Word} (hp : s.pending = some w)
    (hd : decode w = .ok .fftTransform) :
    abortedRam s = scramble s.draws specBase (noutA s) s.ram := by
  simp [abortedRam, hp, hd, noutA]

theorem abortedRam_of_fftConfig {s : State} {w : Word} {e : Bool} (hp : s.pending = some w)
    (hd : decode w = .ok (.fftConfig e)) :
    abortedRam s =
      if e then scramble s.draws eqBase Config.oMax (scramble s.draws bitrevBase Config.wMax s.ram)
      else scramble s.draws bitrevBase Config.wMax s.ram := by
  cases e <;> simp [abortedRam, hp, hd]

/-- No other word, Illegal ones included, was to write RAM. -/
theorem abortedRam_of_other {s : State} {w : Word} (hp : s.pending = some w)
    (hconfig : ∀ e, decode w ≠ .ok (.fftConfig e)) (htransform : decode w ≠ .ok .fftTransform) :
    abortedRam s = s.ram := by
  rw [abortedRam, hp, Option.map_some]
  split
  case h_1 h => exact absurd (Option.some.inj h) htransform
  case h_2 h => exact absurd (Option.some.inj h) (hconfig false)
  case h_3 h => exact absurd (Option.some.inj h) (hconfig true)
  case h_4 => rfl

/-- Settles O53: an abort scrambles SPEC, or BITREV and with E = 1 EQ, and a byte outside the scrambled words stays. -/
theorem abortKeepsOtherRam : Obligations.AbortKeepsOtherRam := by
  intro s w a hp
  rw [resetBlock_ram]
  refine ⟨fun hd hspec => ?transform, fun e hd hbitrev heq => ?config, abortedRam_of_other hp⟩
  case transform =>
    rw [abortedRam_of_fftTransform hp hd]
    exact readByte_scramble_outside _ _ _ _ _ (by simp only [specBase]; omega)
  case config =>
    have hkept : readByte (scramble s.draws bitrevBase Config.wMax s.ram) a = readByte s.ram a :=
      readByte_scramble_outside _ _ _ _ _ (by simp only [bitrevBase, Config.wMax]; omega)
    rw [abortedRam_of_fftConfig hp hd]
    cases e with
    | false => exact hkept
    | true =>
      have houtside : a < eqBase ∨ eqBase + 4 * Config.oMax ≤ a := by
        have heq := not_and.1 heq rfl
        simp only [eqBase, Config.oMax]
        omega
      exact (readByte_scramble_outside _ _ _ _ _ houtside).trans hkept

/-! The registers after a soft reset (10_state.md R53, 70_reset_and_hazards.md R321). -/

@[simp] theorem statusWord_reset : statusWord Status.reset = 0 := by decide

/-- A soft reset is accepted whether BUSY is 0 or 1, as CTRL is always accessible (20_memory.md R88, 70_reset_and_hazards.md R321). -/
theorem transact_softReset (s : State) {data : Word} (hd : data.getLsbD 0 = true) :
    transact (.write 4 0x00000010 data) s = { resetBlock s with bus := some (.writeDone .okay) } := by
  rw [transact_write_okay (r := .ctrl) rfl (by decide) rfl (fun _ => rfl), writeValue, if_pos hd]

/-- Settles O52: the accepted write is the reset of the block, whose registers are those of the reset state, and the reset input is the same reset. -/
theorem softResetRestoresRegisters : Obligations.SoftResetRestoresRegisters := by
  intro s data hd
  exact ⟨_, (transact_softReset s hd).symm, rfl, rfl, statusWord_reset, rfl, rfl, rfl, rfl, rfl, rfl,
    abortedRam_of_idle, rfl, fun _ => rfl⟩

end Sys2Proof.Proofs
